-- ==== Sys2Proof/Word.lean ====
section
/-! DEFINITION. Word.lean: the 32-bit word of the register interface, and the level, the one-bit value of the signals. -/

namespace Sys2Proof

/-- A 32-bit word: a register of the window (`10_state.md` R32), a command word (`30_encoding.md` R81), an element zero-extended. -/
abbrev Word := BitVec 32

/-- A signal level (`00_scope.md` R14). -/
inductive Level where
  | low
  | high
  deriving DecidableEq, Repr

/-- The bit that stores a level: High is 1, Low is 0 (`00_scope.md` R14). -/
def Level.toBool : Level → Bool
  | .low => false
  | .high => true

/-- The level a bit stores (`00_scope.md` R14). -/
def Level.ofBool : Bool → Level
  | false => .low
  | true => .high

/-- `not x` of `00_scope.md` R14: High and Low exchanged. -/
def Level.not : Level → Level
  | .low => .high
  | .high => .low

end Sys2Proof
end

