-- ==== Sys2Proof/Config.lean ====
section
/-! DEFINITION. Config.lean: the constants of the block and the parameters of an instance (`00_scope.md` R8 to R12). -/

namespace Sys2Proof

/-- L, the number of PMEM elements and of angle units in the cycle (`00_scope.md` R9, R12). -/
abbrev elementCount : Nat := 7200

/-- One crank revolution in angle units (`00_scope.md` R9, R12). -/
abbrev revolution : Nat := 3600

/-- The number of slots of the cam edge list (`00_scope.md` R12). -/
abbrev camSlots : Nat := 20

/-- The number of TDC bits, for cylinder indices 0 to 5 (`00_scope.md` R12). -/
abbrev tdcBits : Nat := 6

/-- The cam sentinel, "unused" (`30_encoding.md` R88). -/
abbrev camSentinel : Nat := 0xFFFF

/-- The bytes of the register window (`20_memory.md` R71). -/
abbrev windowBytes : Nat := 256

/-- W, the PMEM element width: 8, 16 or 32 (`00_scope.md` R8). -/
inductive Width where
  | w8
  | w16
  | w32
  deriving DecidableEq, Repr

/-- The number of bits of an element. -/
def Width.bits : Width → Nat
  | .w8 => 8
  | .w16 => 16
  | .w32 => 32

/-- The bits of a word that an element of this width has. -/
def Width.mask : Width → Word
  | .w8 => 0x000000FF#32
  | .w16 => 0x0000FFFF#32
  | .w32 => 0xFFFFFFFF#32

/-- The parameters of an instance, fixed when it is built: `W` (R8), `SUPPORTED_CYL` (R10), `BASE` (R11), all of `00_scope.md`.
No step changes them (`70_reset_and_hazards.md` R290). -/
structure Params where
  width : Width
  supportedCyl : List Nat
  base : Nat
  deriving DecidableEq, Repr

/-- What `00_scope.md` R10 asks of `SUPPORTED_CYL`: every member is in 1 to 6 and divides 7200. -/
def Params.wf (p : Params) : Bool :=
  p.supportedCyl.all fun n => decide (1 ≤ n ∧ n ≤ 6 ∧ elementCount % n = 0)

/-- The instance of `State.reset`. `SUPPORTED_CYL` = {4, 6} is R10's set for this hardware; W = 8 and BASE = 0 are the model's choice
(DESIGN CHOICE, log entries 1 and 3): the spec leaves both open, and every statement is for all parameters. -/
def Params.reference : Params := { width := .w8, supportedCyl := [4, 6], base := 0 }

end Sys2Proof
end

