-- ==== Sys2Proof/Syntax.lean ====
section
/-! DEFINITION. Syntax.lean: the instructions of the block, one constructor per row of spec/opcode_table.json, and the four transaction
formats they arrive in (`30_encoding.md` R80). -/

namespace Sys2Proof

/-- The ENGINE's phase (`10_state.md` R36): 0 IDLE, 1 MAIN, 2 TDC. "The value 3 is never held": it has no constructor (log entry 13). -/
inductive Phase where
  | idle
  | main
  | tdc
  deriving DecidableEq, Repr

/-- The direction of a HOST register access, with the value of a write (`30_encoding.md` R92). -/
inductive Access where
  | read
  | write (v : Word)
  deriving DecidableEq, Repr

/-- The size of a HOST register access; anything narrower than a word raises E_ILLEGAL_ACCESS (`20_memory.md` R66). -/
inductive Size where
  | byte
  | half
  | word
  deriving DecidableEq, Repr

/-- A transaction as its interface presents it: the four formats of `30_encoding.md` R80. -/
inductive Wire where
  /-- CMD: a command word written to the CMD register (R81). -/
  | cmd (w : Word)
  /-- REG: a register access at a byte offset of the window (R92). -/
  | reg (acc : Access) (size : Size) (off : BitVec 8)
  /-- PORT: a stream-port read of an element index (R93). -/
  | port (i : Nat)
  /-- ENGINE: an internal step with no encoding, selected by STATUS.PHASE (R94). -/
  | engine (p : Phase)
  deriving DecidableEq, Repr

/-- Why a transaction is no instruction. -/
inductive DecodeReject where
  /-- The ENGINE has no step while PHASE = IDLE (`60_exceptions.md` R279). -/
  | engineIdle
  deriving DecidableEq, Repr

/-- The opcodes 0x0 to 0xB of `30_encoding.md` R83. -/
inductive Opcode where
  | nop | setCam | getCam | setCrk | getCrk | setTdc | getTdc | rdWord | wrWord | validate | generate | clrErr
  deriving DecidableEq, Repr

/-- The instructions: every row of spec/opcode_table.json. `addr` is the element index ADDR, `cyl` the cylinder index CYL, `lvl` the
level LVL (`30_encoding.md` R82); `v` is the value of a register write; `k` counts the registers of a row from its first one. -/
inductive Instr where
  -- CMD: command words
  | nop
  | setCam (addr : BitVec 13) (lvl : Level)
  | getCam (addr : BitVec 13)
  | setCrk (addr : BitVec 13) (lvl : Level)
  | getCrk (addr : BitVec 13)
  | setTdc (addr : BitVec 13) (cyl : BitVec 3) (lvl : Level)
  | getTdc (addr : BitVec 13) (cyl : BitVec 3)
  | rdWord (addr : BitVec 13)
  | wrWord (addr : BitVec 13)
  | validate
  | generate
  | clrErr
  /-- RESERVED_OPC_C_TO_F: a word that spells no command, by its opcode (R85) or by a field (R84). -/
  | reservedOpc (w : Word)
  -- REG: register accesses
  | readCmd
  | writeCmd (v : Word)
  | readData
  | writeData (v : Word)
  | readResult
  | writeResult (v : Word)
  | readStatus
  | writeStatus (v : Word)
  | readCrkCfg
  | writeCrkCfg (v : Word)
  | readCamCfg
  | writeCamCfg (v : Word)
  | readTdcCfg
  | writeTdcCfg (v : Word)
  | readInfo
  | writeInfo (v : Word)
  | readCamEdge0 (k : BitVec 4)
  | writeCamEdge0 (k : BitVec 4) (v : Word)
  | readCamEdge16 (k : BitVec 2)
  | writeCamEdge16 (k : BitVec 2) (v : Word)
  | readCamEdge20 (k : BitVec 2)
  | writeCamEdge20 (k : BitVec 2) (v : Word)
  | readCamEdge24 (k : BitVec 3)
  | writeCamEdge24 (k : BitVec 3) (v : Word)
  | unmapped20 (acc : Access) (k : BitVec 3)
  | unmappedC0 (acc : Access) (k : BitVec 4)
  /-- READ/WRITE misaligned: an offset with bits 1:0 not 00, or an access narrower than 32 bits. -/
  | misaligned (acc : Access) (size : Size) (off : BitVec 8)
  -- PORT: the stream port
  | streamRd (i : Nat)
  -- ENGINE: internal steps
  | mainStep
  | tdcStep
  deriving DecidableEq, Repr

end Sys2Proof
end

