-- ==== Sys2Proof/WellFormed.lean ====
section
/-! DEFINITION. WellFormed.lean: which terms of Instr are transactions the spec describes. Operand fields have the widths of
`30_encoding.md` R81 by their types; what is left to check is which words spell no command (R84, R85), which accesses are misaligned or
narrow (`45_config_control.md` R220), and which element indices the stream port takes (R245). -/

namespace Sys2Proof

/-- The commands that use ADDR (`30_encoding.md` R83, column "uses"), by opcode number. -/
def usesAddr (opc : BitVec 4) : Bool := decide (1 ≤ opc.toNat ∧ opc.toNat ≤ 8)
/-- The commands that use CYL: SET_TDC and GET_TDC. -/
def usesCyl (opc : BitVec 4) : Bool := decide (opc.toNat = 5 ∨ opc.toNat = 6)
/-- The commands that use LVL: SET_CAM, SET_CRK and SET_TDC. -/
def usesLvl (opc : BitVec 4) : Bool := decide (opc.toNat = 1 ∨ opc.toNat = 3 ∨ opc.toNat = 5)

/-- `30_encoding.md` R84 and R85: a word spells no command when its opcode is reserved, its RSV field is not 0, or a field that the
command of its opcode does not use is not 0. -/
def spellsNoCommand (w : Word) : Bool :=
  let opc := w.extractLsb' 28 4
  decide (0xC ≤ opc.toNat) || w.extractLsb' 17 11 != 0 ||
    (!usesAddr opc && w.extractLsb' 0 13 != 0) ||
    (!usesCyl opc && w.extractLsb' 13 3 != 0) ||
    (!usesLvl opc && w.extractLsb' 16 1 != 0)

/-- An access at an offset that is not a multiple of 4, or narrower than 32 bits (`45_config_control.md` R220). -/
def misalignedAccess (size : Size) (off : BitVec 8) : Bool :=
  size != .word || off.extractLsb' 0 2 != 0

/-- Well-formed instructions. -/
def Instr.wellFormed : Instr → Bool
  | .reservedOpc w => spellsNoCommand w
  | .misaligned _ size off => misalignedAccess size off
  | .streamRd i => decide (i < elementCount)
  | .nop | .setCam _ _ | .getCam _ | .setCrk _ _ | .getCrk _ | .setTdc _ _ _ | .getTdc _ _ | .rdWord _ | .wrWord _
  | .validate | .generate | .clrErr
  | .readCmd | .writeCmd _ | .readData | .writeData _ | .readResult | .writeResult _ | .readStatus | .writeStatus _
  | .readCrkCfg | .writeCrkCfg _ | .readCamCfg | .writeCamCfg _ | .readTdcCfg | .writeTdcCfg _ | .readInfo | .writeInfo _
  | .readCamEdge0 _ | .writeCamEdge0 _ _ | .readCamEdge16 _ | .writeCamEdge16 _ _
  | .readCamEdge20 _ | .writeCamEdge20 _ _ | .readCamEdge24 _ | .writeCamEdge24 _ _
  | .unmapped20 _ _ | .unmappedC0 _ _ | .mainStep | .tdcStep => true

end Sys2Proof
end

