-- ==== Sys2Proof/Decode.lean ====
section
/-! DEFINITION. Decode.lean: from a transaction on an interface to the instruction it is (`30_encoding.md` R80 to R94), and the encoder
back, written from the same tables. -/

namespace Sys2Proof

/-! ### Command words -/

/-- OPC, bits 31:28 of a command word (`30_encoding.md` R81). -/
def opcField (w : Word) : BitVec 4 := w.extractLsb' 28 4
/-- LVL, bit 16, read as a level: 1 is High (R82). -/
def lvlField (w : Word) : Level := Level.ofBool (w.getLsbD 16)
/-- CYL, bits 15:13. -/
def cylField (w : Word) : BitVec 3 := w.extractLsb' 13 3
/-- ADDR, bits 12:0. -/
def addrField (w : Word) : BitVec 13 := w.extractLsb' 0 13

/-- The opcode numbers of `30_encoding.md` R83; 0xC to 0xF are reserved (R85). -/
def opcodeOfNumber : Nat → Option Opcode
  | 0x0 => some .nop
  | 0x1 => some .setCam
  | 0x2 => some .getCam
  | 0x3 => some .setCrk
  | 0x4 => some .getCrk
  | 0x5 => some .setTdc
  | 0x6 => some .getTdc
  | 0x7 => some .rdWord
  | 0x8 => some .wrWord
  | 0x9 => some .validate
  | 0xA => some .generate
  | 0xB => some .clrErr
  | _ => none

/-- The column "match" of `30_encoding.md` R83. -/
def Opcode.matchWord : Opcode → Word
  | .nop => 0x00000000#32
  | .setCam => 0x10000000#32
  | .getCam => 0x20000000#32
  | .setCrk => 0x30000000#32
  | .getCrk => 0x40000000#32
  | .setTdc => 0x50000000#32
  | .getTdc => 0x60000000#32
  | .rdWord => 0x70000000#32
  | .wrWord => 0x80000000#32
  | .validate => 0x90000000#32
  | .generate => 0xA0000000#32
  | .clrErr => 0xB0000000#32

/-- The column "mask" of `30_encoding.md` R83: OPC, RSV and every field the command does not use. -/
def Opcode.maskWord : Opcode → Word
  | .nop => 0xFFFFFFFF#32
  | .setCam => 0xFFFEE000#32
  | .getCam => 0xFFFFE000#32
  | .setCrk => 0xFFFEE000#32
  | .getCrk => 0xFFFFE000#32
  | .setTdc => 0xFFFE0000#32
  | .getTdc => 0xFFFF0000#32
  | .rdWord => 0xFFFFE000#32
  | .wrWord => 0xFFFFE000#32
  | .validate => 0xFFFFFFFF#32
  | .generate => 0xFFFFFFFF#32
  | .clrErr => 0xFFFFFFFF#32

/-- The command that a word written to CMD spells (`30_encoding.md` R86); none for a word that spells no command. -/
def commandOf (w : Word) : Option Opcode :=
  match opcodeOfNumber (opcField w).toNat with
  | none => none
  | some op => if w &&& op.maskWord = op.matchWord then some op else none

/-- The instruction of an opcode with its operands (`30_encoding.md` R82, R83). -/
def Opcode.instr (op : Opcode) (addr : BitVec 13) (cyl : BitVec 3) (lvl : Level) : Instr :=
  match op with
  | .nop => .nop
  | .setCam => .setCam addr lvl
  | .getCam => .getCam addr
  | .setCrk => .setCrk addr lvl
  | .getCrk => .getCrk addr
  | .setTdc => .setTdc addr cyl lvl
  | .getTdc => .getTdc addr cyl
  | .rdWord => .rdWord addr
  | .wrWord => .wrWord addr
  | .validate => .validate
  | .generate => .generate
  | .clrErr => .clrErr

/-- Decoding a command word. A word that spells no command is an instruction too: its effect is E_ILLEGAL_COMMAND (R84, R85). -/
def decodeCommand (w : Word) : Instr :=
  match commandOf w with
  | some op => op.instr (addrField w) (cylField w) (lvlField w)
  | none => .reservedOpc w

/-! ### Register accesses -/

/-- The read of word number `n` of the window, the byte offset being 4 * `n` (`10_state.md` R32, `45_config_control.md` R220). -/
def decodeRead (n : Nat) : Instr :=
  match n with
  | 0 => .readCmd
  | 1 => .readData
  | 2 => .readResult
  | 3 => .readStatus
  | 4 => .readCrkCfg
  | 5 => .readCamCfg
  | 6 => .readTdcCfg
  | 7 => .readInfo
  | n =>
    if n < 16 then .unmapped20 .read (BitVec.ofNat 3 (n - 8))
    else if n < 32 then .readCamEdge0 (BitVec.ofNat 4 (n - 16))
    else if n < 36 then .readCamEdge16 (BitVec.ofNat 2 (n - 32))
    else if n < 40 then .readCamEdge20 (BitVec.ofNat 2 (n - 36))
    else if n < 48 then .readCamEdge24 (BitVec.ofNat 3 (n - 40))
    else .unmappedC0 .read (BitVec.ofNat 4 (n - 48))

/-- The write of `v` to word number `n` of the window. -/
def decodeWrite (v : Word) (n : Nat) : Instr :=
  match n with
  | 0 => .writeCmd v
  | 1 => .writeData v
  | 2 => .writeResult v
  | 3 => .writeStatus v
  | 4 => .writeCrkCfg v
  | 5 => .writeCamCfg v
  | 6 => .writeTdcCfg v
  | 7 => .writeInfo v
  | n =>
    if n < 16 then .unmapped20 (.write v) (BitVec.ofNat 3 (n - 8))
    else if n < 32 then .writeCamEdge0 (BitVec.ofNat 4 (n - 16)) v
    else if n < 36 then .writeCamEdge16 (BitVec.ofNat 2 (n - 32)) v
    else if n < 40 then .writeCamEdge20 (BitVec.ofNat 2 (n - 36)) v
    else if n < 48 then .writeCamEdge24 (BitVec.ofNat 3 (n - 40)) v
    else .unmappedC0 (.write v) (BitVec.ofNat 4 (n - 48))

/-- A word access at word number `n` of the window. -/
def decodeRegister (acc : Access) (n : Nat) : Instr :=
  match acc with
  | .read => decodeRead n
  | .write v => decodeWrite v n

/-! ### Every transaction -/

/-- Decoding a transaction of any format (`30_encoding.md` R80). The misaligned row takes precedence over every other REG row
(spec/opcode_table.json, its note). -/
def decode : Wire → Except DecodeReject Instr
  | .cmd w => .ok (decodeCommand w)
  | .reg acc size off =>
    if size ≠ .word ∨ off.toNat % 4 ≠ 0 then .ok (.misaligned acc size off) else .ok (decodeRegister acc (off.toNat / 4))
  | .port i => .ok (.streamRd i)
  | .engine .main => .ok .mainStep
  | .engine .tdc => .ok .tdcStep
  | .engine .idle => .error .engineIdle

/-! ### The encoder -/

/-- A command word from its fields, RSV being 0 (`30_encoding.md` R81). -/
def commandWord (opc : BitVec 4) (lvl : Level) (cyl : BitVec 3) (addr : BitVec 13) : Word :=
  opc ++ 0#11 ++ BitVec.ofBool lvl.toBool ++ cyl ++ addr

/-- A word access at a byte offset. -/
def registerAt (acc : Access) (off : Nat) : Wire := .reg acc .word (BitVec.ofNat 8 off)

/-- The transaction of an instruction (`30_encoding.md` R81 to R83, R92 to R94; `10_state.md` R32). -/
def encode : Instr → Wire
  | .nop => .cmd (commandWord 0x0#4 .low 0#3 0#13)
  | .setCam addr lvl => .cmd (commandWord 0x1#4 lvl 0#3 addr)
  | .getCam addr => .cmd (commandWord 0x2#4 .low 0#3 addr)
  | .setCrk addr lvl => .cmd (commandWord 0x3#4 lvl 0#3 addr)
  | .getCrk addr => .cmd (commandWord 0x4#4 .low 0#3 addr)
  | .setTdc addr cyl lvl => .cmd (commandWord 0x5#4 lvl cyl addr)
  | .getTdc addr cyl => .cmd (commandWord 0x6#4 .low cyl addr)
  | .rdWord addr => .cmd (commandWord 0x7#4 .low 0#3 addr)
  | .wrWord addr => .cmd (commandWord 0x8#4 .low 0#3 addr)
  | .validate => .cmd (commandWord 0x9#4 .low 0#3 0#13)
  | .generate => .cmd (commandWord 0xA#4 .low 0#3 0#13)
  | .clrErr => .cmd (commandWord 0xB#4 .low 0#3 0#13)
  | .reservedOpc w => .cmd w
  | .readCmd => registerAt .read 0x00
  | .writeCmd v => registerAt (.write v) 0x00
  | .readData => registerAt .read 0x04
  | .writeData v => registerAt (.write v) 0x04
  | .readResult => registerAt .read 0x08
  | .writeResult v => registerAt (.write v) 0x08
  | .readStatus => registerAt .read 0x0C
  | .writeStatus v => registerAt (.write v) 0x0C
  | .readCrkCfg => registerAt .read 0x10
  | .writeCrkCfg v => registerAt (.write v) 0x10
  | .readCamCfg => registerAt .read 0x14
  | .writeCamCfg v => registerAt (.write v) 0x14
  | .readTdcCfg => registerAt .read 0x18
  | .writeTdcCfg v => registerAt (.write v) 0x18
  | .readInfo => registerAt .read 0x1C
  | .writeInfo v => registerAt (.write v) 0x1C
  | .readCamEdge0 k => registerAt .read (0x40 + 4 * k.toNat)
  | .writeCamEdge0 k v => registerAt (.write v) (0x40 + 4 * k.toNat)
  | .readCamEdge16 k => registerAt .read (0x80 + 4 * k.toNat)
  | .writeCamEdge16 k v => registerAt (.write v) (0x80 + 4 * k.toNat)
  | .readCamEdge20 k => registerAt .read (0x90 + 4 * k.toNat)
  | .writeCamEdge20 k v => registerAt (.write v) (0x90 + 4 * k.toNat)
  | .readCamEdge24 k => registerAt .read (0xA0 + 4 * k.toNat)
  | .writeCamEdge24 k v => registerAt (.write v) (0xA0 + 4 * k.toNat)
  | .unmapped20 acc k => registerAt acc (0x20 + 4 * k.toNat)
  | .unmappedC0 acc k => registerAt acc (0xC0 + 4 * k.toNat)
  | .misaligned acc size off => .reg acc size off
  | .streamRd i => .port i
  | .mainStep => .engine .main
  | .tdcStep => .engine .tdc

/-! ### The host's numbering of the table's words -/

/-- The transaction whose bits spec/opcode_table.json numbers: a CMD row has the 32 bits of the command word, a REG row the 8 bits of the
offset. The direction and the value of a register access are above the row's bits, so both are 0: a word READ (log entry 15). PORT and
ENGINE rows have no bits. -/
def wireOfBits (nbits w : Nat) : Option Wire :=
  if nbits = 32 then some (.cmd (BitVec.ofNat 32 w))
  else if nbits = 8 then some (.reg .read .word (BitVec.ofNat 8 w))
  else none

/-- The instruction the decoder reads from the table's bits. -/
def decodeTableWord (nbits w : Nat) : Option Instr :=
  match wireOfBits nbits w with
  | none => none
  | some wire =>
    match decode wire with
    | .ok i => some i
    | .error _ => none

end Sys2Proof
end

