-- ==== Sys2Proof/Machine/State.lean ====
section
/-! DEFINITION. State.lean: every piece of state the spec gives the block (`10_state.md`), the reasons a step can stop, and the state after
reset. -/

namespace Sys2Proof.Machine

/-- The error codes of STATUS.ERR (`30_encoding.md` R95). 0xD to 0xF are never recorded and have no constructor. -/
inductive Err where
  /-- 0x0 E_NONE: no error recorded. -/
  | eNone
  /-- 0x1 E_INVALID_CYLINDER_COUNT. -/
  | invalidCylinderCount
  /-- 0x2 E_TDC_OUT_OF_RANGE. -/
  | tdcOutOfRange
  /-- 0x3 E_UNSUPPORTED_CAM_EDGE_COUNT. -/
  | unsupportedCamEdgeCount
  /-- 0x4 E_NON_MONOTONIC_CAM_EDGES. -/
  | nonMonotonicCamEdges
  /-- 0x5 E_INVALID_CRANK_WHEEL. -/
  | invalidCrankWheel
  /-- 0x6 E_INVALID_CAM_EDGE. -/
  | invalidCamEdge
  /-- 0x7 E_CONFIG_NOT_VALIDATED. -/
  | configNotValidated
  /-- 0x8 E_BUSY. -/
  | busy
  /-- 0x9 E_ADDRESS_OUT_OF_RANGE. -/
  | addressOutOfRange
  /-- 0xA E_INVALID_CYLINDER_INDEX. -/
  | invalidCylinderIndex
  /-- 0xB E_ILLEGAL_COMMAND. -/
  | illegalCommand
  /-- 0xC E_ILLEGAL_ACCESS. -/
  | illegalAccess
  deriving DecidableEq, Repr

/-- One element of PMEM (`10_state.md` R52): which of its bits are defined, and the value of those that are (`20_memory.md` R64). A bit
that is not defined is 0 in `value`, and so is every bit from W up. -/
structure Elem where
  defined : Word
  value : Word
  deriving DecidableEq, Repr

/-- An element all of whose bits are undefined: what an unlisted element is (`10_state.md` R57, log entry 5). -/
def Elem.undefined : Elem := { defined := 0#32, value := 0#32 }

/-- PMEM: the elements that have a defined bit, each with its index, indices strictly rising (`20_memory.md` R60, R64). -/
abbrev Memory := List (Nat × Elem)

/-- The form of one listed element: it has a defined bit, no defined bit from W up, and 0 where it is not defined. -/
def Elem.wf (w : Width) (e : Elem) : Bool :=
  e.defined != 0#32 && e.defined &&& ~~~w.mask == 0#32 && e.value &&& ~~~e.defined == 0#32

/-- Every listed index is at least `lo` and below 7200, the indices rise strictly, and every element has its form. -/
def Memory.risingFrom (w : Width) (lo : Nat) : Memory → Bool
  | [] => true
  | (i, e) :: m => decide (lo ≤ i ∧ i < elementCount) && e.wf w && Memory.risingFrom w (i + 1) m

/-- The canonical form of PMEM: equal contents are equal lists. -/
def Memory.wf (w : Width) (m : Memory) : Bool := Memory.risingFrom w 0 m

/-- One turn of one agent (`00_scope.md` R6), as the environment orders them (`20_memory.md` R73, log entry 6). -/
inductive Turn where
  /-- HOST writes a command word to CMD. -/
  | cmd (w : Word)
  /-- HOST accesses a bus address; the block's registers are the 256 bytes from BASE (`00_scope.md` R11). -/
  | bus (acc : Access) (size : Size) (addr : Nat)
  /-- STREAM reads an element. -/
  | stream (i : Nat)
  /-- ENGINE takes its step, if it has one. -/
  | engine
  /-- RESET drives the reset input. -/
  | reset
  deriving DecidableEq, Repr

/-- The state of the block. -/
structure State where
  /-- The parameters of the instance (`00_scope.md` R7, R8, R10, R11). -/
  params : Params
  /-- DATA (`10_state.md` R33). -/
  data : Word
  /-- RESULT (R34). -/
  result : Word
  /-- STATUS.PHASE (R36); STATUS.BUSY follows it. -/
  phase : Phase
  /-- STATUS.DONE (R53). -/
  done : Bool
  /-- STATUS.CFG_VALID (R54). -/
  cfgValid : Bool
  /-- STATUS.ERR (`60_exceptions.md` R262). -/
  err : Err
  /-- STATUS.ERR_MULTI (`60_exceptions.md` R262). -/
  errMulti : Bool
  /-- CRK_CFG (R37). -/
  crkCfg : Word
  /-- CAM_CFG (R38). -/
  camCfg : Word
  /-- TDC_CFG (R39). -/
  tdcCfg : Word
  /-- CAM_EDGE[0..19] (R40). -/
  camEdge : Vector Word 20
  /-- CURSOR (R43). -/
  cursor : BitVec 13
  /-- CAM_LVL (R44). -/
  camLvl : Level
  /-- CAM_IDX (R44). -/
  camIdx : BitVec 5
  /-- CRK_LVL (R45). -/
  crkLvl : Level
  /-- TDC_K (R46). -/
  tdcK : BitVec 3
  /-- PMEM (R52). -/
  pmem : Memory
  /-- The model's own: the turns still to be taken, in order (log entry 6). -/
  agenda : List Turn
  /-- The model's own: what the latest HOST register read returned (log entry 9). -/
  hostRead : Option Word
  /-- The model's own: what the latest stream-port read returned, zero-extended (log entry 9). -/
  streamOut : Option Word
  deriving DecidableEq, Repr

/-- Why the model stops. The hardware itself has no trap (`60_exceptions.md` R269): its errors are next states. -/
inductive Fault where
  /-- `UndefinedRead(i, b)`: GET_CAM, GET_CRK, GET_TDC, RD_WORD or STREAM_RD reads bit `b` of element `i`, which is undefined. The
  spec names this fault (`20_memory.md` R64). Safe: the hardware goes on with some value. -/
  | undefinedRead (i b : Nat)
  /-- STREAM_RD of an index of 7200 or more: "a model gives the STREAM agent no step (it is stuck)" (`45_config_control.md` R246). Safe. -/
  | streamIndexOutOfContract (i : Nat)
  /-- MAIN_STEP outside PHASE = MAIN, or TDC_STEP outside PHASE = TDC: the ENGINE has no such step (`44_generate.md` R202, `43_tdc.md`
  R186). `step` never takes one. Safe. -/
  | engineStepNotEnabled
  /-- MAIN_STEP on a wheel that is not legal, or TDC_STEP on a cylinder count outside 1 to 6 or with TDC_K at or past it: the derived
  quantities are not defined (`10_state.md` R49, R50, `43_tdc.md` R181). No run from reset reaches it. Safe. -/
  | engineConfigNotLegal
  /-- A PMEM access at an index of 7200 or more, which does not exist (`10_state.md` R52). No run from reset reaches it. Safe. -/
  | noSuchElement (i : Nat)
  /-- A PMEM access at a bit from W up, which does not exist (`10_state.md` R52). No run from reset reaches it. Safe. -/
  | noSuchBit (i b : Nat)
  deriving DecidableEq, Repr

/-- Why the model has no meaning for an instruction. -/
inductive Refusal where
  /-- An instruction of the table that has no meaning yet: raised by `exec`'s arm alone. Safe. No arm raises it. -/
  | notModelled (mnemonic : String)
  deriving DecidableEq, Repr

/-- What an instruction answers. -/
abbrev Result := Host.Outcome State Fault Refusal

/-- An instance with these parameters right after reset (`10_state.md` R57, `70_reset_and_hazards.md` R290). The ENGINE registers are
unspecified there: 0 and Low are the model's choice (DESIGN CHOICE, log entry 4, unsafe). -/
def State.resetOf (p : Params) : State :=
  { params := p
    data := 0x00000000#32
    result := 0x00000000#32
    phase := .idle
    done := false
    cfgValid := false
    err := .eNone
    errMulti := false
    crkCfg := 0x00000000#32
    camCfg := 0x00000000#32
    tdcCfg := 0x00000000#32
    camEdge := Vector.replicate 20 0x0000FFFF#32
    cursor := 0#13
    camLvl := .low
    camIdx := 0#5
    crkLvl := .low
    tdcK := 0#3
    pmem := []
    agenda := []
    hostRead := none
    streamOut := none }

/-- The machine right after reset, with the reference parameters (log entries 1 to 3). -/
def State.reset : State := State.resetOf Params.reference

end Sys2Proof.Machine
end

