-- ==== Sys2Proof/Machine/Flags.lean ====
section
/-! DEFINITION. Flags.lean: the STATUS register (`10_state.md` R35), the only flags of the block (R55). -/

namespace Sys2Proof.Machine

/-- The 4-bit code of an error (`30_encoding.md` R95). -/
def Err.code : Err → BitVec 4
  | .eNone => 0x0#4
  | .invalidCylinderCount => 0x1#4
  | .tdcOutOfRange => 0x2#4
  | .unsupportedCamEdgeCount => 0x3#4
  | .nonMonotonicCamEdges => 0x4#4
  | .invalidCrankWheel => 0x5#4
  | .invalidCamEdge => 0x6#4
  | .configNotValidated => 0x7#4
  | .busy => 0x8#4
  | .addressOutOfRange => 0x9#4
  | .invalidCylinderIndex => 0xA#4
  | .illegalCommand => 0xB#4
  | .illegalAccess => 0xC#4

/-- The 2-bit code of PHASE (`10_state.md` R36). -/
def phaseCode : Phase → BitVec 2
  | .idle => 0#2
  | .main => 1#2
  | .tdc => 2#2

/-- STATUS.BUSY: 1 when PHASE is MAIN or TDC, 0 when it is IDLE (`10_state.md` R35). -/
def State.busy (s : State) : Bool :=
  match s.phase with
  | .idle => false
  | .main => true
  | .tdc => true

/-- The STATUS register as a HOST reads it: `{22'b0, PHASE[1:0], ERR[3:0], ERR_MULTI, CFG_VALID, DONE, BUSY}`
(`45_config_control.md` R222). -/
def State.status (s : State) : Word :=
  0#22 ++ phaseCode s.phase ++ s.err.code ++ BitVec.ofBool s.errMulti ++ BitVec.ofBool s.cfgValid ++ BitVec.ofBool s.done ++
    BitVec.ofBool s.busy

/-- The record of an error in STATUS (`60_exceptions.md` R262): the first error is kept, a later one only sets ERR_MULTI. -/
def State.recordError (e : Err) (s : State) : State :=
  { s with
    err := if s.err = .eNone then e else s.err
    errMulti := if s.err = .eNone then s.errMulti else true }

/-- The error record cleared (`45_config_control.md` R241). -/
def State.clearError (s : State) : State := { s with err := .eNone, errMulti := false }

end Sys2Proof.Machine
end

