-- ==== Sys2Proof/Machine/Operands.lean ====
section
/-! DEFINITION. Operands.lean: the fields of the configuration registers, the quantities derived from them, and the bit positions of an
element (`10_state.md` R37 to R51, `20_memory.md` R61). -/

namespace Sys2Proof.Machine

/-! ### Bit positions of an element (`20_memory.md` R61) -/

/-- CAM is bit 0. -/
def camBit : Nat := 0
/-- CRK is bit 1. -/
def crkBit : Nat := 1
/-- The TDC marker of cylinder `k` is bit 2 + k. -/
def tdcBit (k : Nat) : Nat := 2 + k

/-! ### Fields of the configuration registers -/

/-- CRK_CFG.TOOTH_COUNT, bits 7:0 (`10_state.md` R37). -/
def State.toothCount (s : State) : Nat := (s.crkCfg.extractLsb' 0 8).toNat
/-- CRK_CFG.MISSING_COUNT, bits 9:8. -/
def State.missingCount (s : State) : Nat := (s.crkCfg.extractLsb' 8 2).toNat
/-- CRK_CFG.GAP_INV, bit 16. -/
def State.gapInv (s : State) : Bool := s.crkCfg.getLsbD 16
/-- CAM_CFG.FIRST_LEVEL, bit 0 (R38). -/
def State.firstLevel (s : State) : Level := Level.ofBool (s.camCfg.getLsbD 0)
/-- TDC_CFG.REF_TO_TDC0, bits 15:0 (R39). -/
def State.refToTdc0 (s : State) : Nat := (s.tdcCfg.extractLsb' 0 16).toNat
/-- TDC_CFG.CYL_COUNT, bits 23:16. -/
def State.cylCount (s : State) : Nat := (s.tdcCfg.extractLsb' 16 8).toNat

/-- The register of slot `k`; a slot from 20 up has no storage and reads as 0x0000FFFF (R40, `45_config_control.md` R222). -/
def State.camSlot (s : State) (k : Nat) : Word := s.camEdge[k]?.getD 0x0000FFFF#32
/-- EDGE, bits 15:0 of a CAM_EDGE register (R40). -/
def edgeField (w : Word) : Nat := (w.extractLsb' 0 16).toNat
/-- CAM_EDGE[k].EDGE. -/
def State.edge (s : State) (k : Nat) : Nat := edgeField (s.camSlot k)
/-- The EDGE fields of slots 0 to 19, in order. -/
def State.edges (s : State) : List Nat := s.camEdge.toList.map edgeField

/-- The write masks of the configuration registers (`45_config_control.md` R223). -/
def crkCfgMask : Word := 0x000103FF#32
def camCfgMask : Word := 0x00000001#32
def tdcCfgMask : Word := 0x00FFFFFF#32
def camEdgeMask : Word := 0x0000FFFF#32

/-- INFO: `{0x1C20, 8'b0, W[7:0]}` (`10_state.md` R41, `45_config_control.md` R222). -/
def State.info (s : State) : Word := BitVec.ofNat 16 elementCount ++ 0#8 ++ BitVec.ofNat 8 s.params.width.bits

/-! ### Derived quantities (`10_state.md` R48 to R51), which are not state -/

/-- `crk_first`: High when GAP_INV = 0, Low when GAP_INV = 1 (R48). -/
def State.crkFirst (s : State) : Level := if s.gapInv then .low else .high
/-- `gap_level` = not `crk_first` (R48). -/
def State.gapLevel (s : State) : Level := s.crkFirst.not
/-- A legal wheel: T in {30, 60, 120}, M in {1, 2} (R49). -/
def State.wheelLegal (s : State) : Bool :=
  (s.toothCount == 30 || s.toothCount == 60 || s.toothCount == 120) && (s.missingCount == 1 || s.missingCount == 2)
/-- `tooth_angle` = 3600 div T (R49). -/
def State.toothAngle (s : State) : Nat := revolution / s.toothCount
/-- `half_tooth` = `tooth_angle` div 2 (R49). -/
def State.halfTooth (s : State) : Nat := s.toothAngle / 2
/-- `gap_span` = M * `tooth_angle` (R49). -/
def State.gapSpan (s : State) : Nat := s.missingCount * s.toothAngle
/-- `gap_start` = 3600 - `gap_span` (R49). -/
def State.gapStart (s : State) : Nat := revolution - s.gapSpan
/-- `interval` = 7200 div n (R50). -/
def State.interval (s : State) : Nat := elementCount / s.cylCount
/-- `pos(k)` = (ref + k * interval) mod 7200 (`43_tdc.md` R181). -/
def State.tdcPos (s : State) (k : Nat) : Nat := (s.refToTdc0 + k * s.interval) % elementCount
/-- The entries of a list of edges before the first sentinel. -/
def usedPrefix (edges : List Nat) : List Nat := edges.takeWhile fun e => e != camSentinel
/-- `u`, the number of used cam edges: the least slot that holds the sentinel, or 20 (R51). -/
def State.usedEdges (s : State) : Nat := (usedPrefix s.edges).length

end Sys2Proof.Machine
end

