-- ==== Sys2Proof/Machine/Ops.lean ====
section
/-! DEFINITION. Ops.lean: the named operations over PMEM and the registers that the instructions share (`00_scope.md` R16), and the raising
of an error (`60_exceptions.md` R262), which is what this block has in place of a trap. -/

namespace Sys2Proof.Machine

/-! ### Elements (`20_memory.md` R61 to R64) -/

/-- Bit `b` of an element: none when it is undefined. -/
def Elem.bit (e : Elem) (b : Nat) : Option Level :=
  if e.defined.getLsbD b then some (Level.ofBool (e.value.getLsbD b)) else none

/-- Bit `b` made defined with value `x`, by the source's mask operations: `value |= mask` for High, `value &= !mask` for Low
(`40_bitfield.md` R112, R129). -/
def Elem.setBit (e : Elem) (b : Nat) (x : Level) : Elem :=
  { defined := e.defined ||| (1#32 <<< b)
    value :=
      match x with
      | .high => e.value ||| (1#32 <<< b)
      | .low => e.value &&& ~~~(1#32 <<< b) }

/-- The element all of whose W bits are defined, with the low W bits of `v` (`20_memory.md` R64, `40_bitfield.md` R126). -/
def Elem.ofWord (w : Width) (v : Word) : Elem := { defined := w.mask, value := v &&& w.mask }

/-- The lowest of the first `n` bits that is undefined. -/
def Elem.firstUndefined (e : Elem) (n : Nat) : Option Nat := (List.range n).find? fun b => !e.defined.getLsbD b

/-! ### PMEM as a list -/

/-- The element at an index; an unlisted one is undefined. -/
def Memory.lookup : Memory → Nat → Elem
  | [], _ => Elem.undefined
  | (j, e) :: m, i => if j = i then e else Memory.lookup m i

/-- The list with the element at `i` put in its place. -/
def Memory.insert (i : Nat) (e : Elem) : Memory → Memory
  | [] => [(i, e)]
  | (j, f) :: m => if i < j then (i, e) :: (j, f) :: m else if i = j then (i, e) :: m else (j, f) :: Memory.insert i e m

/-- The list without the element at `i`. -/
def Memory.erase (i : Nat) (m : Memory) : Memory := m.filter fun p => p.1 != i

/-- The element at `i` becomes `e`; an undefined element is not listed. -/
def Memory.put (i : Nat) (e : Elem) (m : Memory) : Memory :=
  if e = Elem.undefined then Memory.erase i m else Memory.insert i e m

/-! ### The primitives of `00_scope.md` R16 over PMEM -/

/-- Element `i` of PMEM. -/
def State.elem (s : State) (i : Nat) : Elem := Memory.lookup s.pmem i

/-- Bit `b` of element `i`: none when it is undefined. This is the model's read of one bit, for statements. -/
def State.bit (s : State) (i b : Nat) : Option Level := (s.elem i).bit b

/-- `MemReadBit(i, b)` (`20_memory.md` R64). -/
def State.memReadBit (s : State) (i b : Nat) : Except Fault Level :=
  if i ≥ elementCount then .error (.noSuchElement i)
  else if b ≥ s.params.width.bits then .error (.noSuchBit i b)
  else
    match s.bit i b with
    | some x => .ok x
    | none => .error (.undefinedRead i b)

/-- `MemRead(i, W)`, zero-extended (`20_memory.md` R63, R64); an undefined bit stops it, the lowest one named. -/
def State.memRead (s : State) (i : Nat) : Except Fault Word :=
  if i ≥ elementCount then .error (.noSuchElement i)
  else
    match (s.elem i).firstUndefined s.params.width.bits with
    | some b => .error (.undefinedRead i b)
    | none => .ok ((s.elem i).value &&& s.params.width.mask)

/-- The state with element `i` replaced. -/
def State.setElem (s : State) (i : Nat) (e : Elem) : State := { s with pmem := Memory.put i e s.pmem }

/-- `MemWriteBit(i, b, x)` (`20_memory.md` R64). -/
def State.memWriteBit (s : State) (i b : Nat) (x : Level) : Except Fault State :=
  if i ≥ elementCount then .error (.noSuchElement i)
  else if b ≥ s.params.width.bits then .error (.noSuchBit i b)
  else .ok (s.setElem i ((s.elem i).setBit b x))

/-- `MemWrite(i, W, v)` (`20_memory.md` R64). -/
def State.memWrite (s : State) (i : Nat) (v : Word) : Except Fault State :=
  if i ≥ elementCount then .error (.noSuchElement i)
  else .ok (s.setElem i (Elem.ofWord s.params.width v))

/-! ### Registers and interface outputs -/

/-- RESULT <- v (`10_state.md` R34). -/
def State.setResult (s : State) (v : Word) : State := { s with result := v }

/-- DATA <- v (`10_state.md` R33). -/
def State.setData (s : State) (v : Word) : State := { s with data := v }

/-- A register read returns `v` to the HOST (`45_config_control.md` R222, log entry 9). -/
def State.returnToHost (s : State) (v : Word) : State := { s with hostRead := some v }

/-- A stream-port read drives `v` on the output lines (`45_config_control.md` R245, log entry 9). -/
def State.driveStream (s : State) (v : Word) : State := { s with streamOut := some v }

/-- The end of an accepted configuration write: CFG_VALID <- 0 (`45_config_control.md` R226). -/
def State.invalidate (s : State) : State := { s with cfgValid := false }

/-! ### Ending a transaction -/

/-- `raise E` (`60_exceptions.md` R262): the error is recorded and the transaction ends with no other effect. The return from it is
CLR_ERR (`State.clearError`). -/
def raise (e : Err) (s : State) : Result := .next (s.recordError e)

/-- A register read that raises E_ILLEGAL_ACCESS returns 0x00000000 (`45_config_control.md` R220, `60_exceptions.md` R263). -/
def raiseAccess (acc : Access) (s : State) : Result :=
  match acc with
  | .read => .next ((s.recordError .illegalAccess).returnToHost 0x00000000#32)
  | .write _ => raise .illegalAccess s

/-- The end of a PMEM write. -/
def finish (r : Except Fault State) : Result :=
  match r with
  | .ok t => .next t
  | .error f => .fault f

/-! ### The checks that commands share (`60_exceptions.md` R264) -/

/-- A command or configuration write that is rejected with E_BUSY while BUSY = 1 (`60_exceptions.md` R266). -/
def whenIdle (s : State) (k : Result) : Result := if s.busy then raise .busy s else k

/-- The checks of every element command (`40_bitfield.md` R110). -/
def withElement (addr : BitVec 13) (s : State) (k : Result) : Result :=
  whenIdle s (if addr.toNat ≥ elementCount then raise .addressOutOfRange s else k)

/-- The checks of SET_TDC and GET_TDC (`40_bitfield.md` R110, R111). -/
def withCylinder (addr : BitVec 13) (cyl : BitVec 3) (s : State) (k : Result) : Result :=
  withElement addr s (if cyl.toNat ≥ tdcBits then raise .invalidCylinderIndex s else k)

/-- RESULT <- `zext_32(bit)` (`40_bitfield.md` R114): 1 for High, 0 for Low. -/
def levelWord (x : Level) : Word := BitVec.setWidth 32 (BitVec.ofBool x.toBool)

/-- RESULT <- `zext_32(MemReadBit(i, b))` (`40_bitfield.md` R114, R118, R122). -/
def getBit (i b : Nat) (s : State) : Result :=
  match s.memReadBit i b with
  | .ok x => .next (s.setResult (levelWord x))
  | .error f => .fault f

/-- An access to a register of the configuration (`45_config_control.md` R223): E_BUSY, then the reserved bits (R228), then the store and
CFG_VALID <- 0 (R226). `stored` is the state with the register written. -/
def writeConfig (mask v : Word) (s stored : State) : Result :=
  whenIdle s (if v &&& ~~~mask ≠ 0#32 then raise .illegalAccess s else .next stored.invalidate)

/-- A write to CAM_EDGE[k], k < 20 (`45_config_control.md` R223). -/
def writeCamSlot (k : Nat) (v : Word) (s : State) : Result :=
  writeConfig camEdgeMask v s { s with camEdge := s.camEdge.setIfInBounds k v }

/-- A write to a CAM_EDGE slot from 20 to 31 (`45_config_control.md` R227), E_BUSY first (R223). -/
def writeAbsentSlot (s : State) : Result := whenIdle s (raise .unsupportedCamEdgeCount s)

/-- The RESET agent's step (`70_reset_and_hazards.md` R290): every piece of state at its reset value, the parameters unchanged. The agenda
is the environment's, not the block's, and stays (log entry 18). -/
def State.applyReset (s : State) : State := { State.resetOf s.params with agenda := s.agenda }

end Sys2Proof.Machine
end

