-- ==== Sys2Proof/Machine/BitField.lean ====
section
/-! DEFINITION. BitField.lean: the bit-field writer and element access (`40_bitfield.md`). -/

namespace Sys2Proof.Machine

/-- SET_CAM (`40_bitfield.md` R112). -/
def execSetCam (addr : BitVec 13) (lvl : Level) (s : State) : Result :=
  withElement addr s (finish (s.memWriteBit addr.toNat camBit lvl))

/-- GET_CAM (R114). -/
def execGetCam (addr : BitVec 13) (s : State) : Result := withElement addr s (getBit addr.toNat camBit s)

/-- SET_CRK (R116). -/
def execSetCrk (addr : BitVec 13) (lvl : Level) (s : State) : Result :=
  withElement addr s (finish (s.memWriteBit addr.toNat crkBit lvl))

/-- GET_CRK (R118). -/
def execGetCrk (addr : BitVec 13) (s : State) : Result := withElement addr s (getBit addr.toNat crkBit s)

/-- SET_TDC (R120). -/
def execSetTdc (addr : BitVec 13) (cyl : BitVec 3) (lvl : Level) (s : State) : Result :=
  withCylinder addr cyl s (finish (s.memWriteBit addr.toNat (tdcBit cyl.toNat) lvl))

/-- GET_TDC (R122). -/
def execGetTdc (addr : BitVec 13) (cyl : BitVec 3) (s : State) : Result :=
  withCylinder addr cyl s (getBit addr.toNat (tdcBit cyl.toNat) s)

/-- RD_WORD (R124). -/
def execRdWord (addr : BitVec 13) (s : State) : Result :=
  withElement addr s
    (match s.memRead addr.toNat with
    | .ok v => .next (s.setResult v)
    | .error f => .fault f)

/-- WR_WORD (R126). -/
def execWrWord (addr : BitVec 13) (s : State) : Result := withElement addr s (finish (s.memWrite addr.toNat s.data))

end Sys2Proof.Machine
end

