-- ==== Sys2Proof/Machine/Control.lean ====
section
/-! DEFINITION. Control.lean: VALIDATE, GENERATE, NOP, CLR_ERR and the words that spell no command (`45_config_control.md` §3 and §4,
`44_generate.md` §1, `30_encoding.md` R84 and R85). -/

namespace Sys2Proof.Machine

/-- NOP (`45_config_control.md` R240): no effect in any state. -/
def execNop (s : State) : Result := .next s

/-- CLR_ERR (`45_config_control.md` R241). -/
def execClrErr (s : State) : Result := .next s.clearError

/-- A word that spells no command (`30_encoding.md` R84, R85), whatever the phase (`60_exceptions.md` R264). -/
def execReservedOpc (s : State) : Result := raise .illegalCommand s

/-! ### VALIDATE (`45_config_control.md` R230) -/

/-- The check of the used cam entries, in slot order (R233); `prev` is the used entry before, none at slot 0. -/
def camListError (prev : Option Nat) : List Nat → Option Err
  | [] => none
  | e :: es =>
    if e = camSentinel then none
    else if e ≥ elementCount then some .invalidCamEdge
    else if prev.any fun p => decide (e ≤ p) then some .nonMonotonicCamEdges
    else camListError (some e) es

/-- R230's loop over k: a computed position that is not below 7200, which is never true (R232). -/
def State.tdcPositionOut (s : State) : Bool := (List.range s.cylCount).any fun k => decide (s.tdcPos k ≥ elementCount)

/-- The first check that fails, in R230's order; none for a legal configuration. -/
def State.validateError (s : State) : Option Err :=
  if !s.params.supportedCyl.contains s.cylCount || elementCount % s.cylCount != 0 then some .invalidCylinderCount
  else if s.refToTdc0 ≥ elementCount then some .tdcOutOfRange
  else if s.tdcPositionOut then some .tdcOutOfRange
  else
    match camListError none s.edges with
    | some e => some e
    | none => if s.wheelLegal then none else some .invalidCrankWheel

/-- VALIDATE (R230). -/
def execValidate (s : State) : Result :=
  whenIdle s
    (match s.validateError with
    | some e => raise e s
    | none => .next { s with cfgValid := true })

/-! ### GENERATE (`44_generate.md` R200, R201) -/

/-- GENERATE_ACCEPT (R201): both trackers and the passes initialised in one step; nothing is written to PMEM. -/
def State.generateAccept (s : State) : State :=
  { s with
    done := false
    cursor := 0#13
    camLvl := s.firstLevel
    camIdx := 0#5
    crkLvl := s.crkFirst
    tdcK := 0#3
    phase := .main }

/-- GENERATE (R200). -/
def execGenerate (s : State) : Result :=
  whenIdle s (if s.cfgValid then .next s.generateAccept else raise .configNotValidated s)

end Sys2Proof.Machine
end

