-- ==== Sys2Proof/Machine/Command.lean ====
section
/-! DEFINITION. Command.lean: a write to CMD, which issues one command (`10_state.md` R42, `30_encoding.md` R86). -/

namespace Sys2Proof.Machine

/-- "execute row.mnemonic with ADDR, CYL, LVL" (`30_encoding.md` R86). -/
def issue (op : Opcode) (addr : BitVec 13) (cyl : BitVec 3) (lvl : Level) (s : State) : Result :=
  match op with
  | .nop => execNop s
  | .setCam => execSetCam addr lvl s
  | .getCam => execGetCam addr s
  | .setCrk => execSetCrk addr lvl s
  | .getCrk => execGetCrk addr s
  | .setTdc => execSetTdc addr cyl lvl s
  | .getTdc => execGetTdc addr cyl s
  | .rdWord => execRdWord addr s
  | .wrWord => execWrWord addr s
  | .validate => execValidate s
  | .generate => execGenerate s
  | .clrErr => execClrErr s

/-- WRITE CMD (`45_config_control.md` R223, `30_encoding.md` R86). -/
def execWriteCmd (v : Word) (s : State) : Result :=
  match commandOf v with
  | some op => issue op (addrField v) (cylField v) (lvlField v) s
  | none => raise .illegalCommand s

end Sys2Proof.Machine
end

