-- ==== Sys2Proof/Machine/Engine.lean ====
section
/-! DEFINITION. Engine.lean: the ENGINE's steps (`44_generate.md` R202, `43_tdc.md` R186) with the cam and crank transitions
(`42_cam.md` R161, `41_crank.md` R142). -/

namespace Sys2Proof.Machine

/-- CAM_ADVANCE(a) (`42_cam.md` R161). -/
def camAdvance (a : Nat) (s : State) : State :=
  if s.camIdx.toNat < camSlots ∧ s.edge s.camIdx.toNat = a then
    { s with camLvl := s.camLvl.not, camIdx := s.camIdx + 1#5 }
  else s

/-- The crank level after the transition at angle `a` (`41_crank.md` R142): set, not toggled, in the gap window. -/
def crankNext (a h g : Nat) (first lvl : Level) : Level :=
  if a ≠ 0 ∧ a % h = 0 then
    if a % revolution ≥ revolution - g then first.not else lvl.not
  else lvl

/-- CRANK_ADVANCE(a) (`41_crank.md` R142). -/
def crankAdvance (a : Nat) (s : State) : State :=
  { s with crkLvl := crankNext a s.halfTooth s.gapSpan s.crkFirst s.crkLvl }

/-- The end of a main step: after angle 7199 the TDC pass begins, with CURSOR left at 7199 (`44_generate.md` R202, R205). -/
def advanceCursor (s : State) : State :=
  if s.cursor.toNat = 7199 then { s with phase := .tdc } else { s with cursor := s.cursor + 1#13 }

/-- The two bit writes of a main step: the cam bit, then the crank bit of element `a` (`44_generate.md` R202). -/
def writeSignals (a : Nat) (s : State) : Except Fault State :=
  match s.memWriteBit a camBit s.camLvl with
  | .ok t => t.memWriteBit a crkBit s.crkLvl
  | .error f => .error f

/-- MAIN_STEP (`44_generate.md` R202), enabled iff PHASE = MAIN: both writes come before both transitions (R203). -/
def execMainStep (s : State) : Result :=
  if s.phase ≠ .main then .fault .engineStepNotEnabled
  else if !s.wheelLegal then .fault .engineConfigNotLegal
  else
    match writeSignals s.cursor.toNat s with
    | .ok t => .next (advanceCursor (crankAdvance s.cursor.toNat (camAdvance s.cursor.toNat t)))
    | .error f => .fault f

/-- The end of a TDC step: TDC_K <- k + 1, and after the last cylinder PHASE <- IDLE and DONE <- 1 (`43_tdc.md` R186, R187). -/
def advanceTdc (s : State) : State :=
  if s.tdcK.toNat + 1 = s.cylCount then { s with tdcK := s.tdcK + 1#3, phase := .idle, done := true }
  else { s with tdcK := s.tdcK + 1#3 }

/-- TDC_STEP (`43_tdc.md` R186), enabled iff PHASE = TDC. -/
def execTdcStep (s : State) : Result :=
  if s.phase ≠ .tdc then .fault .engineStepNotEnabled
  else if !(decide (s.tdcK.toNat < s.cylCount ∧ s.cylCount ≤ tdcBits)) then .fault .engineConfigNotLegal
  else
    match s.memWriteBit (s.tdcPos s.tdcK.toNat) (tdcBit s.tdcK.toNat) .high with
    | .ok t => .next (advanceTdc t)
    | .error f => .fault f

end Sys2Proof.Machine
end

