-- ==== Sys2Proof/Machine/Registers.lean ====
section
/-! DEFINITION. Registers.lean: the HOST's register reads and writes, but for a write to CMD (`45_config_control.md` §1 and §2). A read is
accepted in every state (R221). -/

namespace Sys2Proof.Machine

/-! ### Reads (R222) -/

/-- READ CMD returns 0 and has no effect (`10_state.md` R42). -/
def execReadCmd (s : State) : Result := .next (s.returnToHost 0x00000000#32)
def execReadData (s : State) : Result := .next (s.returnToHost s.data)
def execReadResult (s : State) : Result := .next (s.returnToHost s.result)
def execReadStatus (s : State) : Result := .next (s.returnToHost s.status)
def execReadCrkCfg (s : State) : Result := .next (s.returnToHost s.crkCfg)
def execReadCamCfg (s : State) : Result := .next (s.returnToHost s.camCfg)
def execReadTdcCfg (s : State) : Result := .next (s.returnToHost s.tdcCfg)
def execReadInfo (s : State) : Result := .next (s.returnToHost s.info)
/-- READ CAM_EDGE[0..15], at 0x40 + 4 * k. -/
def execReadCamEdge0 (k : BitVec 4) (s : State) : Result := .next (s.returnToHost (s.camSlot k.toNat))
/-- READ CAM_EDGE[16..19], at 0x80 + 4 * k. -/
def execReadCamEdge16 (k : BitVec 2) (s : State) : Result := .next (s.returnToHost (s.camSlot (16 + k.toNat)))
/-- READ CAM_EDGE[20..23], absent slots, returns 0x0000FFFF. -/
def execReadCamEdge20 (s : State) : Result := .next (s.returnToHost 0x0000FFFF#32)
/-- READ CAM_EDGE[24..31], absent slots, returns 0x0000FFFF. -/
def execReadCamEdge24 (s : State) : Result := .next (s.returnToHost 0x0000FFFF#32)

/-! ### Writes (R223) -/

/-- WRITE DATA stores in every state (R229). -/
def execWriteData (v : Word) (s : State) : Result := .next (s.setData v)
/-- RESULT, STATUS and INFO are read-only (R224). -/
def execWriteResult (s : State) : Result := raise .illegalAccess s
def execWriteStatus (s : State) : Result := raise .illegalAccess s
def execWriteInfo (s : State) : Result := raise .illegalAccess s
def execWriteCrkCfg (v : Word) (s : State) : Result := writeConfig crkCfgMask v s { s with crkCfg := v }
def execWriteCamCfg (v : Word) (s : State) : Result := writeConfig camCfgMask v s { s with camCfg := v }
def execWriteTdcCfg (v : Word) (s : State) : Result := writeConfig tdcCfgMask v s { s with tdcCfg := v }
/-- WRITE CAM_EDGE[0..15]. -/
def execWriteCamEdge0 (k : BitVec 4) (v : Word) (s : State) : Result := writeCamSlot k.toNat v s
/-- WRITE CAM_EDGE[16..19]. -/
def execWriteCamEdge16 (k : BitVec 2) (v : Word) (s : State) : Result := writeCamSlot (16 + k.toNat) v s
/-- WRITE CAM_EDGE[20..23], absent slots (R227). -/
def execWriteCamEdge20 (s : State) : Result := writeAbsentSlot s
/-- WRITE CAM_EDGE[24..31], absent slots (R227). -/
def execWriteCamEdge24 (s : State) : Result := writeAbsentSlot s

/-! ### Accesses that raise E_ILLEGAL_ACCESS (R220) -/

/-- An access to 0x20 to 0x3C, unmapped. -/
def execUnmapped20 (acc : Access) (s : State) : Result := raiseAccess acc s
/-- An access to 0xC0 to 0xFC, unmapped. -/
def execUnmappedC0 (acc : Access) (s : State) : Result := raiseAccess acc s
/-- A misaligned or narrow access. -/
def execMisaligned (acc : Access) (s : State) : Result := raiseAccess acc s

end Sys2Proof.Machine
end

