-- ==== Sys2Proof/Machine/Stream.lean ====
section
/-! DEFINITION. Stream.lean: the stream port (`45_config_control.md` §5). -/

namespace Sys2Proof.Machine

/-- STREAM_RD (R245): the element on the output lines, in every phase, no effect on any state. An index of 7200 or more has no step (R246,
log entry 10). -/
def execStreamRd (i : Nat) (s : State) : Result :=
  if i ≥ elementCount then .fault (.streamIndexOutOfContract i)
  else
    match s.memRead i with
    | .ok v => .next (s.driveStream v)
    | .error f => .fault f

end Sys2Proof.Machine
end

