-- ==== Sys2Proof/Machine/Dispatch.lean ====
section
/-! DEFINITION. Dispatch.lean: one arm per instruction. -/

namespace Sys2Proof.Machine

def exec (i : Instr) (s : State) : Host.Outcome State Fault Refusal :=
  match i with
  | .nop => Sys2Proof.Machine.execNop s
  | .setCam addr lvl => Sys2Proof.Machine.execSetCam addr lvl s
  | .getCam addr => Sys2Proof.Machine.execGetCam addr s
  | .setCrk addr lvl => Sys2Proof.Machine.execSetCrk addr lvl s
  | .getCrk addr => Sys2Proof.Machine.execGetCrk addr s
  | .setTdc addr cyl lvl => Sys2Proof.Machine.execSetTdc addr cyl lvl s
  | .getTdc addr cyl => Sys2Proof.Machine.execGetTdc addr cyl s
  | .rdWord addr => Sys2Proof.Machine.execRdWord addr s
  | .wrWord addr => Sys2Proof.Machine.execWrWord addr s
  | .validate => Sys2Proof.Machine.execValidate s
  | .generate => Sys2Proof.Machine.execGenerate s
  | .clrErr => Sys2Proof.Machine.execClrErr s
  | .reservedOpc _ => Sys2Proof.Machine.execReservedOpc s
  | .readCmd => Sys2Proof.Machine.execReadCmd s
  | .writeCmd v => Sys2Proof.Machine.execWriteCmd v s
  | .readData => Sys2Proof.Machine.execReadData s
  | .writeData v => Sys2Proof.Machine.execWriteData v s
  | .readResult => Sys2Proof.Machine.execReadResult s
  | .writeResult _ => Sys2Proof.Machine.execWriteResult s
  | .readStatus => Sys2Proof.Machine.execReadStatus s
  | .writeStatus _ => Sys2Proof.Machine.execWriteStatus s
  | .readCrkCfg => Sys2Proof.Machine.execReadCrkCfg s
  | .writeCrkCfg v => Sys2Proof.Machine.execWriteCrkCfg v s
  | .readCamCfg => Sys2Proof.Machine.execReadCamCfg s
  | .writeCamCfg v => Sys2Proof.Machine.execWriteCamCfg v s
  | .readTdcCfg => Sys2Proof.Machine.execReadTdcCfg s
  | .writeTdcCfg v => Sys2Proof.Machine.execWriteTdcCfg v s
  | .readInfo => Sys2Proof.Machine.execReadInfo s
  | .writeInfo _ => Sys2Proof.Machine.execWriteInfo s
  | .readCamEdge0 k => Sys2Proof.Machine.execReadCamEdge0 k s
  | .writeCamEdge0 k v => Sys2Proof.Machine.execWriteCamEdge0 k v s
  | .readCamEdge16 k => Sys2Proof.Machine.execReadCamEdge16 k s
  | .writeCamEdge16 k v => Sys2Proof.Machine.execWriteCamEdge16 k v s
  | .readCamEdge20 _ => Sys2Proof.Machine.execReadCamEdge20 s
  | .writeCamEdge20 _ _ => Sys2Proof.Machine.execWriteCamEdge20 s
  | .readCamEdge24 _ => Sys2Proof.Machine.execReadCamEdge24 s
  | .writeCamEdge24 _ _ => Sys2Proof.Machine.execWriteCamEdge24 s
  | .unmapped20 acc _ => Sys2Proof.Machine.execUnmapped20 acc s
  | .unmappedC0 acc _ => Sys2Proof.Machine.execUnmappedC0 acc s
  | .misaligned acc _ _ => Sys2Proof.Machine.execMisaligned acc s
  | .streamRd n => Sys2Proof.Machine.execStreamRd n s
  | .mainStep => Sys2Proof.Machine.execMainStep s
  | .tdcStep => Sys2Proof.Machine.execTdcStep s

end Sys2Proof.Machine
end

