-- ==== Sys2Proof/Machine/Fetch.lean ====
section
/-! DEFINITION. Fetch.lean: which agent moves next and what its turn is (`00_scope.md` R6, `20_memory.md` R73). The block has no program
counter and no instruction fetch (`00_scope.md` R17): the agenda stands for its environment (log entries 6 to 8). -/

namespace Sys2Proof.Machine

/-- The next turn and the state it is taken in. When the agenda is empty the turn is the ENGINE's: a step that stays enabled is taken
(`44_generate.md` R206, log entry 7). -/
def nextTurn (s : State) : Turn × State :=
  match s.agenda with
  | [] => (.engine, s)
  | t :: rest => (t, { s with agenda := rest })

/-- A bus address in the block's 256-byte window; the block decodes only the offset (`00_scope.md` R11, `20_memory.md` R71). -/
def inWindow (base addr : Nat) : Bool := decide (base ≤ addr ∧ addr < base + windowBytes)

/-- The transaction of a turn. A bus address outside the window belongs to the platform (`20_memory.md` R71), and reset is no
transaction. -/
def turnWire (t : Turn) (s : State) : Option Wire :=
  match t with
  | .cmd w => some (.cmd w)
  | .bus acc size addr =>
    if inWindow s.params.base addr then some (.reg acc size (BitVec.ofNat 8 (addr - s.params.base))) else none
  | .stream i => some (.port i)
  | .engine => some (.engine s.phase)
  | .reset => none

/-- The instruction of a turn; none where the turn's agent has no step in the block (log entry 8). -/
def turnInstr (t : Turn) (s : State) : Option Instr :=
  match turnWire t s with
  | none => none
  | some wire =>
    match decode wire with
    | .ok i => some i
    | .error _ => none

/-- The turn that presents the transaction of the table's bits to a block whose window is at `base`. -/
def turnOfBits (base nbits w : Nat) : Option Turn :=
  match wireOfBits nbits w with
  | some (.cmd w) => some (.cmd w)
  | some (.reg acc size off) => some (.bus acc size (base + off.toNat))
  | some (.port i) => some (.stream i)
  | some (.engine _) => some .engine
  | none => none

end Sys2Proof.Machine
end

