-- ==== Sys2Proof/Machine/Step.lean ====
section
/-! DEFINITION. Step.lean: one step of the block: the next turn of the agenda, decoded and run. -/

namespace Sys2Proof.Machine

/-- A turn taken. RESET sets every piece of state (`70_reset_and_hazards.md` R290). A turn whose agent has no step in the block passes
(log entry 8): in particular the block waits while PHASE = IDLE and nothing is on the agenda (`60_exceptions.md` R279). -/
def takeTurn (t : Turn) (s : State) : Host.Outcome State Fault Refusal :=
  match t with
  | .reset => .next s.applyReset
  | t =>
    match turnInstr t s with
    | some i => exec i s
    | none => .next s

/-- One step: one atomic step of one agent (`20_memory.md` R69). -/
def step (s : State) : Host.Outcome State Fault Refusal := takeTurn (nextTurn s).1 (nextTurn s).2

/-- `s` with the transaction of the table's bits as the very next turn; nothing else changes (log entry 6). -/
def State.withFetchWord (s : State) (nbits w : Nat) : State :=
  match turnOfBits s.params.base nbits w with
  | some t => { s with agenda := t :: s.agenda }
  | none => s

end Sys2Proof.Machine
end

