-- ==== Sys2Proof/Safety.lean ====
section
/-! DEFINITION. Safety.lean: what claims are stated in: the validated configuration, the invariant of the block, and the closed forms of the
generated pattern, and the duties of the environment. -/

namespace Sys2Proof.Machine

/-! ### The validated configuration (`45_config_control.md` R236) -/

/-- The cylinder count is in SUPPORTED_CYL and divides 7200 (R231). -/
abbrev State.CylLegal (s : State) : Prop := s.cylCount ∈ s.params.supportedCyl ∧ elementCount % s.cylCount = 0

/-- Used entry `k` is an angle, and greater than the used entry before it (R233). -/
abbrev State.EdgeLegal (s : State) (k : Nat) : Prop := s.edge k < elementCount ∧ (k = 0 ∨ s.edge (k - 1) < s.edge k)

/-- What VALIDATE asks of the configuration registers (R231 to R234). -/
abbrev State.ConfigLegal (s : State) : Prop :=
  s.CylLegal ∧ s.refToTdc0 < elementCount ∧ (∀ k, k < s.usedEdges → s.EdgeLegal k) ∧ s.wheelLegal = true

/-! ### The invariant -/

/-- The bits that read as zero do (`10_state.md` R37 to R40). -/
abbrev State.ReservedZero (s : State) : Prop :=
  s.crkCfg &&& ~~~crkCfgMask = 0#32 ∧ s.camCfg &&& ~~~camCfgMask = 0#32 ∧ s.tdcCfg &&& ~~~tdcCfgMask = 0#32 ∧
    ∀ k, k < camSlots → s.camSlot k &&& ~~~camEdgeMask = 0#32

/-- What the ENGINE registers hold while a generation is in progress (`10_state.md` R43 to R46, `43_tdc.md` R185). In PHASE = IDLE they
are free: no rule reads them before GENERATE writes them (`10_state.md` R47). -/
abbrev State.EngineInv (s : State) : Prop :=
  (s.phase = .main → s.cursor.toNat < elementCount ∧ s.camIdx.toNat ≤ s.usedEdges ∧ s.tdcK = 0#3) ∧
    (s.phase = .tdc → s.cursor.toNat = 7199 ∧ s.tdcK.toNat < s.cylCount)

/-- The invariant of the block: legal parameters, PMEM in its canonical form, reserved bits zero, CFG_VALID only on a legal configuration
(`45_config_control.md` R236), BUSY only with CFG_VALID (`44_generate.md` R200, R206), and the ENGINE registers in range. -/
abbrev State.Inv (s : State) : Prop :=
  s.params.wf = true ∧ Memory.wf s.params.width s.pmem = true ∧ s.ReservedZero ∧ (s.cfgValid = true → s.ConfigLegal) ∧
    (s.busy = true → s.cfgValid = true) ∧ s.EngineInv

/-! ### The generated pattern -/

/-- The number of used edges below `a`. -/
def State.edgesBelow (s : State) (a : Nat) : Nat := (List.range s.usedEdges).countP fun k => decide (s.edge k < a)

/-- `cam(a)` (`42_cam.md` R166). -/
def State.camAt (s : State) (a : Nat) : Level := if s.edgesBelow a % 2 = 1 then s.firstLevel.not else s.firstLevel

/-- `crank(a)` (`41_crank.md` R146). -/
def State.crankAt (s : State) (a : Nat) : Level :=
  if a = 0 then s.crkFirst
  else if (a - 1) % revolution ≥ s.gapStart then s.gapLevel
  else if ((a - 1) % revolution / s.halfTooth) % 2 = 1 then s.crkFirst.not
  else s.crkFirst

/-- The first `c` elements have the bits 0 and 1 of the generation, the first `k` cylinders their markers, and every other bit is what it
was in `g` (`20_memory.md` R73, `44_generate.md` R208). -/
def State.patternBit (g : State) (c k a b : Nat) : Option Level :=
  if b = camBit ∧ a < c then some (g.camAt a)
  else if b = crkBit ∧ a < c then some (g.crankAt a)
  else if 2 ≤ b ∧ b - 2 < k ∧ a = g.tdcPos (b - 2) then some .high
  else g.bit a b

/-- Every bit of PMEM is that of the partial pattern. -/
abbrev State.ShowsPattern (s g : State) (c k : Nat) : Prop :=
  ∀ a b, a < elementCount → b < s.params.width.bits → s.bit a b = g.patternBit c k a b

/-- The configuration and the parameters of `s` are those of `g`. -/
abbrev State.SameConfig (s g : State) : Prop :=
  s.params = g.params ∧ s.crkCfg = g.crkCfg ∧ s.camCfg = g.camCfg ∧ s.tdcCfg = g.tdcCfg ∧ s.camEdge = g.camEdge

/-- `s` is a state of the generation that `g` accepted (`20_memory.md` R73): the configuration is `g`'s, the trackers hold the levels of
the element to be written next, and PMEM shows the pattern so far. At the end (PHASE = IDLE) DONE is 1 and the pattern is whole. -/
def State.Generating (g s : State) : Prop :=
  s.SameConfig g ∧ s.cfgValid = true ∧
    match s.phase with
    | .main =>
      s.done = false ∧ s.cursor.toNat < elementCount ∧ s.tdcK = 0#3 ∧ s.camIdx.toNat = g.edgesBelow s.cursor.toNat ∧
        s.camLvl = g.camAt s.cursor.toNat ∧ s.crkLvl = g.crankAt s.cursor.toNat ∧ s.ShowsPattern g s.cursor.toNat 0
    | .tdc =>
      s.done = false ∧ s.cursor.toNat = 7199 ∧ s.camIdx.toNat = g.usedEdges ∧ s.tdcK.toNat < g.cylCount ∧
        s.ShowsPattern g elementCount s.tdcK.toNat
    | .idle =>
      s.done = true ∧ s.cursor.toNat = 7199 ∧ s.camIdx.toNat = g.usedEdges ∧ s.tdcK.toNat = g.cylCount ∧
        s.ShowsPattern g elementCount g.cylCount

/-! ### Vocabulary of claims -/

/-- `k` steps, stopping at the first fault or refusal. -/
def runFor : Nat → State → Result
  | 0, s => .next s
  | k + 1, s =>
    match step s with
    | .next t => runFor k t
    | .fault f => .fault f
    | .refused r => .refused r

/-- `t` is `s` but for one PMEM bit, which holds `x`: every other bit of PMEM, defined or not, and every other field of the state is
unchanged. -/
abbrev State.OnlyBitWritten (s t : State) (i b : Nat) (x : Level) : Prop :=
  t = { s with pmem := t.pmem } ∧ t.bit i b = some x ∧ ∀ j c, ¬(j = i ∧ c = b) → t.bit j c = s.bit j c

/-- What an instruction does: a write to CMD issues the command of its word (`10_state.md` R42); every other instruction is itself. -/
def issued (i : Instr) : Instr :=
  match i with
  | .writeCmd v => decodeCommand v
  | i => i

/-- The instructions that are not the ENGINE's: what HOST and STREAM do. -/
def notEngine (i : Instr) : Bool := i != .mainStep && i != .tdcStep

/-! ### Duties of the environment (`70_reset_and_hazards.md` R303, R306, log entry 20)

The block does not enforce them and `step` takes every turn, dutiful or not; a claim that needs them says so by `State.DutiesKept`. -/

/-- What HOST and the streamer must do: the last column of R306's table, and R303. The rows of a DATA write and of NOP and CLR_ERR ask for
nothing. -/
inductive Duty where
  /-- HOST reads registers with 32-bit aligned accesses. -/
  | alignedReads
  /-- HOST sends a VALIDATE between a configuration write and a GENERATE (R298), and before its first GENERATE (R294). -/
  | validateBeforeGenerate
  /-- HOST reads STATUS after a VALIDATE, before its next command. -/
  | readStatusAfterValidate
  /-- HOST reads STATUS, and so STATUS.ERR, between an element command that reads and a read of RESULT (R301). -/
  | checkErrorBeforeResult
  /-- After a GENERATE, HOST polls STATUS until a read of it shows BUSY = 0 (R299), and with it ERR (R300), before it sends anything that
  BUSY = 1 refuses. -/
  | pollUntilIdle
  /-- The streamer reads elements 0, 1, ..., 7199 and wraps to 0 (R303). -/
  | streamInOrder
  /-- The streamer starts only when PMEM is complete: STATUS has BUSY = 0 and DONE = 1 (R299, R303). A read before that is allowed by the
  block and returns partial contents. -/
  | streamStartsWhenComplete
  deriving DecidableEq, Repr

/-- What the environment has done so far, as far as the duties ask. It is no state of the block. -/
structure EnvView where
  /-- No VALIDATE was sent since the last reset or configuration write. -/
  unvalidated : Bool
  /-- A VALIDATE was sent, and STATUS was not read since. -/
  validateUnread : Bool
  /-- An element command that reads was sent, and STATUS was not read since. -/
  resultUnread : Bool
  /-- A GENERATE was sent, and no read of STATUS since has shown BUSY = 0. -/
  generateOpen : Bool
  /-- The element the streamer reads next; none before its first read. -/
  streamNext : Option Nat
  deriving DecidableEq, Repr

/-- Right after reset. -/
def EnvView.initial : EnvView :=
  { unvalidated := true, validateUnread := false, resultUnread := false, generateOpen := false, streamNext := none }

/-- PMEM is complete (`70_reset_and_hazards.md` R299). -/
abbrev State.Complete (s : State) : Prop := s.busy = false ∧ s.done = true

/-- A write to a configuration register, the cam slots without storage among them. -/
def writesConfig (i : Instr) : Bool :=
  match i with
  | .writeCrkCfg _ | .writeCamCfg _ | .writeTdcCfg _ | .writeCamEdge0 _ _ | .writeCamEdge16 _ _ | .writeCamEdge20 _ _
  | .writeCamEdge24 _ _ => true
  | _ => false

/-- An element command that reads. -/
def readsElement (i : Instr) : Bool :=
  match issued i with
  | .getCam _ | .getCrk _ | .getTdc _ _ | .rdWord _ => true
  | _ => false

/-- An element command that writes. -/
def writesElement (i : Instr) : Bool :=
  match issued i with
  | .setCam _ _ | .setCrk _ _ | .setTdc _ _ _ | .wrWord _ => true
  | _ => false

/-- What R306's table does not allow while BUSY = 1. -/
def needsIdle (i : Instr) : Bool :=
  writesConfig i || readsElement i || writesElement i || issued i == .validate || issued i == .generate

/-- A command: a word written to CMD. -/
def isCommand (i : Instr) : Bool :=
  match issued i with
  | .nop | .clrErr | .validate | .generate | .reservedOpc _ => true
  | _ => readsElement i || writesElement i

/-- The instruction `i`, taken in `s` after a past `v`, keeps the duty. -/
def Duty.keptBy (d : Duty) (v : EnvView) (s : State) (i : Instr) : Bool :=
  match d with
  | .alignedReads => match i with | .misaligned .read _ _ => false | _ => true
  | .validateBeforeGenerate => issued i != .generate || !v.unvalidated
  | .readStatusAfterValidate => !isCommand i || !v.validateUnread
  | .checkErrorBeforeResult => i != .readResult || !v.resultUnread
  | .pollUntilIdle => !needsIdle i || !v.generateOpen
  | .streamInOrder => match i with | .streamRd n => n == v.streamNext.getD 0 | _ => true
  | .streamStartsWhenComplete => match i with | .streamRd _ => v.streamNext.isSome || decide s.Complete | _ => true

/-- The past after `i` is taken in `s`. -/
def EnvView.after (v : EnvView) (s : State) (i : Instr) : EnvView :=
  { unvalidated := writesConfig i || (issued i != .validate && v.unvalidated)
    validateUnread := issued i == .validate || (i != .readStatus && v.validateUnread)
    resultUnread := readsElement i || (i != .readStatus && v.resultUnread)
    generateOpen := issued i == .generate || ((i != .readStatus || s.busy) && v.generateOpen)
    streamNext := match i with | .streamRd n => some ((n + 1) % elementCount) | _ => v.streamNext }

/-- The past after the next step of `s`. A reset starts it again; a turn that passes leaves it. -/
def EnvView.afterStep (v : EnvView) (s : State) : EnvView :=
  match (nextTurn s).1 with
  | .reset => .initial
  | t =>
    match turnInstr t (nextTurn s).2 with
    | some i => v.after (nextTurn s).2 i
    | none => v

/-- The next step of `s` keeps every duty. -/
abbrev State.DutiesKept (s : State) (v : EnvView) : Prop :=
  ∀ i, turnInstr (nextTurn s).1 (nextTurn s).2 = some i → ∀ d : Duty, d.keptBy v (nextTurn s).2 i = true

/-- The past agrees with the block: a generation in progress is one whose end HOST has not read, and the streamer stays in range. -/
abbrev EnvView.Tracks (v : EnvView) (s : State) : Prop :=
  (s.busy = true → v.generateOpen = true) ∧ ∀ n, v.streamNext = some n → n < elementCount

end Sys2Proof.Machine
end

