-- ==== Sys2Proof/Certificates/Slice0/Obligations.lean ====
section
/-! DEFINITION. Obligations.lean: the statements for the provers, from the numbered rules of spec/. -/

open Sys2Proof Sys2Proof.Machine

/-! ### Encoding and decoding -/

/-- Decode and encode agree: no operand bit of any instruction is dropped, misaligned and narrow accesses and every word that spells no
command included (`30_encoding.md` R81 to R86, R92 to R94). -/
def Obligations.DecodeOfEncodeIsTheInstruction : Prop :=
  ∀ i : Instr, i.wellFormed = true → decode (encode i) = .ok i

/-- Every transaction that decodes has one meaning: encoding it again gives the transaction, and the instruction is well formed unless it is a
stream-port read past the last element (`30_encoding.md` R83: "each word selects at most one row"). -/
def Obligations.EncodeOfDecodeIsTheTransaction : Prop :=
  ∀ (w : Wire) (i : Instr), decode w = .ok i →
    encode i = w ∧ (i.wellFormed = true ∨ ∃ n, i = .streamRd n ∧ 7200 ≤ n)

/-- The worked encodings of `30_encoding.md` R98. -/
def Obligations.WorkedCommandWords : Prop :=
  decode (.cmd 0x50012292#32) = .ok (.setTdc 658#13 1#3 .high) ∧
  encode (.setTdc 658#13 1#3 .high) = .cmd 0x50012292#32 ∧
  decode (.cmd 0x20000122#32) = .ok (.getCam 290#13) ∧
  encode (.getCam 290#13) = .cmd 0x20000122#32 ∧
  decode (.cmd 0x80001C1F#32) = .ok (.wrWord 7199#13) ∧
  encode (.wrWord 7199#13) = .cmd 0x80001C1F#32 ∧
  decode (.cmd 0x90000000#32) = .ok .validate ∧
  encode .validate = .cmd 0x90000000#32 ∧
  decode (.cmd 0xA0000000#32) = .ok .generate ∧
  encode .generate = .cmd 0xA0000000#32 ∧
  decode (.cmd 0x20010122#32) = .ok (.reservedOpc 0x20010122#32) ∧
  ∀ s : State, Sys2Proof.Machine.exec (.writeCmd 0x20010122#32) s = .next (s.recordError .illegalCommand)

/-- The register window (`10_state.md` R32): which instruction a word access at each mapped offset is, in both directions. -/
def Obligations.WindowOffsetsSelectTheirRegisters : Prop :=
  ∀ v : Word,
    (decode (.reg .read .word 0x00#8) = .ok .readCmd ∧ decode (.reg (.write v) .word 0x00#8) = .ok (.writeCmd v)) ∧
    (decode (.reg .read .word 0x04#8) = .ok .readData ∧ decode (.reg (.write v) .word 0x04#8) = .ok (.writeData v)) ∧
    (decode (.reg .read .word 0x08#8) = .ok .readResult ∧ decode (.reg (.write v) .word 0x08#8) = .ok (.writeResult v)) ∧
    (decode (.reg .read .word 0x0C#8) = .ok .readStatus ∧ decode (.reg (.write v) .word 0x0C#8) = .ok (.writeStatus v)) ∧
    (decode (.reg .read .word 0x10#8) = .ok .readCrkCfg ∧ decode (.reg (.write v) .word 0x10#8) = .ok (.writeCrkCfg v)) ∧
    (decode (.reg .read .word 0x14#8) = .ok .readCamCfg ∧ decode (.reg (.write v) .word 0x14#8) = .ok (.writeCamCfg v)) ∧
    (decode (.reg .read .word 0x18#8) = .ok .readTdcCfg ∧ decode (.reg (.write v) .word 0x18#8) = .ok (.writeTdcCfg v)) ∧
    (decode (.reg .read .word 0x1C#8) = .ok .readInfo ∧ decode (.reg (.write v) .word 0x1C#8) = .ok (.writeInfo v)) ∧
    (∀ k : Fin 16, decode (.reg .read .word (BitVec.ofNat 8 (0x40 + 4 * k.val))) = .ok (.readCamEdge0 (BitVec.ofFin k)) ∧
      decode (.reg (.write v) .word (BitVec.ofNat 8 (0x40 + 4 * k.val))) = .ok (.writeCamEdge0 (BitVec.ofFin k) v)) ∧
    (∀ k : Fin 4, decode (.reg .read .word (BitVec.ofNat 8 (0x80 + 4 * k.val))) = .ok (.readCamEdge16 (BitVec.ofFin k)) ∧
      decode (.reg (.write v) .word (BitVec.ofNat 8 (0x80 + 4 * k.val))) = .ok (.writeCamEdge16 (BitVec.ofFin k) v)) ∧
    (∀ k : Fin 4, decode (.reg .read .word (BitVec.ofNat 8 (0x90 + 4 * k.val))) = .ok (.readCamEdge20 (BitVec.ofFin k)) ∧
      decode (.reg (.write v) .word (BitVec.ofNat 8 (0x90 + 4 * k.val))) = .ok (.writeCamEdge20 (BitVec.ofFin k) v)) ∧
    (∀ k : Fin 8, decode (.reg .read .word (BitVec.ofNat 8 (0xA0 + 4 * k.val))) = .ok (.readCamEdge24 (BitVec.ofFin k)) ∧
      decode (.reg (.write v) .word (BitVec.ofNat 8 (0xA0 + 4 * k.val))) = .ok (.writeCamEdge24 (BitVec.ofFin k) v))

/-- `30_encoding.md` R84: a word whose RSV field is not 0, or with a field not 0 that the command of its OPC does not use, raises
E_ILLEGAL_COMMAND and has no other effect, in every state. -/
def Obligations.WordsWithAStrayFieldRaiseIllegalCommand : Prop :=
  ∀ (w : Word) (s : State),
    (w.extractLsb' 17 11 ≠ 0#11 ∨
      (w.extractLsb' 16 1 ≠ 0#1 ∧ (w.extractLsb' 28 4).toNat ∉ [1, 3, 5]) ∨
      (w.extractLsb' 13 3 ≠ 0#3 ∧ (w.extractLsb' 28 4).toNat ∉ [5, 6]) ∨
      (w.extractLsb' 0 13 ≠ 0#13 ∧ (w.extractLsb' 28 4).toNat ∉ [1, 2, 3, 4, 5, 6, 7, 8])) →
    decode (.cmd w) = .ok (.reservedOpc w) ∧
    Sys2Proof.Machine.exec (.reservedOpc w) s = .next (s.recordError .illegalCommand) ∧
    Sys2Proof.Machine.exec (.writeCmd w) s = .next (s.recordError .illegalCommand)

/-- `30_encoding.md` R85, its first sentence: a word with a reserved opcode raises E_ILLEGAL_COMMAND and has no other effect. -/
def Obligations.ReservedOpcodesRaiseIllegalCommand : Prop :=
  ∀ (w : Word) (s : State), 0xC ≤ (w.extractLsb' 28 4).toNat →
    decode (.cmd w) = .ok (.reservedOpc w) ∧
    Sys2Proof.Machine.exec (.reservedOpc w) s = .next (s.recordError .illegalCommand) ∧
    Sys2Proof.Machine.exec (.writeCmd w) s = .next (s.recordError .illegalCommand)

/-! ### Steps and reset -/

/-- A step runs the decoded instruction: the turn is taken off the agenda and its instruction executed in what is left. The turn's
transaction is a command word, a register access at a bus address of the window, a stream read, or the ENGINE's step of its phase. -/
def Obligations.StepRunsTheDecodedTurn : Prop :=
  ∀ (s : State) (rest : List Turn) (i : Instr),
    (∀ w, s.agenda = .cmd w :: rest → decode (.cmd w) = .ok i →
      Sys2Proof.Machine.step s = Sys2Proof.Machine.exec i { s with agenda := rest }) ∧
    (∀ acc size (off : BitVec 8), s.agenda = .bus acc size (s.params.base + off.toNat) :: rest →
      decode (.reg acc size off) = .ok i →
      Sys2Proof.Machine.step s = Sys2Proof.Machine.exec i { s with agenda := rest }) ∧
    (∀ n, s.agenda = .stream n :: rest → decode (.port n) = .ok i →
      Sys2Proof.Machine.step s = Sys2Proof.Machine.exec i { s with agenda := rest }) ∧
    (s.agenda = .engine :: rest → decode (.engine s.phase) = .ok i →
      Sys2Proof.Machine.step s = Sys2Proof.Machine.exec i { s with agenda := rest })

/-- The model's choices of log entries 7 and 8: with an empty agenda the ENGINE takes the step it has enabled and the block waits where it has
none (`44_generate.md` R206, `60_exceptions.md` R279); a turn of an agent with no step in the block passes. -/
def Obligations.StepsWithNoTransaction : Prop :=
  ∀ (s : State) (rest : List Turn),
    (s.agenda = [] → s.phase = .main → Sys2Proof.Machine.step s = Sys2Proof.Machine.exec .mainStep s) ∧
    (s.agenda = [] → s.phase = .tdc → Sys2Proof.Machine.step s = Sys2Proof.Machine.exec .tdcStep s) ∧
    (s.agenda = [] → s.phase = .idle → Sys2Proof.Machine.step s = .next s) ∧
    (s.agenda = .engine :: rest → s.phase = .idle → Sys2Proof.Machine.step s = .next { s with agenda := rest }) ∧
    (∀ acc size addr, s.agenda = .bus acc size addr :: rest → addr < s.params.base ∨ s.params.base + 256 ≤ addr →
      Sys2Proof.Machine.step s = .next { s with agenda := rest })

/-- The reset values that the spec gives (`10_state.md` R57), for every instance. The ENGINE registers are unspecified there, and nothing is
said of them. -/
def Obligations.ResetValues : Prop :=
  State.reset = State.resetOf Params.reference ∧
  ∀ p : Params,
    let s := State.resetOf p
    s.params = p ∧ s.data = 0x00000000#32 ∧ s.result = 0x00000000#32 ∧ s.phase = .idle ∧ s.busy = false ∧ s.done = false ∧
    s.cfgValid = false ∧ s.err = .eNone ∧ s.errMulti = false ∧ s.status = 0x00000000#32 ∧ s.crkCfg = 0x00000000#32 ∧
    s.camCfg = 0x00000000#32 ∧ s.tdcCfg = 0x00000000#32 ∧ (∀ k, k < 20 → s.camSlot k = 0x0000FFFF#32) ∧
    s.info = BitVec.ofNat 32 (0x1C200000 + p.width.bits) ∧ ∀ i b, s.bit i b = none

/-- The RESET agent's step (`70_reset_and_hazards.md` R290), from every state, a generation in progress included. That the turns still to be
taken stay (`t.agenda = rest`) is the model's choice (log entry 18, DESIGN CHOICE). -/
def Obligations.ResetStepSetsEveryValue : Prop :=
  ∀ (s : State) (rest : List Turn), s.agenda = .reset :: rest →
    ∃ t, Sys2Proof.Machine.step s = .next t ∧ t.agenda = rest ∧ t.params = s.params ∧ t.info = s.info ∧
      t.data = 0#32 ∧ t.result = 0#32 ∧ t.phase = .idle ∧ t.busy = false ∧ t.done = false ∧ t.cfgValid = false ∧ t.err = .eNone ∧
      t.errMulti = false ∧ t.status = 0#32 ∧ t.crkCfg = 0#32 ∧ t.camCfg = 0#32 ∧ t.tdcCfg = 0#32 ∧
      (∀ k, k < 20 → t.camSlot k = 0x0000FFFF#32) ∧ ∀ i b, t.bit i b = none

/-- `70_reset_and_hazards.md` R292: after reset no configuration is legal or validated, and GENERATE and VALIDATE are refused, until software
loads a configuration: so in every IDLE state with CFG_VALID = 0 and TDC_CFG still 0, and every instruction but a write to TDC_CFG leaves such a
state such a state. -/
def Obligations.AfterResetNothingIsValidated : Prop :=
  (∀ p : Params,
    let s := State.resetOf p
    s.cylCount = 0 ∧ s.toothCount = 0 ∧ s.missingCount = 0 ∧ s.busy = false ∧ s.tdcCfg = 0x00000000#32 ∧ s.cfgValid = false ∧
    ¬s.ConfigLegal ∧ Sys2Proof.Machine.exec .generate s = .next (s.recordError .configNotValidated) ∧
    Sys2Proof.Machine.exec .validate s = .next (s.recordError .invalidCylinderCount)) ∧
  ∀ s : State, s.busy = false → s.tdcCfg = 0x00000000#32 → s.cfgValid = false →
    ¬s.ConfigLegal ∧ Sys2Proof.Machine.exec .generate s = .next (s.recordError .configNotValidated) ∧
    Sys2Proof.Machine.exec .validate s = .next (s.recordError .invalidCylinderCount) ∧
    ∀ (i : Instr) (t : State), (∀ v, i ≠ .writeTdcCfg v) → Sys2Proof.Machine.exec i s = .next t →
      t.busy = false ∧ t.tdcCfg = 0x00000000#32 ∧ t.cfgValid = false

/-! ### Errors -/

/-- `60_exceptions.md` R262: the first error is kept, a later one only sets ERR_MULTI, nothing else changes, and a read that raises returns
0x00000000. -/
def Obligations.RaiseRecordsTheFirstError : Prop :=
  ∀ (e : Err) (s : State), e ≠ .eNone →
    (∃ t, raise e s = .next t ∧ t = { s with err := t.err, errMulti := t.errMulti } ∧
      (s.err = .eNone → t.err = e ∧ t.errMulti = s.errMulti) ∧ (s.err ≠ .eNone → t.err = s.err ∧ t.errMulti = true)) ∧
    ∃ t, raiseAccess .read s = .next t ∧ t = { s with err := t.err, errMulti := t.errMulti, hostRead := some 0x00000000#32 } ∧
      (s.err = .eNone → t.err = .illegalAccess ∧ t.errMulti = s.errMulti) ∧
      (s.err ≠ .eNone → t.err = s.err ∧ t.errMulti = true)

/-- The STATUS register (`10_state.md` R35, R36) and the error codes (`30_encoding.md` R95): every field at its place, codes 0xD to 0xF
never. -/
def Obligations.StatusFieldsAndErrorCodes : Prop :=
  (∀ s : State,
    s.status.getLsbD 0 = decide (s.phase ≠ .idle) ∧ s.status.getLsbD 1 = s.done ∧ s.status.getLsbD 2 = s.cfgValid ∧
    s.status.getLsbD 3 = s.errMulti ∧ s.status.extractLsb' 4 4 = s.err.code ∧
    (s.status.extractLsb' 8 2).toNat = (match s.phase with | .idle => 0 | .main => 1 | .tdc => 2) ∧
    s.status.extractLsb' 10 22 = 0#22) ∧
  (Err.eNone.code = 0x0#4 ∧ Err.invalidCylinderCount.code = 0x1#4 ∧ Err.tdcOutOfRange.code = 0x2#4 ∧
    Err.unsupportedCamEdgeCount.code = 0x3#4 ∧ Err.nonMonotonicCamEdges.code = 0x4#4 ∧ Err.invalidCrankWheel.code = 0x5#4 ∧
    Err.invalidCamEdge.code = 0x6#4 ∧ Err.configNotValidated.code = 0x7#4 ∧ Err.busy.code = 0x8#4 ∧
    Err.addressOutOfRange.code = 0x9#4 ∧ Err.invalidCylinderIndex.code = 0xA#4 ∧ Err.illegalCommand.code = 0xB#4 ∧
    Err.illegalAccess.code = 0xC#4) ∧
  ∀ e : Err, e.code.toNat ≤ 0xC

/-- `60_exceptions.md` R263: a transaction that changes the error record (other than by clearing it) changes nothing else. A transaction that
raises E with an empty record raises E with any record, and records it with no other effect; a read that raises returns 0x00000000. -/
def Obligations.ErrorsArePrecise : Prop :=
  (∀ (i : Instr) (s t : State), issued i ≠ .clrErr → Sys2Proof.Machine.exec i s = .next t →
    t.err ≠ s.err ∨ t.errMulti ≠ s.errMulti →
    (∃ e, e ≠ .eNone ∧ t = s.recordError e) ∨ (∃ e, e ≠ .eNone ∧ t = { s.recordError e with hostRead := some 0x00000000#32 })) ∧
  ∀ (i : Instr) (s u : State), Sys2Proof.Machine.exec i { s with err := .eNone, errMulti := false } = .next u → u.err ≠ .eNone →
    ((∃ k, i = .unmapped20 .read k) ∨ (∃ k, i = .unmappedC0 .read k) ∨ (∃ size off, i = .misaligned .read size off) →
      Sys2Proof.Machine.exec i s = .next { s.recordError u.err with hostRead := some 0x00000000#32 }) ∧
    ((∀ k, i ≠ .unmapped20 .read k) → (∀ k, i ≠ .unmappedC0 .read k) → (∀ size off, i ≠ .misaligned .read size off) →
      Sys2Proof.Machine.exec i s = .next (s.recordError u.err))

/-- `60_exceptions.md` R267 and R270: only CLR_ERR clears the record; until then ERR keeps the first code and ERR_MULTI stays. -/
def Obligations.OnlyClrErrClearsTheRecord : Prop :=
  ∀ (i : Instr) (s t : State), issued i ≠ .clrErr → Sys2Proof.Machine.exec i s = .next t →
    (s.err ≠ .eNone → t.err = s.err) ∧ (s.errMulti = true → t.errMulti = true)

/-- `60_exceptions.md` R261: errors are raised only by HOST transactions. The ENGINE's steps and stream-port reads raise none, and a step whose
turn is not the HOST's (nor a reset, which clears the record) leaves the error record as it was. -/
def Obligations.OnlyHostTransactionsRaiseErrors : Prop :=
  (∀ (i : Instr) (s t : State), (i = .mainStep ∨ i = .tdcStep ∨ ∃ n, i = .streamRd n) → Sys2Proof.Machine.exec i s = .next t →
    t.err = s.err ∧ t.errMulti = s.errMulti) ∧
  ∀ s t : State, (∀ w rest, s.agenda ≠ .cmd w :: rest) → (∀ acc size addr rest, s.agenda ≠ .bus acc size addr :: rest) →
    (∀ rest, s.agenda ≠ .reset :: rest) → Sys2Proof.Machine.step s = .next t → t.err = s.err ∧ t.errMulti = s.errMulti

/-- NOP (`45_config_control.md` R240): no effect in any state; no other word with OPC 0 is NOP. -/
def Obligations.NopHasNoEffect : Prop :=
  encode .nop = .cmd 0x00000000#32 ∧
  (∀ s : State, Sys2Proof.Machine.exec .nop s = .next s ∧ Sys2Proof.Machine.exec (.writeCmd 0x00000000#32) s = .next s) ∧
  ∀ (w : Word) (s : State), w.extractLsb' 28 4 = 0#4 → w ≠ 0x00000000#32 →
    Sys2Proof.Machine.exec (.writeCmd w) s = .next (s.recordError .illegalCommand)

/-- CLR_ERR (`45_config_control.md` R241): it clears the error record in every state and changes nothing else; a malformed word of its opcode
is recorded as an error. -/
def Obligations.ClrErrClearsTheRecord : Prop :=
  encode .clrErr = .cmd 0xB0000000#32 ∧
  (∀ s : State, Sys2Proof.Machine.exec .clrErr s = .next { s with err := .eNone, errMulti := false } ∧
    Sys2Proof.Machine.exec (.writeCmd 0xB0000000#32) s = .next { s with err := .eNone, errMulti := false }) ∧
  ∀ (w : Word) (s : State), w.extractLsb' 28 4 = 0xB#4 → w ≠ 0xB0000000#32 →
    Sys2Proof.Machine.exec (.writeCmd w) s = .next (s.recordError .illegalCommand)

/-! ### Element commands -/

/-- SET_CAM (`40_bitfield.md` R112): its encoding, its two errors in order, and its effect, which is one bit of one element. -/
def Obligations.SetCamWritesBitZero : Prop :=
  ∀ (addr : BitVec 13) (lvl : Level) (s : State),
    (∃ w, encode (.setCam addr lvl) = .cmd w ∧ w &&& 0xFFFEE000#32 = 0x10000000#32 ∧ w.extractLsb' 0 13 = addr ∧
      w.getLsbD 16 = lvl.toBool) ∧
    (s.busy = true → Sys2Proof.Machine.exec (.setCam addr lvl) s = .next (s.recordError .busy)) ∧
    (s.busy = false → 7200 ≤ addr.toNat →
      Sys2Proof.Machine.exec (.setCam addr lvl) s = .next (s.recordError .addressOutOfRange)) ∧
    (s.busy = false → addr.toNat < 7200 →
      ∃ t, Sys2Proof.Machine.exec (.setCam addr lvl) s = .next t ∧ s.OnlyBitWritten t addr.toNat 0 lvl)

/-- GET_CAM (`40_bitfield.md` R114): RESULT is 1 for High and 0 for Low; only bit 0 is read, and the model faults where it is undefined. -/
def Obligations.GetCamReadsBitZero : Prop :=
  ∀ (addr : BitVec 13) (s : State),
    (∃ w, encode (.getCam addr) = .cmd w ∧ w &&& 0xFFFFE000#32 = 0x20000000#32 ∧ w.extractLsb' 0 13 = addr) ∧
    (s.busy = true → Sys2Proof.Machine.exec (.getCam addr) s = .next (s.recordError .busy)) ∧
    (s.busy = false → 7200 ≤ addr.toNat → Sys2Proof.Machine.exec (.getCam addr) s = .next (s.recordError .addressOutOfRange)) ∧
    (s.busy = false → addr.toNat < 7200 → ∀ x, s.bit addr.toNat 0 = some x →
      Sys2Proof.Machine.exec (.getCam addr) s = .next { s with result := if x = .high then 1#32 else 0#32 }) ∧
    (s.busy = false → addr.toNat < 7200 → s.bit addr.toNat 0 = none →
      Sys2Proof.Machine.exec (.getCam addr) s = .fault (.undefinedRead addr.toNat 0))

/-- SET_CRK (`40_bitfield.md` R116). -/
def Obligations.SetCrkWritesBitOne : Prop :=
  ∀ (addr : BitVec 13) (lvl : Level) (s : State),
    (∃ w, encode (.setCrk addr lvl) = .cmd w ∧ w &&& 0xFFFEE000#32 = 0x30000000#32 ∧ w.extractLsb' 0 13 = addr ∧
      w.getLsbD 16 = lvl.toBool) ∧
    (s.busy = true → Sys2Proof.Machine.exec (.setCrk addr lvl) s = .next (s.recordError .busy)) ∧
    (s.busy = false → 7200 ≤ addr.toNat →
      Sys2Proof.Machine.exec (.setCrk addr lvl) s = .next (s.recordError .addressOutOfRange)) ∧
    (s.busy = false → addr.toNat < 7200 →
      ∃ t, Sys2Proof.Machine.exec (.setCrk addr lvl) s = .next t ∧ s.OnlyBitWritten t addr.toNat 1 lvl)

/-- GET_CRK (`40_bitfield.md` R118). -/
def Obligations.GetCrkReadsBitOne : Prop :=
  ∀ (addr : BitVec 13) (s : State),
    (∃ w, encode (.getCrk addr) = .cmd w ∧ w &&& 0xFFFFE000#32 = 0x40000000#32 ∧ w.extractLsb' 0 13 = addr) ∧
    (s.busy = true → Sys2Proof.Machine.exec (.getCrk addr) s = .next (s.recordError .busy)) ∧
    (s.busy = false → 7200 ≤ addr.toNat → Sys2Proof.Machine.exec (.getCrk addr) s = .next (s.recordError .addressOutOfRange)) ∧
    (s.busy = false → addr.toNat < 7200 → ∀ x, s.bit addr.toNat 1 = some x →
      Sys2Proof.Machine.exec (.getCrk addr) s = .next { s with result := if x = .high then 1#32 else 0#32 }) ∧
    (s.busy = false → addr.toNat < 7200 → s.bit addr.toNat 1 = none →
      Sys2Proof.Machine.exec (.getCrk addr) s = .fault (.undefinedRead addr.toNat 1))

/-- SET_TDC (`40_bitfield.md` R120): three errors in order; the bit is written whatever TDC_CFG.CYL_COUNT holds. -/
def Obligations.SetTdcWritesBitTwoPlusCylinder : Prop :=
  ∀ (addr : BitVec 13) (cyl : BitVec 3) (lvl : Level) (s : State),
    (∃ w, encode (.setTdc addr cyl lvl) = .cmd w ∧ w &&& 0xFFFE0000#32 = 0x50000000#32 ∧ w.extractLsb' 0 13 = addr ∧
      w.extractLsb' 13 3 = cyl ∧ w.getLsbD 16 = lvl.toBool) ∧
    (s.busy = true → Sys2Proof.Machine.exec (.setTdc addr cyl lvl) s = .next (s.recordError .busy)) ∧
    (s.busy = false → 7200 ≤ addr.toNat →
      Sys2Proof.Machine.exec (.setTdc addr cyl lvl) s = .next (s.recordError .addressOutOfRange)) ∧
    (s.busy = false → addr.toNat < 7200 → 6 ≤ cyl.toNat →
      Sys2Proof.Machine.exec (.setTdc addr cyl lvl) s = .next (s.recordError .invalidCylinderIndex)) ∧
    (s.busy = false → addr.toNat < 7200 → cyl.toNat < 6 →
      ∃ t, Sys2Proof.Machine.exec (.setTdc addr cyl lvl) s = .next t ∧ s.OnlyBitWritten t addr.toNat (2 + cyl.toNat) lvl)

/-- GET_TDC (`40_bitfield.md` R122). -/
def Obligations.GetTdcReadsBitTwoPlusCylinder : Prop :=
  ∀ (addr : BitVec 13) (cyl : BitVec 3) (s : State),
    (∃ w, encode (.getTdc addr cyl) = .cmd w ∧ w &&& 0xFFFF0000#32 = 0x60000000#32 ∧ w.extractLsb' 0 13 = addr ∧
      w.extractLsb' 13 3 = cyl) ∧
    (s.busy = true → Sys2Proof.Machine.exec (.getTdc addr cyl) s = .next (s.recordError .busy)) ∧
    (s.busy = false → 7200 ≤ addr.toNat →
      Sys2Proof.Machine.exec (.getTdc addr cyl) s = .next (s.recordError .addressOutOfRange)) ∧
    (s.busy = false → addr.toNat < 7200 → 6 ≤ cyl.toNat →
      Sys2Proof.Machine.exec (.getTdc addr cyl) s = .next (s.recordError .invalidCylinderIndex)) ∧
    (s.busy = false → addr.toNat < 7200 → cyl.toNat < 6 → ∀ x, s.bit addr.toNat (2 + cyl.toNat) = some x →
      Sys2Proof.Machine.exec (.getTdc addr cyl) s = .next { s with result := if x = .high then 1#32 else 0#32 }) ∧
    (s.busy = false → addr.toNat < 7200 → cyl.toNat < 6 → s.bit addr.toNat (2 + cyl.toNat) = none →
      Sys2Proof.Machine.exec (.getTdc addr cyl) s = .fault (.undefinedRead addr.toNat (2 + cyl.toNat)))

/-- RD_WORD (`40_bitfield.md` R124): bits W - 1 to 0 of RESULT are the element and bits 31 to W are 0; the model faults where one of the W
bits is undefined. -/
def Obligations.RdWordReadsTheElement : Prop :=
  ∀ (addr : BitVec 13) (s : State),
    (∃ w, encode (.rdWord addr) = .cmd w ∧ w &&& 0xFFFFE000#32 = 0x70000000#32 ∧ w.extractLsb' 0 13 = addr) ∧
    (s.busy = true → Sys2Proof.Machine.exec (.rdWord addr) s = .next (s.recordError .busy)) ∧
    (s.busy = false → 7200 ≤ addr.toNat → Sys2Proof.Machine.exec (.rdWord addr) s = .next (s.recordError .addressOutOfRange)) ∧
    (s.busy = false → addr.toNat < 7200 → (∀ b, b < s.params.width.bits → s.bit addr.toNat b ≠ none) →
      ∃ v, Sys2Proof.Machine.exec (.rdWord addr) s = .next { s with result := v } ∧
        (∀ b, b < s.params.width.bits → s.bit addr.toNat b = some (Level.ofBool (v.getLsbD b))) ∧
        ∀ b, s.params.width.bits ≤ b → v.getLsbD b = false) ∧
    (s.busy = false → addr.toNat < 7200 → (∃ b, b < s.params.width.bits ∧ s.bit addr.toNat b = none) →
      ∃ b, b < s.params.width.bits ∧ s.bit addr.toNat b = none ∧
        Sys2Proof.Machine.exec (.rdWord addr) s = .fault (.undefinedRead addr.toNat b))

/-- WR_WORD (`40_bitfield.md` R126): all W bits of the element become defined and hold DATA[W-1:0]; no other element and no register
changes. -/
def Obligations.WrWordWritesTheElement : Prop :=
  ∀ (addr : BitVec 13) (s : State),
    (∃ w, encode (.wrWord addr) = .cmd w ∧ w &&& 0xFFFFE000#32 = 0x80000000#32 ∧ w.extractLsb' 0 13 = addr) ∧
    (s.busy = true → Sys2Proof.Machine.exec (.wrWord addr) s = .next (s.recordError .busy)) ∧
    (s.busy = false → 7200 ≤ addr.toNat → Sys2Proof.Machine.exec (.wrWord addr) s = .next (s.recordError .addressOutOfRange)) ∧
    (s.busy = false → addr.toNat < 7200 →
      ∃ t, Sys2Proof.Machine.exec (.wrWord addr) s = .next t ∧ t = { s with pmem := t.pmem } ∧
        (∀ b, b < s.params.width.bits → t.bit addr.toNat b = some (Level.ofBool (s.data.getLsbD b))) ∧
        ∀ j b, j ≠ addr.toNat → t.bit j b = s.bit j b)

/-- `40_bitfield.md` R129: read after write, bit independence, and the source's mask operations. -/
def Obligations.BitWriteThenReadReturnsTheLevel : Prop :=
  ∀ (s : State) (i b : Nat) (x : Level), i < 7200 → b < 8 →
    ∃ t, s.memWriteBit i b x = .ok t ∧ t.memReadBit i b = .ok x ∧ (∀ c, c ≠ b → t.memReadBit i c = s.memReadBit i c) ∧
      (x = .high → (t.elem i).value = (s.elem i).value ||| (1#32 <<< b)) ∧
      (x = .low → (t.elem i).value = (s.elem i).value &&& ~~~(1#32 <<< b))

/-! ### Register accesses -/

/-- `45_config_control.md` R222: what a read at each mapped offset returns, in every state; nothing else changes. -/
def Obligations.ReadsReturnTheRegisters : Prop :=
  ∀ s : State,
    Sys2Proof.Machine.exec .readCmd s = .next { s with hostRead := some 0x00000000#32 } ∧
    Sys2Proof.Machine.exec .readData s = .next { s with hostRead := some s.data } ∧
    Sys2Proof.Machine.exec .readResult s = .next { s with hostRead := some s.result } ∧
    Sys2Proof.Machine.exec .readStatus s = .next { s with hostRead := some s.status } ∧
    Sys2Proof.Machine.exec .readCrkCfg s = .next { s with hostRead := some s.crkCfg } ∧
    Sys2Proof.Machine.exec .readCamCfg s = .next { s with hostRead := some s.camCfg } ∧
    Sys2Proof.Machine.exec .readTdcCfg s = .next { s with hostRead := some s.tdcCfg } ∧
    Sys2Proof.Machine.exec .readInfo s = .next { s with hostRead := some s.info } ∧
    (∀ k : Fin 16, Sys2Proof.Machine.exec (.readCamEdge0 (BitVec.ofFin k)) s =
      .next { s with hostRead := some (s.camEdge[k.val]'(by omega)) }) ∧
    (∀ k : Fin 4, Sys2Proof.Machine.exec (.readCamEdge16 (BitVec.ofFin k)) s =
      .next { s with hostRead := some (s.camEdge[16 + k.val]'(by omega)) }) ∧
    (∀ k, Sys2Proof.Machine.exec (.readCamEdge20 k) s = .next { s with hostRead := some 0x0000FFFF#32 }) ∧
    (∀ k, Sys2Proof.Machine.exec (.readCamEdge24 k) s = .next { s with hostRead := some 0x0000FFFF#32 }) ∧
    (∀ k, Sys2Proof.Machine.exec (.unmapped20 .read k) s =
      .next { s.recordError .illegalAccess with hostRead := some 0x00000000#32 }) ∧
    ∀ k, Sys2Proof.Machine.exec (.unmappedC0 .read k) s =
      .next { s.recordError .illegalAccess with hostRead := some 0x00000000#32 }

/-- INFO (`10_state.md` R41): the constant that READ INFO returns for each W, in every state, and no step changes it, reset included. -/
def Obligations.InfoIsConstant : Prop :=
  (∀ s : State,
    (s.params.width = .w8 → Sys2Proof.Machine.exec .readInfo s = .next { s with hostRead := some 0x1C200008#32 }) ∧
    (s.params.width = .w16 → Sys2Proof.Machine.exec .readInfo s = .next { s with hostRead := some 0x1C200010#32 }) ∧
    (s.params.width = .w32 → Sys2Proof.Machine.exec .readInfo s = .next { s with hostRead := some 0x1C200020#32 })) ∧
  ∀ s t : State, Sys2Proof.Machine.step s = .next t → t.params = s.params ∧ t.info = s.info

/-- `45_config_control.md` R220: an access at an unmapped or misaligned offset, or narrower than 32 bits, raises E_ILLEGAL_ACCESS in every
state, and a read then returns 0x00000000; every other access is of a register. -/
def Obligations.UnmappedMisalignedOrNarrowAccessRaises : Prop :=
  (∀ (acc : Access) (size : Size) (off : BitVec 8) (s : State),
    (size ≠ .word ∨ off.toNat % 4 ≠ 0 ∨ (0x20 ≤ off.toNat ∧ off.toNat < 0x40) ∨ 0xC0 ≤ off.toNat) →
    ∃ i, decode (.reg acc size off) = .ok i ∧ (i = .misaligned acc size off ∨ (∃ k, i = .unmapped20 acc k) ∨ ∃ k, i = .unmappedC0 acc k) ∧
      (acc = .read → Sys2Proof.Machine.exec i s = .next { s.recordError .illegalAccess with hostRead := some 0x00000000#32 }) ∧
      (∀ v, acc = .write v → Sys2Proof.Machine.exec i s = .next (s.recordError .illegalAccess))) ∧
  (∀ (v : Word) (s : State),
    (∀ k, Sys2Proof.Machine.exec (.unmapped20 .read k) s =
      .next { s.recordError .illegalAccess with hostRead := some 0x00000000#32 }) ∧
    (∀ k, Sys2Proof.Machine.exec (.unmapped20 (.write v) k) s = .next (s.recordError .illegalAccess)) ∧
    (∀ k, Sys2Proof.Machine.exec (.unmappedC0 .read k) s =
      .next { s.recordError .illegalAccess with hostRead := some 0x00000000#32 }) ∧
    (∀ k, Sys2Proof.Machine.exec (.unmappedC0 (.write v) k) s = .next (s.recordError .illegalAccess)) ∧
    (∀ size off, Sys2Proof.Machine.exec (.misaligned .read size off) s =
      .next { s.recordError .illegalAccess with hostRead := some 0x00000000#32 }) ∧
    ∀ size off, Sys2Proof.Machine.exec (.misaligned (.write v) size off) s = .next (s.recordError .illegalAccess)) ∧
  ∀ (acc : Access) (off : BitVec 8), off.toNat % 4 = 0 → (off.toNat < 0x20 ∨ (0x40 ≤ off.toNat ∧ off.toNat < 0xC0)) →
    ∃ i, decode (.reg acc .word off) = .ok i ∧ i ≠ .misaligned acc .word off ∧ (∀ k, i ≠ .unmapped20 acc k) ∧
      ∀ k, i ≠ .unmappedC0 acc k

/-- A configuration write (`45_config_control.md` R225, R226, R228, in R223's order): E_BUSY while BUSY = 1, then E_ILLEGAL_ACCESS for a bit
outside the write mask, else the value is stored, legal or not, and CFG_VALID becomes 0. -/
def Obligations.ConfigurationWritesStoreAndInvalidate : Prop :=
  ∀ (v : Word) (s : State),
    (s.busy = true →
      Sys2Proof.Machine.exec (.writeCrkCfg v) s = .next (s.recordError .busy) ∧
      Sys2Proof.Machine.exec (.writeCamCfg v) s = .next (s.recordError .busy) ∧
      Sys2Proof.Machine.exec (.writeTdcCfg v) s = .next (s.recordError .busy) ∧
      (∀ k, Sys2Proof.Machine.exec (.writeCamEdge0 k v) s = .next (s.recordError .busy)) ∧
      (∀ k, Sys2Proof.Machine.exec (.writeCamEdge16 k v) s = .next (s.recordError .busy)) ∧
      (∀ k, Sys2Proof.Machine.exec (.writeCamEdge20 k v) s = .next (s.recordError .busy)) ∧
      ∀ k, Sys2Proof.Machine.exec (.writeCamEdge24 k v) s = .next (s.recordError .busy)) ∧
    (s.busy = false →
      (v &&& 0xFFFEFC00#32 ≠ 0#32 → Sys2Proof.Machine.exec (.writeCrkCfg v) s = .next (s.recordError .illegalAccess)) ∧
      (v &&& 0xFFFEFC00#32 = 0#32 → Sys2Proof.Machine.exec (.writeCrkCfg v) s = .next { s with crkCfg := v, cfgValid := false }) ∧
      (v &&& 0xFFFFFFFE#32 ≠ 0#32 → Sys2Proof.Machine.exec (.writeCamCfg v) s = .next (s.recordError .illegalAccess)) ∧
      (v &&& 0xFFFFFFFE#32 = 0#32 → Sys2Proof.Machine.exec (.writeCamCfg v) s = .next { s with camCfg := v, cfgValid := false }) ∧
      (v &&& 0xFF000000#32 ≠ 0#32 → Sys2Proof.Machine.exec (.writeTdcCfg v) s = .next (s.recordError .illegalAccess)) ∧
      (v &&& 0xFF000000#32 = 0#32 → Sys2Proof.Machine.exec (.writeTdcCfg v) s = .next { s with tdcCfg := v, cfgValid := false }) ∧
      (∀ k, v &&& 0xFFFF0000#32 ≠ 0#32 →
        Sys2Proof.Machine.exec (.writeCamEdge0 k v) s = .next (s.recordError .illegalAccess)) ∧
      (∀ k, v &&& 0xFFFF0000#32 ≠ 0#32 →
        Sys2Proof.Machine.exec (.writeCamEdge16 k v) s = .next (s.recordError .illegalAccess)) ∧
      (∀ k : BitVec 4, v &&& 0xFFFF0000#32 = 0#32 →
        ∃ t, Sys2Proof.Machine.exec (.writeCamEdge0 k v) s = .next t ∧ t = { s with camEdge := t.camEdge, cfgValid := false } ∧
          t.camSlot k.toNat = v ∧ ∀ j, j ≠ k.toNat → t.camSlot j = s.camSlot j) ∧
      ∀ k : BitVec 2, v &&& 0xFFFF0000#32 = 0#32 →
        ∃ t, Sys2Proof.Machine.exec (.writeCamEdge16 k v) s = .next t ∧ t = { s with camEdge := t.camEdge, cfgValid := false } ∧
          t.camSlot (16 + k.toNat) = v ∧ ∀ j, j ≠ 16 + k.toNat → t.camSlot j = s.camSlot j)

/-- The other register writes (`45_config_control.md` R224, R227, R229): the read-only registers and the absent slots refuse, DATA stores in
every state. -/
def Obligations.OtherRegisterWrites : Prop :=
  ∀ (v : Word) (s : State),
    (Sys2Proof.Machine.exec (.writeResult v) s = .next (s.recordError .illegalAccess) ∧
      Sys2Proof.Machine.exec (.writeStatus v) s = .next (s.recordError .illegalAccess) ∧
      Sys2Proof.Machine.exec (.writeInfo v) s = .next (s.recordError .illegalAccess)) ∧
    (s.busy = false →
      (∀ k, Sys2Proof.Machine.exec (.writeCamEdge20 k v) s = .next (s.recordError .unsupportedCamEdgeCount)) ∧
      ∀ k, Sys2Proof.Machine.exec (.writeCamEdge24 k v) s = .next (s.recordError .unsupportedCamEdgeCount)) ∧
    Sys2Proof.Machine.exec (.writeData v) s = .next { s with data := v }

/-- CMD (`10_state.md` R42): a write issues the one command that its word decodes to, a read returns 0 and has no effect. -/
def Obligations.WriteCmdIssuesTheDecodedCommand : Prop :=
  ∀ (v : Word) (s : State),
    (∃ i, decode (.cmd v) = .ok i ∧ Sys2Proof.Machine.exec (.writeCmd v) s = Sys2Proof.Machine.exec i s) ∧
    Sys2Proof.Machine.exec .readCmd s = .next { s with hostRead := some 0x00000000#32 }

/-- Where a write to CMD completes, for the words of three commands: SET_CAM, WR_WORD and GENERATE (`10_state.md` R42 with `40_bitfield.md`
R112 and R126 and `44_generate.md` R200). -/
def Obligations.WriteCmdCompletesWithTheCommand : Prop :=
  ∀ (v : Word) (s : State), s.busy = false →
    (v &&& 0xFFFEE000#32 = 0x10000000#32 → (v.extractLsb' 0 13).toNat < 7200 →
      ∃ t, Sys2Proof.Machine.exec (.writeCmd v) s = .next t ∧
        s.OnlyBitWritten t (v.extractLsb' 0 13).toNat 0 (Level.ofBool (v.getLsbD 16))) ∧
    (v &&& 0xFFFFE000#32 = 0x80000000#32 → (v.extractLsb' 0 13).toNat < 7200 →
      ∃ t, Sys2Proof.Machine.exec (.writeCmd v) s = .next t ∧ t = { s with pmem := t.pmem } ∧
        (∀ b, b < s.params.width.bits → t.bit (v.extractLsb' 0 13).toNat b = some (Level.ofBool (s.data.getLsbD b))) ∧
        ∀ j b, j ≠ (v.extractLsb' 0 13).toNat → t.bit j b = s.bit j b) ∧
    (v = 0xA0000000#32 → s.cfgValid = true →
      ∃ t, Sys2Proof.Machine.exec (.writeCmd v) s = .next t ∧ t.phase = .main ∧ t.done = false ∧ t.pmem = s.pmem)

/-! ### VALIDATE -/

/-- VALIDATE on a legal configuration (`45_config_control.md` R230, R236): it completes and sets CFG_VALID, and nothing else. -/
def Obligations.ValidateAcceptsLegalConfigurations : Prop :=
  encode .validate = .cmd 0x90000000#32 ∧
  ∀ s : State, s.busy = false → s.ConfigLegal → Sys2Proof.Machine.exec .validate s = .next { s with cfgValid := true }

/-- VALIDATE on an illegal configuration (`45_config_control.md` R231 to R235): it raises the error of the first check that fails, in R230's
order, and nothing else changes. The fields are spelled from the registers' bits (`10_state.md` R37, R39, R40), and a slot is used when
neither it nor a slot before it holds the sentinel (R51). -/
def Obligations.ValidateRaisesTheFirstFailure : Prop :=
  ∀ s : State,
    let cyl := (s.tdcCfg.extractLsb' 16 8).toNat
    let ref := (s.tdcCfg.extractLsb' 0 16).toNat
    let teeth := (s.crkCfg.extractLsb' 0 8).toNat
    let missing := (s.crkCfg.extractLsb' 8 2).toNat
    let edge : Nat → Nat := fun k => ((s.camEdge[k]?.getD 0x0000FFFF#32).extractLsb' 0 16).toNat
    let used : Nat → Prop := fun k => k < 20 ∧ ∀ j, j ≤ k → edge j ≠ 0xFFFF
    let edgeOk : Nat → Prop := fun k => edge k < 7200 ∧ (k = 0 ∨ edge (k - 1) < edge k)
    let cylOk : Prop := cyl ∈ s.params.supportedCyl ∧ 7200 % cyl = 0
    (s.busy = true → Sys2Proof.Machine.exec .validate s = .next (s.recordError .busy)) ∧
    (s.busy = false → ¬cylOk → Sys2Proof.Machine.exec .validate s = .next (s.recordError .invalidCylinderCount)) ∧
    (s.busy = false → cylOk → 7200 ≤ ref → Sys2Proof.Machine.exec .validate s = .next (s.recordError .tdcOutOfRange)) ∧
    (∀ k, s.busy = false → cylOk → ref < 7200 → used k → (∀ j, j < k → edgeOk j) → 7200 ≤ edge k →
      Sys2Proof.Machine.exec .validate s = .next (s.recordError .invalidCamEdge)) ∧
    (∀ k, s.busy = false → cylOk → ref < 7200 → used k → (∀ j, j < k → edgeOk j) → edge k < 7200 → 0 < k → edge k ≤ edge (k - 1) →
      Sys2Proof.Machine.exec .validate s = .next (s.recordError .nonMonotonicCamEdges)) ∧
    (s.busy = false → cylOk → ref < 7200 → (∀ k, used k → edgeOk k) →
      ¬((teeth = 30 ∨ teeth = 60 ∨ teeth = 120) ∧ (missing = 1 ∨ missing = 2)) →
      Sys2Proof.Machine.exec .validate s = .next (s.recordError .invalidCrankWheel))

/-- `45_config_control.md` R237: while IDLE, VALIDATE succeeds again on a validated configuration and changes nothing; where its checks fail,
CFG_VALID was already 0 and stays 0. The invariant rules out the states with CFG_VALID = 1 on an illegal configuration, which no run reaches.
(While BUSY = 1 VALIDATE raises E_BUSY, `60_exceptions.md` R266.) -/
def Obligations.RevalidationChangesNothing : Prop :=
  ∀ s : State, s.Inv →
    (s.busy = false → s.cfgValid = true → Sys2Proof.Machine.exec .validate s = .next s) ∧
    (s.busy = false → ¬s.ConfigLegal → ∃ t, Sys2Proof.Machine.exec .validate s = .next t ∧ s.cfgValid = false ∧ t.cfgValid = false) ∧
    (s.busy = true → Sys2Proof.Machine.exec .validate s = .next (s.recordError .busy))

/-! ### Generation -/

/-- GENERATE (`44_generate.md` R200, R201): its errors in order, and what an accepted one initialises; no PMEM bit, RESULT or DATA
changes. -/
def Obligations.GenerateStartsTheMainPass : Prop :=
  encode .generate = .cmd 0xA0000000#32 ∧
  (∀ (w : Word) (s : State), w.extractLsb' 28 4 = 0xA#4 → w ≠ 0xA0000000#32 →
    Sys2Proof.Machine.exec (.writeCmd w) s = .next (s.recordError .illegalCommand)) ∧
  ∀ s : State,
    (s.busy = true → Sys2Proof.Machine.exec .generate s = .next (s.recordError .busy)) ∧
    (s.busy = false → s.cfgValid = false → Sys2Proof.Machine.exec .generate s = .next (s.recordError .configNotValidated)) ∧
    (s.busy = false → s.cfgValid = true →
      Sys2Proof.Machine.exec .generate s =
        .next { s with
          done := false
          cursor := 0#13
          camLvl := Level.ofBool (s.camCfg.getLsbD 0)
          camIdx := 0#5
          crkLvl := if s.crkCfg.getLsbD 16 = true then .low else .high
          tdcK := 0#3
          phase := .main })

/-- MAIN_STEP (`44_generate.md` R202 and R205, with CAM_ADVANCE of `42_cam.md` R161 and CRANK_ADVANCE of `41_crank.md` R142): the two bits it
writes, both transitions, the advance, and that nothing else changes. The fields and the half tooth and gap span of a legal wheel are spelled
from the registers' bits (`10_state.md` R37, R40, R48, R49). -/
def Obligations.MainStepWritesThenAdvances : Prop :=
  ∀ s : State,
    let teeth := (s.crkCfg.extractLsb' 0 8).toNat
    let missing := (s.crkCfg.extractLsb' 8 2).toNat
    let halfTooth := (3600 / teeth) / 2
    let gapSpan := missing * (3600 / teeth)
    let gapLevel : Level := if s.crkCfg.getLsbD 16 = true then .high else .low
    let edge : Nat → Nat := fun k => ((s.camEdge[k]?.getD 0x0000FFFF#32).extractLsb' 0 16).toNat
    let a := s.cursor.toNat
    s.phase = .main → (teeth = 30 ∨ teeth = 60 ∨ teeth = 120) → (missing = 1 ∨ missing = 2) → a < 7200 →
    ∃ t, Sys2Proof.Machine.exec .mainStep s = .next t ∧
      t.bit a 0 = some s.camLvl ∧ t.bit a 1 = some s.crkLvl ∧
      (∀ j c, ¬(j = a ∧ c ≤ 1) → t.bit j c = s.bit j c) ∧
      (s.camIdx.toNat < 20 ∧ edge s.camIdx.toNat = a → t.camLvl = s.camLvl.not ∧ t.camIdx.toNat = s.camIdx.toNat + 1) ∧
      (¬(s.camIdx.toNat < 20 ∧ edge s.camIdx.toNat = a) → t.camLvl = s.camLvl ∧ t.camIdx = s.camIdx) ∧
      (a ≠ 0 ∧ a % halfTooth = 0 → t.crkLvl = if a % 3600 ≥ 3600 - gapSpan then gapLevel else s.crkLvl.not) ∧
      (¬(a ≠ 0 ∧ a % halfTooth = 0) → t.crkLvl = s.crkLvl) ∧
      (a = 7199 → t.phase = .tdc ∧ t.cursor = s.cursor ∧ t.busy = true) ∧
      (a ≠ 7199 → t.phase = .main ∧ t.cursor.toNat = a + 1) ∧
      t = { s with pmem := t.pmem, camLvl := t.camLvl, camIdx := t.camIdx, crkLvl := t.crkLvl, cursor := t.cursor, phase := t.phase }

/-- TDC_STEP (`43_tdc.md` R186, R187): it sets one bit High at the computed position, advances TDC_K, and on the last cylinder ends the
generation. CYL_COUNT and REF_TO_TDC0 are spelled from the register's bits (`10_state.md` R39). -/
def Obligations.TdcStepMarksOneCylinder : Prop :=
  ∀ s : State,
    let cyl := (s.tdcCfg.extractLsb' 16 8).toNat
    let ref := (s.tdcCfg.extractLsb' 0 16).toNat
    let k := s.tdcK.toNat
    let pos := (ref + k * (7200 / cyl)) % 7200
    s.phase = .tdc → k < cyl → cyl ≤ 6 →
    ∃ t, Sys2Proof.Machine.exec .tdcStep s = .next t ∧
      t.bit pos (2 + k) = some .high ∧ (∀ j c, ¬(j = pos ∧ c = 2 + k) → t.bit j c = s.bit j c) ∧
      t.tdcK.toNat = k + 1 ∧
      (k + 1 = cyl → t.phase = .idle ∧ t.busy = false ∧ t.done = true) ∧
      (k + 1 ≠ cyl → t.phase = .tdc ∧ t.done = s.done) ∧
      t = { s with pmem := t.pmem, tdcK := t.tdcK, phase := t.phase, done := t.done }

/-- `43_tdc.md` R184: the n positions are distinct and inside the cycle, for every count in 1 to 6. -/
def Obligations.TdcPositionsAreDistinct : Prop :=
  ∀ s : State, 1 ≤ s.cylCount → s.cylCount ≤ 6 →
    (∀ k, s.tdcPos k < 7200) ∧ ∀ j k, j < s.cylCount → k < s.cylCount → j ≠ k → s.tdcPos j ≠ s.tdcPos k

/-- `41_crank.md` R146: the closed form of the crank bit follows the transition rule of R142 from `crk_first`, for every legal wheel and
every angle. -/
def Obligations.CrankClosedFormFollowsTheTransitions : Prop :=
  ∀ s : State, s.wheelLegal = true →
    s.crankAt 0 = s.crkFirst ∧
    ∀ a, a < 7199 → s.crankAt (a + 1) =
      if a ≠ 0 ∧ a % s.halfTooth = 0 then (if a % 3600 ≥ 3600 - s.gapSpan then s.crkFirst.not else (s.crankAt a).not)
      else s.crankAt a

/-- `41_crank.md` R145 and R148: the two revolutions agree but at their first element, and the gap window holds the gap level. -/
def Obligations.CrankRevolutionsAgreeButAtTheStart : Prop :=
  ∀ s : State, s.wheelLegal = true →
    s.crankAt 0 = s.crkFirst ∧ s.crankAt 3600 = s.gapLevel ∧
    (∀ r, 1 ≤ r → r ≤ 3599 → s.crankAt (3600 + r) = s.crankAt r) ∧
    (∀ a, a < 7200 → a % 3600 ≥ s.gapStart → s.crankAt a = s.gapLevel) ∧
    ∀ a, a < 7199 → a ≠ 0 → a % s.halfTooth = 0 → a % 3600 < s.gapStart → s.crankAt (a + 1) = (s.crankAt a).not

/-- `42_cam.md` R163 and R166: the closed form of the cam bit starts at FIRST_LEVEL and toggles after each used edge angle, and nowhere
else. -/
def Obligations.CamClosedFormTogglesAfterEachEdge : Prop :=
  ∀ s : State, s.ConfigLegal →
    s.camAt 0 = s.firstLevel ∧
    ∀ a, a < 7200 →
      ((∃ k, k < s.usedEdges ∧ s.edge k = a) → s.camAt (a + 1) = (s.camAt a).not) ∧
      ((∀ k, k < s.usedEdges → s.edge k ≠ a) → s.camAt (a + 1) = s.camAt a)

/-- `44_generate.md` R208 (with `43_tdc.md` R187): from an accepted GENERATE on an empty agenda, 7200 + n steps end the generation. Then every
bit of every element is that of the closed forms, or what it was; the configuration, RESULT, DATA and the error record are unchanged. That the
steps on an empty agenda are the ENGINE's is the model's choice (log entry 7, DESIGN CHOICE); every other schedule is
`GenerationProgressesUnderAnySchedule`'s. -/
def Obligations.GenerationWritesThePattern : Prop :=
  ∀ s : State, s.Inv → s.phase = .idle → s.cfgValid = true → s.agenda = [] →
    ∃ g t : State, Sys2Proof.Machine.exec .generate s = .next g ∧
      runFor (7200 + s.cylCount) g = .next t ∧
      (∀ k, k < 7200 + s.cylCount → ∃ u : State, runFor k g = .next u ∧ u.busy = true ∧ u.done = false) ∧
      t.phase = .idle ∧ t.done = true ∧ t.camIdx.toNat = s.usedEdges ∧
      (∀ a, a < 7200 → t.bit a 0 = some (s.camAt a) ∧ t.bit a 1 = some (s.crankAt a) ∧
        (∀ k, k < 6 → t.bit a (2 + k) = if k < s.cylCount ∧ a = s.tdcPos k then some .high else s.bit a (2 + k)) ∧
        ∀ b, 8 ≤ b → b < s.params.width.bits → t.bit a b = s.bit a b) ∧
      t = { s with
        pmem := t.pmem, done := true, cursor := t.cursor, camLvl := t.camLvl, camIdx := t.camIdx, crkLvl := t.crkLvl, tdcK := t.tdcK }

/-- `43_tdc.md` R189: on a PMEM whose bits 2 to 7 were Low, a generation leaves exactly the n markers High and every other TDC bit Low. First
of every schedule: for every state that ends a generation `g` accepted (PHASE = IDLE, `State.Generating`, which
`GenerationProgressesUnderAnySchedule` says every step but a reset keeps). Then of the run of 7200 + n steps on an empty agenda, whose steps
are the ENGINE's by the model's choice (log entry 7, DESIGN CHOICE). -/
def Obligations.GenerationLeavesExactlyNMarkers : Prop :=
  ∀ g : State, g.Inv → g.cfgValid = true → (∀ a k, a < 7200 → k < 6 → g.bit a (2 + k) = some .low) →
    (∀ s : State, g.Generating s → s.phase = .idle →
      (∀ a k, a < 7200 → k < 6 → s.bit a (2 + k) = if k < g.cylCount ∧ a = g.tdcPos k then some .high else some .low) ∧
      (((List.range 7200).flatMap fun a => (List.range 6).map fun k => s.bit a (2 + k)).countP (· == some .high)) = g.cylCount) ∧
    (g.phase = .idle → g.agenda = [] →
      ∃ u t : State, Sys2Proof.Machine.exec .generate g = .next u ∧ runFor (7200 + g.cylCount) u = .next t ∧ t.done = true ∧ t.phase = .idle ∧
        (∀ a k, a < 7200 → k < 6 → t.bit a (2 + k) = if k < g.cylCount ∧ a = g.tdcPos k then some .high else some .low) ∧
        (((List.range 7200).flatMap fun a => (List.range 6).map fun k => t.bit a (2 + k)).countP (· == some .high)) = g.cylCount)

/-- `44_generate.md` R210: two generations with the same configuration from PMEM contents that agree in bits 2 to W - 1 end with equal PMEM
contents; a generation started on the output of one with the same configuration ends with PMEM unchanged. First of every schedule: for all
states that end such generations (PHASE = IDLE, `State.Generating`, which `GenerationProgressesUnderAnySchedule` says every step but a reset
keeps). Then of runs of 7200 + n steps on an empty agenda, whose steps are the ENGINE's by the model's choice (log entry 7, DESIGN CHOICE). -/
def Obligations.GenerationIsIdempotent : Prop :=
  (∀ g g' s s' : State, g.Inv → g.cfgValid = true → s.Inv → s'.Inv → g'.SameConfig g →
    (∀ a b, a < 7200 → 2 ≤ b → b < g.params.width.bits → g'.bit a b = g.bit a b) → g.Generating s → s.phase = .idle →
    g'.Generating s' → s'.phase = .idle → s'.pmem = s.pmem) ∧
  (∀ g s s' : State, g.Inv → g.cfgValid = true → s.Inv → s'.Inv → g.Generating s → s.phase = .idle → s.Generating s' →
    s'.phase = .idle → s'.pmem = s.pmem) ∧
  (∀ s s' : State, s.Inv → s'.Inv → s.phase = .idle → s'.phase = .idle → s.cfgValid = true → s'.cfgValid = true → s.agenda = [] →
    s'.agenda = [] → s'.SameConfig s → (∀ a b, a < 7200 → 2 ≤ b → b < s.params.width.bits → s'.bit a b = s.bit a b) →
    ∃ g t g' t' : State, Sys2Proof.Machine.exec .generate s = .next g ∧ runFor (7200 + s.cylCount) g = .next t ∧
      Sys2Proof.Machine.exec .generate s' = .next g' ∧ runFor (7200 + s.cylCount) g' = .next t' ∧ t.done = true ∧ t'.done = true ∧
      t'.pmem = t.pmem) ∧
  ∀ s : State, s.Inv → s.phase = .idle → s.cfgValid = true → s.agenda = [] →
    ∃ g t g' t' : State, Sys2Proof.Machine.exec .generate s = .next g ∧ runFor (7200 + s.cylCount) g = .next t ∧
      Sys2Proof.Machine.exec .generate t = .next g' ∧ runFor (7200 + s.cylCount) g' = .next t' ∧ t'.done = true ∧ t'.pmem = t.pmem

/-- `20_memory.md` R73 and `44_generate.md` R206, under every schedule: while a generation is in progress, every step of every agent but RESET
leaves a state of that generation. PMEM shows the pattern up to CURSOR (or TDC_K), the trackers hold the next element's levels, and no HOST or
STREAM step stops or changes it; an accepted GENERATE starts one. -/
def Obligations.GenerationProgressesUnderAnySchedule : Prop :=
  (∀ s t : State, s.Inv → s.busy = false → s.cfgValid = true → Sys2Proof.Machine.exec .generate s = .next t → s.Generating t) ∧
  ∀ g s t : State, g.Inv → g.ConfigLegal → s.busy = true → g.Generating s → (∀ rest, s.agenda ≠ .reset :: rest) →
    Sys2Proof.Machine.step s = .next t → g.Generating t

/-! ### The stream port -/

/-- STREAM_RD (`45_config_control.md` R245, R246): the element on the output lines, in every phase, and no effect on any state of the block; a
fault where a bit is undefined; no step past element 7199. -/
def Obligations.StreamReadReturnsTheElement : Prop :=
  ∀ (i : Nat) (s : State),
    (i < 7200 → (∀ b, b < s.params.width.bits → s.bit i b ≠ none) →
      ∃ v, Sys2Proof.Machine.exec (.streamRd i) s = .next { s with streamOut := some v } ∧
        (∀ b, b < s.params.width.bits → s.bit i b = some (Level.ofBool (v.getLsbD b))) ∧
        ∀ b, s.params.width.bits ≤ b → v.getLsbD b = false) ∧
    (i < 7200 → (∃ b, b < s.params.width.bits ∧ s.bit i b = none) →
      ∃ b, b < s.params.width.bits ∧ s.bit i b = none ∧ Sys2Proof.Machine.exec (.streamRd i) s = .fault (.undefinedRead i b)) ∧
    (7200 ≤ i → Sys2Proof.Machine.exec (.streamRd i) s = .fault (.streamIndexOutOfContract i))

/-! ### Rules over all instructions -/

/-- `10_state.md` R34 and R33: only GET_CAM, GET_CRK, GET_TDC and RD_WORD change RESULT, only WRITE DATA changes DATA. -/
def Obligations.ResultAndDataHaveTheirWriters : Prop :=
  ∀ (i : Instr) (s t : State), Sys2Proof.Machine.exec i s = .next t →
    (t.result ≠ s.result → (∃ a, issued i = .getCam a) ∨ (∃ a, issued i = .getCrk a) ∨ (∃ a c, issued i = .getTdc a c) ∨
      ∃ a, issued i = .rdWord a) ∧
    (t.data ≠ s.data → ∃ v, i = .writeData v)

/-- `10_state.md` R53: DONE is set by the TDC step that ends a generation, cleared by an accepted GENERATE and at reset; no other instruction
writes it. -/
def Obligations.DoneHasItsWriters : Prop :=
  (∀ p : Params, (State.resetOf p).done = false) ∧
  ∀ (i : Instr) (s t : State), Sys2Proof.Machine.exec i s = .next t →
    (i = .tdcStep → t.phase = .idle → t.done = true) ∧
    (issued i = .generate → s.busy = false → s.cfgValid = true → t.done = false) ∧
    (t.done ≠ s.done → (i = .tdcStep ∧ t.phase = .idle ∧ t.done = true) ∨
      (issued i = .generate ∧ s.busy = false ∧ s.cfgValid = true ∧ t.done = false))

/-- `10_state.md` R54: CFG_VALID is set by VALIDATE alone, on a legal configuration, and cleared by accepted configuration writes alone. -/
def Obligations.CfgValidHasItsWriters : Prop :=
  ∀ (i : Instr) (s t : State), Sys2Proof.Machine.exec i s = .next t →
    (s.cfgValid = false → t.cfgValid = true → issued i = .validate ∧ s.ConfigLegal) ∧
    (s.cfgValid = true → t.cfgValid = false →
      (∃ v, i = .writeCrkCfg v) ∨ (∃ v, i = .writeCamCfg v) ∨ (∃ v, i = .writeTdcCfg v) ∨ (∃ k v, i = .writeCamEdge0 k v) ∨
        ∃ k v, i = .writeCamEdge16 k v) ∧
    (¬t.SameConfig s → t.cfgValid = false)

/-- `20_memory.md` R68 and R70: PMEM is written by SET_CAM, SET_CRK, SET_TDC, WR_WORD and the ENGINE's steps alone; every other instruction
leaves every bit as it was. -/
def Obligations.PmemHasItsWriters : Prop :=
  ∀ (i : Instr) (s t : State), Sys2Proof.Machine.exec i s = .next t → notEngine i = true →
    (∀ a l, issued i ≠ .setCam a l) → (∀ a l, issued i ≠ .setCrk a l) → (∀ a c l, issued i ≠ .setTdc a c l) →
    (∀ a, issued i ≠ .wrWord a) → t.pmem = s.pmem ∧ ∀ j b, t.bit j b = s.bit j b

/-- `60_exceptions.md` R266: what is refused with E_BUSY while BUSY = 1, and what is accepted. A stream-port read is accepted: of an element
whose bits are all defined it returns the element (where one is undefined the model faults, `20_memory.md` R64). -/
def Obligations.BusyRefusesAllButTheListed : Prop :=
  ∀ (i : Instr) (s : State), s.busy = true →
    ((∃ a l, issued i = .setCam a l) ∨ (∃ a, issued i = .getCam a) ∨ (∃ a l, issued i = .setCrk a l) ∨ (∃ a, issued i = .getCrk a) ∨
        (∃ a c l, issued i = .setTdc a c l) ∨ (∃ a c, issued i = .getTdc a c) ∨ (∃ a, issued i = .rdWord a) ∨
        (∃ a, issued i = .wrWord a) ∨ issued i = .validate ∨ issued i = .generate ∨ (∃ v, i = .writeCrkCfg v) ∨
        (∃ v, i = .writeCamCfg v) ∨ (∃ v, i = .writeTdcCfg v) ∨ (∃ k v, i = .writeCamEdge0 k v) ∨ (∃ k v, i = .writeCamEdge16 k v) ∨
        (∃ k v, i = .writeCamEdge20 k v) ∨ (∃ k v, i = .writeCamEdge24 k v) →
      Sys2Proof.Machine.exec i s = .next (s.recordError .busy)) ∧
    (i = .readCmd ∨ i = .readData ∨ i = .readResult ∨ i = .readStatus ∨ i = .readCrkCfg ∨ i = .readCamCfg ∨ i = .readTdcCfg ∨
        i = .readInfo ∨ (∃ k, i = .readCamEdge0 k) ∨ (∃ k, i = .readCamEdge16 k) ∨ (∃ k, i = .readCamEdge20 k) ∨
        (∃ k, i = .readCamEdge24 k) ∨ (∃ v, i = .writeData v) ∨ issued i = .nop →
      ∃ t, Sys2Proof.Machine.exec i s = .next t ∧ t.err = s.err ∧ t.errMulti = s.errMulti) ∧
    (issued i = .clrErr → ∃ t, Sys2Proof.Machine.exec i s = .next t ∧ t.err = .eNone ∧ t.errMulti = false) ∧
    (∀ w, issued i = .reservedOpc w → Sys2Proof.Machine.exec i s = .next (s.recordError .illegalCommand)) ∧
    (∀ n, i = .streamRd n → n < 7200 → (∀ b, b < s.params.width.bits → s.bit n b ≠ none) →
      ∃ v, Sys2Proof.Machine.exec i s = .next { s with streamOut := some v } ∧
        ∀ b, b < s.params.width.bits → s.bit n b = some (Level.ofBool (v.getLsbD b))) ∧
    ∀ n t, i = .streamRd n → Sys2Proof.Machine.exec i s = .next t → t = { s with streamOut := t.streamOut }

/-- `44_generate.md` R206 and `20_memory.md` R77: while BUSY = 1 no HOST or STREAM instruction changes the configuration, the ENGINE, PMEM,
CFG_VALID, DONE or RESULT. -/
def Obligations.BusyFreezesWhatTheEngineUses : Prop :=
  ∀ (i : Instr) (s t : State), s.busy = true → notEngine i = true → Sys2Proof.Machine.exec i s = .next t →
    t = { s with err := t.err, errMulti := t.errMulti, data := t.data, hostRead := t.hostRead, streamOut := t.streamOut }

/-! ### The invariant -/

/-- Every step keeps the invariant, from every state that has it, whichever agent moves. -/
def Obligations.EveryStepKeepsTheInvariant : Prop :=
  ∀ s t : State, s.Inv → Sys2Proof.Machine.step s = .next t → t.Inv

/-- The invariant holds after reset, for every legal set of parameters; the ENGINE registers' reset values play no part. -/
def Obligations.InvariantAfterReset : Prop :=
  State.reset.Inv ∧ ∀ p : Params, p.wf = true → (State.resetOf p).Inv

/-- With the invariant the block stops only where the spec says a model does: at a read of an undefined bit (`20_memory.md` R64) or at a
stream-port read past the last element (`45_config_control.md` R246). The ENGINE's steps always complete (`44_generate.md` R212). -/
def Obligations.StopsOnlyAtUndefinedReadsAndStreamOverruns : Prop :=
  ∀ s : State, s.Inv →
    (∀ f, Sys2Proof.Machine.step s = .fault f →
      (∃ i b, f = .undefinedRead i b ∧ s.bit i b = none) ∨ ∃ i, f = .streamIndexOutOfContract i ∧ 7200 ≤ i) ∧
    (∀ r, Sys2Proof.Machine.step s ≠ .refused r) ∧
    (s.phase = .main → ∃ t, Sys2Proof.Machine.exec .mainStep s = .next t) ∧
    (s.phase = .tdc → ∃ t, Sys2Proof.Machine.exec .tdcStep s = .next t)

/-! ### Configuration fields and derived quantities -/

/-- The fields of the configuration registers and the quantities derived from them, which the other statements speak of by name, spelled from
the registers' bits: `10_state.md` R37 to R40, R48 (`crk_first`, `gap_level`), R49 with its table of the six legal wheels, R50, R51 (the used
edges), `43_tdc.md` R181 (the positions) and `45_config_control.md` R231 to R234 (a legal configuration). -/
def Obligations.NamesFollowTheRegisters : Prop :=
  ∀ s : State,
    (s.toothCount = (s.crkCfg.extractLsb' 0 8).toNat ∧ s.missingCount = (s.crkCfg.extractLsb' 8 2).toNat ∧
      s.gapInv = s.crkCfg.getLsbD 16 ∧ s.firstLevel = (if s.camCfg.getLsbD 0 = true then .high else .low) ∧
      s.refToTdc0 = (s.tdcCfg.extractLsb' 0 16).toNat ∧ s.cylCount = (s.tdcCfg.extractLsb' 16 8).toNat) ∧
    ((∀ k (h : k < 20), s.camSlot k = s.camEdge[k] ∧ s.edge k = (s.camEdge[k].extractLsb' 0 16).toNat) ∧
      ∀ k, 20 ≤ k → s.camSlot k = 0x0000FFFF#32 ∧ s.edge k = 0xFFFF) ∧
    (s.usedEdges ≤ 20 ∧ (∀ k, k < s.usedEdges → s.edge k ≠ 0xFFFF) ∧ (s.usedEdges < 20 → s.edge s.usedEdges = 0xFFFF)) ∧
    (s.crkFirst = (if s.crkCfg.getLsbD 16 = true then .low else .high) ∧
      s.gapLevel = if s.crkCfg.getLsbD 16 = true then .high else .low) ∧
    (s.wheelLegal = true ↔
      (s.toothCount, s.missingCount, s.toothAngle, s.halfTooth, s.gapSpan, s.gapStart) ∈
        [(30, 1, 120, 60, 120, 3480), (30, 2, 120, 60, 240, 3360), (60, 1, 60, 30, 60, 3540), (60, 2, 60, 30, 120, 3480),
          (120, 1, 30, 15, 30, 3570), (120, 2, 30, 15, 60, 3540)]) ∧
    (s.halfTooth = 3600 / s.toothCount / 2 ∧ s.gapSpan = s.missingCount * (3600 / s.toothCount) ∧
      ∀ k, s.tdcPos k = (s.refToTdc0 + k * (7200 / s.cylCount)) % 7200) ∧
    (s.ConfigLegal ↔
      (s.cylCount ∈ s.params.supportedCyl ∧ 7200 % s.cylCount = 0) ∧ s.refToTdc0 < 7200 ∧
      (∀ k, k < s.usedEdges → s.edge k < 7200 ∧ (k = 0 ∨ s.edge (k - 1) < s.edge k)) ∧
      (s.toothCount = 30 ∨ s.toothCount = 60 ∨ s.toothCount = 120) ∧ (s.missingCount = 1 ∨ s.missingCount = 2))

/-! ### Duties of the environment -/

/-- `70_reset_and_hazards.md` R306 and R303: an environment that keeps its duties (log entry 20, whose deadlines are the model's choice) is
never refused with E_BUSY and never reads past element 7199, and its streamer starts at element 0 of a complete PMEM. `EnvView.Tracks` is the
invariant of the environment's past and the block: it holds after reset, and every dutiful step keeps it. -/
def Obligations.DutifulEnvironmentIsNeverBusyOrOverrun : Prop :=
  (∀ p : Params, EnvView.initial.Tracks (State.resetOf p)) ∧
  ∀ (v : EnvView) (s : State), v.Tracks s → s.DutiesKept v →
    (∀ t, Sys2Proof.Machine.step s = .next t → (v.afterStep s).Tracks t ∧ (t.err = .busy → s.err = .busy)) ∧
    (∀ n, Sys2Proof.Machine.step s ≠ .fault (.streamIndexOutOfContract n)) ∧
    (∀ n rest, s.agenda = .stream n :: rest → n < 7200 ∧ (v.streamNext = none → n = 0 ∧ s.busy = false ∧ s.done = true)) ∧
    ∀ i t, turnInstr (nextTurn s).1 (nextTurn s).2 = some i →
      Sys2Proof.Machine.exec i { (nextTurn s).2 with err := .eNone, errMulti := false } = .next t → t.err ≠ .busy
end

