-- ==== Sys2Proof/Laws/State.lean ====
section
/-! SUPPORT. Laws/State.lean: one lemma per field per named update of the state, so that no proof unfolds a record update. -/

namespace Sys2Proof.Machine

/-! ### recordError -/

@[simp] theorem recordError_params (e : Err) (s : State) : (s.recordError e).params = s.params := rfl
@[simp] theorem recordError_data (e : Err) (s : State) : (s.recordError e).data = s.data := rfl
@[simp] theorem recordError_result (e : Err) (s : State) : (s.recordError e).result = s.result := rfl
@[simp] theorem recordError_phase (e : Err) (s : State) : (s.recordError e).phase = s.phase := rfl
@[simp] theorem recordError_done (e : Err) (s : State) : (s.recordError e).done = s.done := rfl
@[simp] theorem recordError_cfgValid (e : Err) (s : State) : (s.recordError e).cfgValid = s.cfgValid := rfl
@[simp] theorem recordError_err (e : Err) (s : State) : (s.recordError e).err = if s.err = .eNone then e else s.err := rfl
@[simp] theorem recordError_errMulti (e : Err) (s : State) : (s.recordError e).errMulti = if s.err = .eNone then s.errMulti else true := rfl
@[simp] theorem recordError_crkCfg (e : Err) (s : State) : (s.recordError e).crkCfg = s.crkCfg := rfl
@[simp] theorem recordError_camCfg (e : Err) (s : State) : (s.recordError e).camCfg = s.camCfg := rfl
@[simp] theorem recordError_tdcCfg (e : Err) (s : State) : (s.recordError e).tdcCfg = s.tdcCfg := rfl
@[simp] theorem recordError_camEdge (e : Err) (s : State) : (s.recordError e).camEdge = s.camEdge := rfl
@[simp] theorem recordError_cursor (e : Err) (s : State) : (s.recordError e).cursor = s.cursor := rfl
@[simp] theorem recordError_camLvl (e : Err) (s : State) : (s.recordError e).camLvl = s.camLvl := rfl
@[simp] theorem recordError_camIdx (e : Err) (s : State) : (s.recordError e).camIdx = s.camIdx := rfl
@[simp] theorem recordError_crkLvl (e : Err) (s : State) : (s.recordError e).crkLvl = s.crkLvl := rfl
@[simp] theorem recordError_tdcK (e : Err) (s : State) : (s.recordError e).tdcK = s.tdcK := rfl
@[simp] theorem recordError_pmem (e : Err) (s : State) : (s.recordError e).pmem = s.pmem := rfl
@[simp] theorem recordError_agenda (e : Err) (s : State) : (s.recordError e).agenda = s.agenda := rfl
@[simp] theorem recordError_hostRead (e : Err) (s : State) : (s.recordError e).hostRead = s.hostRead := rfl
@[simp] theorem recordError_streamOut (e : Err) (s : State) : (s.recordError e).streamOut = s.streamOut := rfl

/-! ### clearError -/

@[simp] theorem clearError_params (s : State) : (s.clearError).params = s.params := rfl
@[simp] theorem clearError_data (s : State) : (s.clearError).data = s.data := rfl
@[simp] theorem clearError_result (s : State) : (s.clearError).result = s.result := rfl
@[simp] theorem clearError_phase (s : State) : (s.clearError).phase = s.phase := rfl
@[simp] theorem clearError_done (s : State) : (s.clearError).done = s.done := rfl
@[simp] theorem clearError_cfgValid (s : State) : (s.clearError).cfgValid = s.cfgValid := rfl
@[simp] theorem clearError_err (s : State) : (s.clearError).err = .eNone := rfl
@[simp] theorem clearError_errMulti (s : State) : (s.clearError).errMulti = false := rfl
@[simp] theorem clearError_crkCfg (s : State) : (s.clearError).crkCfg = s.crkCfg := rfl
@[simp] theorem clearError_camCfg (s : State) : (s.clearError).camCfg = s.camCfg := rfl
@[simp] theorem clearError_tdcCfg (s : State) : (s.clearError).tdcCfg = s.tdcCfg := rfl
@[simp] theorem clearError_camEdge (s : State) : (s.clearError).camEdge = s.camEdge := rfl
@[simp] theorem clearError_cursor (s : State) : (s.clearError).cursor = s.cursor := rfl
@[simp] theorem clearError_camLvl (s : State) : (s.clearError).camLvl = s.camLvl := rfl
@[simp] theorem clearError_camIdx (s : State) : (s.clearError).camIdx = s.camIdx := rfl
@[simp] theorem clearError_crkLvl (s : State) : (s.clearError).crkLvl = s.crkLvl := rfl
@[simp] theorem clearError_tdcK (s : State) : (s.clearError).tdcK = s.tdcK := rfl
@[simp] theorem clearError_pmem (s : State) : (s.clearError).pmem = s.pmem := rfl
@[simp] theorem clearError_agenda (s : State) : (s.clearError).agenda = s.agenda := rfl
@[simp] theorem clearError_hostRead (s : State) : (s.clearError).hostRead = s.hostRead := rfl
@[simp] theorem clearError_streamOut (s : State) : (s.clearError).streamOut = s.streamOut := rfl

/-! ### setResult -/

@[simp] theorem setResult_params (s : State) (v : Word) : (s.setResult v).params = s.params := rfl
@[simp] theorem setResult_data (s : State) (v : Word) : (s.setResult v).data = s.data := rfl
@[simp] theorem setResult_result (s : State) (v : Word) : (s.setResult v).result = v := rfl
@[simp] theorem setResult_phase (s : State) (v : Word) : (s.setResult v).phase = s.phase := rfl
@[simp] theorem setResult_done (s : State) (v : Word) : (s.setResult v).done = s.done := rfl
@[simp] theorem setResult_cfgValid (s : State) (v : Word) : (s.setResult v).cfgValid = s.cfgValid := rfl
@[simp] theorem setResult_err (s : State) (v : Word) : (s.setResult v).err = s.err := rfl
@[simp] theorem setResult_errMulti (s : State) (v : Word) : (s.setResult v).errMulti = s.errMulti := rfl
@[simp] theorem setResult_crkCfg (s : State) (v : Word) : (s.setResult v).crkCfg = s.crkCfg := rfl
@[simp] theorem setResult_camCfg (s : State) (v : Word) : (s.setResult v).camCfg = s.camCfg := rfl
@[simp] theorem setResult_tdcCfg (s : State) (v : Word) : (s.setResult v).tdcCfg = s.tdcCfg := rfl
@[simp] theorem setResult_camEdge (s : State) (v : Word) : (s.setResult v).camEdge = s.camEdge := rfl
@[simp] theorem setResult_cursor (s : State) (v : Word) : (s.setResult v).cursor = s.cursor := rfl
@[simp] theorem setResult_camLvl (s : State) (v : Word) : (s.setResult v).camLvl = s.camLvl := rfl
@[simp] theorem setResult_camIdx (s : State) (v : Word) : (s.setResult v).camIdx = s.camIdx := rfl
@[simp] theorem setResult_crkLvl (s : State) (v : Word) : (s.setResult v).crkLvl = s.crkLvl := rfl
@[simp] theorem setResult_tdcK (s : State) (v : Word) : (s.setResult v).tdcK = s.tdcK := rfl
@[simp] theorem setResult_pmem (s : State) (v : Word) : (s.setResult v).pmem = s.pmem := rfl
@[simp] theorem setResult_agenda (s : State) (v : Word) : (s.setResult v).agenda = s.agenda := rfl
@[simp] theorem setResult_hostRead (s : State) (v : Word) : (s.setResult v).hostRead = s.hostRead := rfl
@[simp] theorem setResult_streamOut (s : State) (v : Word) : (s.setResult v).streamOut = s.streamOut := rfl

/-! ### setData -/

@[simp] theorem setData_params (s : State) (v : Word) : (s.setData v).params = s.params := rfl
@[simp] theorem setData_data (s : State) (v : Word) : (s.setData v).data = v := rfl
@[simp] theorem setData_result (s : State) (v : Word) : (s.setData v).result = s.result := rfl
@[simp] theorem setData_phase (s : State) (v : Word) : (s.setData v).phase = s.phase := rfl
@[simp] theorem setData_done (s : State) (v : Word) : (s.setData v).done = s.done := rfl
@[simp] theorem setData_cfgValid (s : State) (v : Word) : (s.setData v).cfgValid = s.cfgValid := rfl
@[simp] theorem setData_err (s : State) (v : Word) : (s.setData v).err = s.err := rfl
@[simp] theorem setData_errMulti (s : State) (v : Word) : (s.setData v).errMulti = s.errMulti := rfl
@[simp] theorem setData_crkCfg (s : State) (v : Word) : (s.setData v).crkCfg = s.crkCfg := rfl
@[simp] theorem setData_camCfg (s : State) (v : Word) : (s.setData v).camCfg = s.camCfg := rfl
@[simp] theorem setData_tdcCfg (s : State) (v : Word) : (s.setData v).tdcCfg = s.tdcCfg := rfl
@[simp] theorem setData_camEdge (s : State) (v : Word) : (s.setData v).camEdge = s.camEdge := rfl
@[simp] theorem setData_cursor (s : State) (v : Word) : (s.setData v).cursor = s.cursor := rfl
@[simp] theorem setData_camLvl (s : State) (v : Word) : (s.setData v).camLvl = s.camLvl := rfl
@[simp] theorem setData_camIdx (s : State) (v : Word) : (s.setData v).camIdx = s.camIdx := rfl
@[simp] theorem setData_crkLvl (s : State) (v : Word) : (s.setData v).crkLvl = s.crkLvl := rfl
@[simp] theorem setData_tdcK (s : State) (v : Word) : (s.setData v).tdcK = s.tdcK := rfl
@[simp] theorem setData_pmem (s : State) (v : Word) : (s.setData v).pmem = s.pmem := rfl
@[simp] theorem setData_agenda (s : State) (v : Word) : (s.setData v).agenda = s.agenda := rfl
@[simp] theorem setData_hostRead (s : State) (v : Word) : (s.setData v).hostRead = s.hostRead := rfl
@[simp] theorem setData_streamOut (s : State) (v : Word) : (s.setData v).streamOut = s.streamOut := rfl

/-! ### returnToHost -/

@[simp] theorem returnToHost_params (s : State) (v : Word) : (s.returnToHost v).params = s.params := rfl
@[simp] theorem returnToHost_data (s : State) (v : Word) : (s.returnToHost v).data = s.data := rfl
@[simp] theorem returnToHost_result (s : State) (v : Word) : (s.returnToHost v).result = s.result := rfl
@[simp] theorem returnToHost_phase (s : State) (v : Word) : (s.returnToHost v).phase = s.phase := rfl
@[simp] theorem returnToHost_done (s : State) (v : Word) : (s.returnToHost v).done = s.done := rfl
@[simp] theorem returnToHost_cfgValid (s : State) (v : Word) : (s.returnToHost v).cfgValid = s.cfgValid := rfl
@[simp] theorem returnToHost_err (s : State) (v : Word) : (s.returnToHost v).err = s.err := rfl
@[simp] theorem returnToHost_errMulti (s : State) (v : Word) : (s.returnToHost v).errMulti = s.errMulti := rfl
@[simp] theorem returnToHost_crkCfg (s : State) (v : Word) : (s.returnToHost v).crkCfg = s.crkCfg := rfl
@[simp] theorem returnToHost_camCfg (s : State) (v : Word) : (s.returnToHost v).camCfg = s.camCfg := rfl
@[simp] theorem returnToHost_tdcCfg (s : State) (v : Word) : (s.returnToHost v).tdcCfg = s.tdcCfg := rfl
@[simp] theorem returnToHost_camEdge (s : State) (v : Word) : (s.returnToHost v).camEdge = s.camEdge := rfl
@[simp] theorem returnToHost_cursor (s : State) (v : Word) : (s.returnToHost v).cursor = s.cursor := rfl
@[simp] theorem returnToHost_camLvl (s : State) (v : Word) : (s.returnToHost v).camLvl = s.camLvl := rfl
@[simp] theorem returnToHost_camIdx (s : State) (v : Word) : (s.returnToHost v).camIdx = s.camIdx := rfl
@[simp] theorem returnToHost_crkLvl (s : State) (v : Word) : (s.returnToHost v).crkLvl = s.crkLvl := rfl
@[simp] theorem returnToHost_tdcK (s : State) (v : Word) : (s.returnToHost v).tdcK = s.tdcK := rfl
@[simp] theorem returnToHost_pmem (s : State) (v : Word) : (s.returnToHost v).pmem = s.pmem := rfl
@[simp] theorem returnToHost_agenda (s : State) (v : Word) : (s.returnToHost v).agenda = s.agenda := rfl
@[simp] theorem returnToHost_hostRead (s : State) (v : Word) : (s.returnToHost v).hostRead = some v := rfl
@[simp] theorem returnToHost_streamOut (s : State) (v : Word) : (s.returnToHost v).streamOut = s.streamOut := rfl

/-! ### driveStream -/

@[simp] theorem driveStream_params (s : State) (v : Word) : (s.driveStream v).params = s.params := rfl
@[simp] theorem driveStream_data (s : State) (v : Word) : (s.driveStream v).data = s.data := rfl
@[simp] theorem driveStream_result (s : State) (v : Word) : (s.driveStream v).result = s.result := rfl
@[simp] theorem driveStream_phase (s : State) (v : Word) : (s.driveStream v).phase = s.phase := rfl
@[simp] theorem driveStream_done (s : State) (v : Word) : (s.driveStream v).done = s.done := rfl
@[simp] theorem driveStream_cfgValid (s : State) (v : Word) : (s.driveStream v).cfgValid = s.cfgValid := rfl
@[simp] theorem driveStream_err (s : State) (v : Word) : (s.driveStream v).err = s.err := rfl
@[simp] theorem driveStream_errMulti (s : State) (v : Word) : (s.driveStream v).errMulti = s.errMulti := rfl
@[simp] theorem driveStream_crkCfg (s : State) (v : Word) : (s.driveStream v).crkCfg = s.crkCfg := rfl
@[simp] theorem driveStream_camCfg (s : State) (v : Word) : (s.driveStream v).camCfg = s.camCfg := rfl
@[simp] theorem driveStream_tdcCfg (s : State) (v : Word) : (s.driveStream v).tdcCfg = s.tdcCfg := rfl
@[simp] theorem driveStream_camEdge (s : State) (v : Word) : (s.driveStream v).camEdge = s.camEdge := rfl
@[simp] theorem driveStream_cursor (s : State) (v : Word) : (s.driveStream v).cursor = s.cursor := rfl
@[simp] theorem driveStream_camLvl (s : State) (v : Word) : (s.driveStream v).camLvl = s.camLvl := rfl
@[simp] theorem driveStream_camIdx (s : State) (v : Word) : (s.driveStream v).camIdx = s.camIdx := rfl
@[simp] theorem driveStream_crkLvl (s : State) (v : Word) : (s.driveStream v).crkLvl = s.crkLvl := rfl
@[simp] theorem driveStream_tdcK (s : State) (v : Word) : (s.driveStream v).tdcK = s.tdcK := rfl
@[simp] theorem driveStream_pmem (s : State) (v : Word) : (s.driveStream v).pmem = s.pmem := rfl
@[simp] theorem driveStream_agenda (s : State) (v : Word) : (s.driveStream v).agenda = s.agenda := rfl
@[simp] theorem driveStream_hostRead (s : State) (v : Word) : (s.driveStream v).hostRead = s.hostRead := rfl
@[simp] theorem driveStream_streamOut (s : State) (v : Word) : (s.driveStream v).streamOut = some v := rfl

/-! ### invalidate -/

@[simp] theorem invalidate_params (s : State) : (s.invalidate).params = s.params := rfl
@[simp] theorem invalidate_data (s : State) : (s.invalidate).data = s.data := rfl
@[simp] theorem invalidate_result (s : State) : (s.invalidate).result = s.result := rfl
@[simp] theorem invalidate_phase (s : State) : (s.invalidate).phase = s.phase := rfl
@[simp] theorem invalidate_done (s : State) : (s.invalidate).done = s.done := rfl
@[simp] theorem invalidate_cfgValid (s : State) : (s.invalidate).cfgValid = false := rfl
@[simp] theorem invalidate_err (s : State) : (s.invalidate).err = s.err := rfl
@[simp] theorem invalidate_errMulti (s : State) : (s.invalidate).errMulti = s.errMulti := rfl
@[simp] theorem invalidate_crkCfg (s : State) : (s.invalidate).crkCfg = s.crkCfg := rfl
@[simp] theorem invalidate_camCfg (s : State) : (s.invalidate).camCfg = s.camCfg := rfl
@[simp] theorem invalidate_tdcCfg (s : State) : (s.invalidate).tdcCfg = s.tdcCfg := rfl
@[simp] theorem invalidate_camEdge (s : State) : (s.invalidate).camEdge = s.camEdge := rfl
@[simp] theorem invalidate_cursor (s : State) : (s.invalidate).cursor = s.cursor := rfl
@[simp] theorem invalidate_camLvl (s : State) : (s.invalidate).camLvl = s.camLvl := rfl
@[simp] theorem invalidate_camIdx (s : State) : (s.invalidate).camIdx = s.camIdx := rfl
@[simp] theorem invalidate_crkLvl (s : State) : (s.invalidate).crkLvl = s.crkLvl := rfl
@[simp] theorem invalidate_tdcK (s : State) : (s.invalidate).tdcK = s.tdcK := rfl
@[simp] theorem invalidate_pmem (s : State) : (s.invalidate).pmem = s.pmem := rfl
@[simp] theorem invalidate_agenda (s : State) : (s.invalidate).agenda = s.agenda := rfl
@[simp] theorem invalidate_hostRead (s : State) : (s.invalidate).hostRead = s.hostRead := rfl
@[simp] theorem invalidate_streamOut (s : State) : (s.invalidate).streamOut = s.streamOut := rfl

/-! ### setElem -/

@[simp] theorem setElem_params (s : State) (i : Nat) (e : Elem) : (s.setElem i e).params = s.params := rfl
@[simp] theorem setElem_data (s : State) (i : Nat) (e : Elem) : (s.setElem i e).data = s.data := rfl
@[simp] theorem setElem_result (s : State) (i : Nat) (e : Elem) : (s.setElem i e).result = s.result := rfl
@[simp] theorem setElem_phase (s : State) (i : Nat) (e : Elem) : (s.setElem i e).phase = s.phase := rfl
@[simp] theorem setElem_done (s : State) (i : Nat) (e : Elem) : (s.setElem i e).done = s.done := rfl
@[simp] theorem setElem_cfgValid (s : State) (i : Nat) (e : Elem) : (s.setElem i e).cfgValid = s.cfgValid := rfl
@[simp] theorem setElem_err (s : State) (i : Nat) (e : Elem) : (s.setElem i e).err = s.err := rfl
@[simp] theorem setElem_errMulti (s : State) (i : Nat) (e : Elem) : (s.setElem i e).errMulti = s.errMulti := rfl
@[simp] theorem setElem_crkCfg (s : State) (i : Nat) (e : Elem) : (s.setElem i e).crkCfg = s.crkCfg := rfl
@[simp] theorem setElem_camCfg (s : State) (i : Nat) (e : Elem) : (s.setElem i e).camCfg = s.camCfg := rfl
@[simp] theorem setElem_tdcCfg (s : State) (i : Nat) (e : Elem) : (s.setElem i e).tdcCfg = s.tdcCfg := rfl
@[simp] theorem setElem_camEdge (s : State) (i : Nat) (e : Elem) : (s.setElem i e).camEdge = s.camEdge := rfl
@[simp] theorem setElem_cursor (s : State) (i : Nat) (e : Elem) : (s.setElem i e).cursor = s.cursor := rfl
@[simp] theorem setElem_camLvl (s : State) (i : Nat) (e : Elem) : (s.setElem i e).camLvl = s.camLvl := rfl
@[simp] theorem setElem_camIdx (s : State) (i : Nat) (e : Elem) : (s.setElem i e).camIdx = s.camIdx := rfl
@[simp] theorem setElem_crkLvl (s : State) (i : Nat) (e : Elem) : (s.setElem i e).crkLvl = s.crkLvl := rfl
@[simp] theorem setElem_tdcK (s : State) (i : Nat) (e : Elem) : (s.setElem i e).tdcK = s.tdcK := rfl
@[simp] theorem setElem_pmem (s : State) (i : Nat) (e : Elem) : (s.setElem i e).pmem = Memory.put i e s.pmem := rfl
@[simp] theorem setElem_agenda (s : State) (i : Nat) (e : Elem) : (s.setElem i e).agenda = s.agenda := rfl
@[simp] theorem setElem_hostRead (s : State) (i : Nat) (e : Elem) : (s.setElem i e).hostRead = s.hostRead := rfl
@[simp] theorem setElem_streamOut (s : State) (i : Nat) (e : Elem) : (s.setElem i e).streamOut = s.streamOut := rfl

/-! ### generateAccept -/

@[simp] theorem generateAccept_params (s : State) : (s.generateAccept).params = s.params := rfl
@[simp] theorem generateAccept_data (s : State) : (s.generateAccept).data = s.data := rfl
@[simp] theorem generateAccept_result (s : State) : (s.generateAccept).result = s.result := rfl
@[simp] theorem generateAccept_phase (s : State) : (s.generateAccept).phase = .main := rfl
@[simp] theorem generateAccept_done (s : State) : (s.generateAccept).done = false := rfl
@[simp] theorem generateAccept_cfgValid (s : State) : (s.generateAccept).cfgValid = s.cfgValid := rfl
@[simp] theorem generateAccept_err (s : State) : (s.generateAccept).err = s.err := rfl
@[simp] theorem generateAccept_errMulti (s : State) : (s.generateAccept).errMulti = s.errMulti := rfl
@[simp] theorem generateAccept_crkCfg (s : State) : (s.generateAccept).crkCfg = s.crkCfg := rfl
@[simp] theorem generateAccept_camCfg (s : State) : (s.generateAccept).camCfg = s.camCfg := rfl
@[simp] theorem generateAccept_tdcCfg (s : State) : (s.generateAccept).tdcCfg = s.tdcCfg := rfl
@[simp] theorem generateAccept_camEdge (s : State) : (s.generateAccept).camEdge = s.camEdge := rfl
@[simp] theorem generateAccept_cursor (s : State) : (s.generateAccept).cursor = 0#13 := rfl
@[simp] theorem generateAccept_camLvl (s : State) : (s.generateAccept).camLvl = s.firstLevel := rfl
@[simp] theorem generateAccept_camIdx (s : State) : (s.generateAccept).camIdx = 0#5 := rfl
@[simp] theorem generateAccept_crkLvl (s : State) : (s.generateAccept).crkLvl = s.crkFirst := rfl
@[simp] theorem generateAccept_tdcK (s : State) : (s.generateAccept).tdcK = 0#3 := rfl
@[simp] theorem generateAccept_pmem (s : State) : (s.generateAccept).pmem = s.pmem := rfl
@[simp] theorem generateAccept_agenda (s : State) : (s.generateAccept).agenda = s.agenda := rfl
@[simp] theorem generateAccept_hostRead (s : State) : (s.generateAccept).hostRead = s.hostRead := rfl
@[simp] theorem generateAccept_streamOut (s : State) : (s.generateAccept).streamOut = s.streamOut := rfl

/-! ### crankAdvance -/

@[simp] theorem crankAdvance_params (a : Nat) (s : State) : (crankAdvance a s).params = s.params := rfl
@[simp] theorem crankAdvance_data (a : Nat) (s : State) : (crankAdvance a s).data = s.data := rfl
@[simp] theorem crankAdvance_result (a : Nat) (s : State) : (crankAdvance a s).result = s.result := rfl
@[simp] theorem crankAdvance_phase (a : Nat) (s : State) : (crankAdvance a s).phase = s.phase := rfl
@[simp] theorem crankAdvance_done (a : Nat) (s : State) : (crankAdvance a s).done = s.done := rfl
@[simp] theorem crankAdvance_cfgValid (a : Nat) (s : State) : (crankAdvance a s).cfgValid = s.cfgValid := rfl
@[simp] theorem crankAdvance_err (a : Nat) (s : State) : (crankAdvance a s).err = s.err := rfl
@[simp] theorem crankAdvance_errMulti (a : Nat) (s : State) : (crankAdvance a s).errMulti = s.errMulti := rfl
@[simp] theorem crankAdvance_crkCfg (a : Nat) (s : State) : (crankAdvance a s).crkCfg = s.crkCfg := rfl
@[simp] theorem crankAdvance_camCfg (a : Nat) (s : State) : (crankAdvance a s).camCfg = s.camCfg := rfl
@[simp] theorem crankAdvance_tdcCfg (a : Nat) (s : State) : (crankAdvance a s).tdcCfg = s.tdcCfg := rfl
@[simp] theorem crankAdvance_camEdge (a : Nat) (s : State) : (crankAdvance a s).camEdge = s.camEdge := rfl
@[simp] theorem crankAdvance_cursor (a : Nat) (s : State) : (crankAdvance a s).cursor = s.cursor := rfl
@[simp] theorem crankAdvance_camLvl (a : Nat) (s : State) : (crankAdvance a s).camLvl = s.camLvl := rfl
@[simp] theorem crankAdvance_camIdx (a : Nat) (s : State) : (crankAdvance a s).camIdx = s.camIdx := rfl
@[simp] theorem crankAdvance_crkLvl (a : Nat) (s : State) : (crankAdvance a s).crkLvl = crankNext a s.halfTooth s.gapSpan s.crkFirst s.crkLvl := rfl
@[simp] theorem crankAdvance_tdcK (a : Nat) (s : State) : (crankAdvance a s).tdcK = s.tdcK := rfl
@[simp] theorem crankAdvance_pmem (a : Nat) (s : State) : (crankAdvance a s).pmem = s.pmem := rfl
@[simp] theorem crankAdvance_agenda (a : Nat) (s : State) : (crankAdvance a s).agenda = s.agenda := rfl
@[simp] theorem crankAdvance_hostRead (a : Nat) (s : State) : (crankAdvance a s).hostRead = s.hostRead := rfl
@[simp] theorem crankAdvance_streamOut (a : Nat) (s : State) : (crankAdvance a s).streamOut = s.streamOut := rfl

end Sys2Proof.Machine
end

