-- ==== Sys2Proof/Laws/Memory.lean ====
section
/-! SUPPORT. Laws/Memory.lean: the laws of elements and of PMEM: read after write, and that every operation keeps the canonical form. -/

namespace Sys2Proof.Machine

/-! ### Elements -/

@[simp] theorem undefined_bit (b : Nat) : Elem.undefined.bit b = none := by simp [Elem.bit, Elem.undefined]

theorem one_shift_getLsbD (b c : Nat) (hb : b < 32) : (1#32 <<< b).getLsbD c = decide (c = b) := by
  by_cases hc : c = b
  · subst hc; simp [hb]
  · by_cases hlt : c < b
    · simp [hlt]; omega
    · have : c - b ≠ 0 := by omega
      simp [hc]; omega

theorem setBit_defined_getLsbD (e : Elem) (b c : Nat) (x : Level) (hb : b < 32) :
    (e.setBit b x).defined.getLsbD c = (e.defined.getLsbD c || decide (c = b)) := by
  simp only [Elem.setBit, BitVec.getLsbD_or, one_shift_getLsbD b c hb]

theorem setBit_value_getLsbD (e : Elem) (b c : Nat) (x : Level) (hb : b < 32) :
    (e.setBit b x).value.getLsbD c = if c = b then x.toBool else e.value.getLsbD c := by
  cases x with
  | low =>
    simp only [Elem.setBit, BitVec.getLsbD_and, BitVec.getLsbD_not, one_shift_getLsbD b c hb, Level.toBool]
    by_cases hc : c = b
    · simp [hc]
    · by_cases h32 : c < 32
      · simp [hc, h32]
      · simp [hc, BitVec.getLsbD_of_ge _ _ (Nat.le_of_not_lt h32)]
  | high =>
    simp only [Elem.setBit, BitVec.getLsbD_or, one_shift_getLsbD b c hb, Level.toBool]
    by_cases hc : c = b <;> simp [hc]

@[simp] theorem ofBool_toBool (x : Level) : Level.ofBool x.toBool = x := by cases x <;> rfl
@[simp] theorem toBool_ofBool (b : Bool) : (Level.ofBool b).toBool = b := by cases b <;> rfl
@[simp] theorem not_not_level (x : Level) : x.not.not = x := by cases x <;> rfl

/-- Read after write, bit by bit (`40_bitfield.md` R129). -/
theorem setBit_bit (e : Elem) (b c : Nat) (x : Level) (hb : b < 32) :
    (e.setBit b x).bit c = if c = b then some x else e.bit c := by
  unfold Elem.bit
  rw [setBit_defined_getLsbD _ _ _ _ hb, setBit_value_getLsbD _ _ _ _ hb]
  by_cases hc : c = b <;> simp [hc]

theorem width_le (w : Width) : w.bits ≤ 32 := by cases w <;> decide
theorem width_ge (w : Width) : 8 ≤ w.bits := by cases w <;> decide

theorem mask_getLsbD (w : Width) (b : Nat) : w.mask.getLsbD b = decide (b < w.bits) := by
  by_cases h : b < 32
  · have H : ∀ c : Fin 32, w.mask.getLsbD c.val = decide (c.val < w.bits) := by cases w <;> decide
    exact H ⟨b, h⟩
  · have := width_le w
    have h2 : ¬ b < w.bits := by omega
    simp [h2, BitVec.getLsbD_of_ge _ _ (Nat.le_of_not_lt h)]

/-- Every bit of an element written whole is defined (`20_memory.md` R64). -/
theorem ofWord_bit (w : Width) (v : Word) (b : Nat) :
    (Elem.ofWord w v).bit b = if b < w.bits then some (Level.ofBool (v.getLsbD b)) else none := by
  unfold Elem.bit Elem.ofWord
  simp only [BitVec.getLsbD_and, mask_getLsbD]
  by_cases h : b < w.bits <;> simp [h]

theorem andNot_eq_zero_iff (x y : Word) : x &&& ~~~y = 0#32 ↔ ∀ b, x.getLsbD b = true → y.getLsbD b = true := by
  constructor
  · intro h b hx
    have hb : b < 32 := by
      by_contra hge
      rw [BitVec.getLsbD_of_ge _ _ (Nat.le_of_not_lt hge)] at hx
      cases hx
    have h2 : (x &&& ~~~y).getLsbD b = false := by rw [h]; simp
    simp only [BitVec.getLsbD_and, BitVec.getLsbD_not, hx, hb] at h2
    simpa using h2
  · intro h
    apply BitVec.eq_of_getLsbD_eq
    intro b hb
    have h3 := h b
    simp only [BitVec.getLsbD_and, BitVec.getLsbD_not, BitVec.getLsbD_zero]
    cases hx : x.getLsbD b with
    | false => simp
    | true => simp [h3 hx]

theorem elem_wf_iff (w : Width) (e : Elem) :
    e.wf w = true ↔ e.defined ≠ 0#32 ∧ (∀ b, e.defined.getLsbD b = true → b < w.bits) ∧
      (∀ b, e.value.getLsbD b = true → e.defined.getLsbD b = true) := by
  simp only [Elem.wf, Bool.and_eq_true, bne_iff_ne, beq_iff_eq, andNot_eq_zero_iff, mask_getLsbD, decide_eq_true_eq]
  tauto

/-- A written bit keeps the form of a listed element. -/
theorem setBit_wf (w : Width) (e : Elem) (b : Nat) (x : Level) (hb : b < w.bits) (he : e = Elem.undefined ∨ e.wf w = true) :
    (e.setBit b x).wf w = true := by
  have h32 : b < 32 := Nat.lt_of_lt_of_le hb (width_le w)
  have hd : ∀ c, e.defined.getLsbD c = true → c < w.bits := by
    rcases he with rfl | he
    · simp [Elem.undefined]
    · exact ((elem_wf_iff w e).1 he).2.1
  have hv : ∀ c, e.value.getLsbD c = true → e.defined.getLsbD c = true := by
    rcases he with rfl | he
    · simp [Elem.undefined]
    · exact ((elem_wf_iff w e).1 he).2.2
  rw [elem_wf_iff]
  refine ⟨fun h0 => ?_, fun c hc => ?_, fun c hc => ?_⟩
  · have := setBit_defined_getLsbD e b b x h32
    rw [h0] at this; simp at this
  · rw [setBit_defined_getLsbD _ _ _ _ h32] at hc
    simp only [Bool.or_eq_true, decide_eq_true_eq] at hc
    rcases hc with hc | rfl
    · exact hd c hc
    · exact hb
  · rw [setBit_value_getLsbD _ _ _ _ h32] at hc
    rw [setBit_defined_getLsbD _ _ _ _ h32]
    by_cases hcb : c = b
    · simp [hcb]
    · simp only [hcb, if_false] at hc
      simp [hv c hc]

theorem ofWord_wf (w : Width) (v : Word) : (Elem.ofWord w v).wf w = true := by
  rw [elem_wf_iff]
  refine ⟨?_, fun b hb => ?_, fun b hb => ?_⟩
  · show w.mask ≠ 0#32
    cases w <;> decide
  · simpa [Elem.ofWord, mask_getLsbD] using hb
  · have h : v.getLsbD b = true ∧ b < w.bits := by simpa [Elem.ofWord, mask_getLsbD] using hb
    simpa [Elem.ofWord, mask_getLsbD] using h.2

theorem wf_ne_undefined {w : Width} {e : Elem} (h : e.wf w = true) : e ≠ Elem.undefined := by
  rintro rfl
  cases w <;> revert h <;> decide

/-- The lowest undefined bit is undefined, and there is none exactly when every bit is defined (`20_memory.md` R64). -/
theorem firstUndefined_eq_none (e : Elem) (n : Nat) : e.firstUndefined n = none ↔ ∀ b, b < n → e.defined.getLsbD b = true := by
  simp [Elem.firstUndefined, List.find?_eq_none]

theorem firstUndefined_eq_some (e : Elem) (n b : Nat) (h : e.firstUndefined n = some b) :
    b < n ∧ e.bit b = none := by
  have h1 := List.find?_some h
  have h2 := List.mem_of_find?_eq_some h
  refine ⟨by simpa using h2, ?_⟩
  unfold Elem.bit
  simp_all

/-! ### PMEM -/

theorem lookup_insert (i j : Nat) (e : Elem) (m : Memory) :
    Memory.lookup (Memory.insert i e m) j = if j = i then e else Memory.lookup m j := by
  induction m with
  | nil => by_cases h : i = j <;> simp [Memory.insert, Memory.lookup, h, eq_comm]
  | cons p m ih =>
    obtain ⟨k, f⟩ := p
    simp only [Memory.insert]
    split
    · by_cases h : j = i
      · simp [Memory.lookup, h]
      · have h' : ¬ i = j := fun h2 => h h2.symm
        simp [Memory.lookup, h, h']
    · split
      · rename_i hk
        subst hk
        by_cases h : j = i
        · simp [Memory.lookup, h]
        · have h' : ¬ i = j := fun h2 => h h2.symm
          simp [Memory.lookup, h, h']
      · rename_i hlt hne
        simp only [Memory.lookup]
        by_cases hk : k = j
        · subst hk
          have : ¬ k = i := fun h2 => hne h2.symm
          simp [this]
        · simp [hk, ih]

theorem lookup_erase (i j : Nat) (m : Memory) :
    Memory.lookup (Memory.erase i m) j = if j = i then Elem.undefined else Memory.lookup m j := by
  induction m with
  | nil => simp [Memory.erase, Memory.lookup]
  | cons p m ih =>
    obtain ⟨k, f⟩ := p
    unfold Memory.erase at ih ⊢
    by_cases hk : k = i
    · subst hk
      by_cases h : j = k
      · subst h
        simpa using ih
      · have h' : ¬ k = j := fun h2 => h h2.symm
        simp only [List.filter, bne_self_eq_false, Memory.lookup, h', if_false, h] at ih ⊢
        exact ih
    · have : (k != i) = true := by simpa using hk
      simp only [List.filter, this, Memory.lookup]
      by_cases h : k = j
      · subst h; simp [hk]
      · simp only [h, if_false]; exact ih

/-- Read after write over PMEM, for any list. -/
theorem lookup_put (i j : Nat) (e : Elem) (m : Memory) :
    Memory.lookup (Memory.put i e m) j = if j = i then e else Memory.lookup m j := by
  unfold Memory.put
  split
  · rename_i h; rw [lookup_erase]; simp [h]
  · exact lookup_insert i j e m

theorem risingFrom_mono {w : Width} {lo lo' : Nat} {m : Memory} (h : lo' ≤ lo) (hm : Memory.risingFrom w lo m = true) :
    Memory.risingFrom w lo' m = true := by
  cases m with
  | nil => rfl
  | cons p m =>
    obtain ⟨k, f⟩ := p
    simp only [Memory.risingFrom, Bool.and_eq_true, decide_eq_true_eq] at hm ⊢
    exact ⟨⟨⟨by omega, hm.1.1.2⟩, hm.1.2⟩, hm.2⟩

theorem risingFrom_insert {w : Width} {lo i : Nat} {e : Elem} {m : Memory} (hlo : lo ≤ i) (hi : i < elementCount)
    (he : e.wf w = true) (hm : Memory.risingFrom w lo m = true) : Memory.risingFrom w lo (Memory.insert i e m) = true := by
  induction m generalizing lo with
  | nil => simp [Memory.insert, Memory.risingFrom, hlo, hi, he]
  | cons p m ih =>
    obtain ⟨k, f⟩ := p
    have hm' := hm
    simp only [Memory.risingFrom, Bool.and_eq_true, decide_eq_true_eq] at hm'
    simp only [Memory.insert]
    split
    · rename_i hlt
      simp only [Memory.risingFrom, Bool.and_eq_true, decide_eq_true_eq]
      exact ⟨⟨⟨hlo, hi⟩, he⟩, ⟨⟨by omega, hm'.1.1.2⟩, hm'.1.2⟩, hm'.2⟩
    · split
      · rename_i hk; subst hk
        simp only [Memory.risingFrom, Bool.and_eq_true, decide_eq_true_eq]
        exact ⟨⟨⟨hlo, hi⟩, he⟩, hm'.2⟩
      · simp only [Memory.risingFrom, Bool.and_eq_true, decide_eq_true_eq]
        exact ⟨hm'.1, ih (by omega) hm'.2⟩

theorem risingFrom_erase {w : Width} {lo i : Nat} {m : Memory} (hm : Memory.risingFrom w lo m = true) :
    Memory.risingFrom w lo (Memory.erase i m) = true := by
  induction m generalizing lo with
  | nil => rfl
  | cons p m ih =>
    obtain ⟨k, f⟩ := p
    simp only [Memory.risingFrom, Bool.and_eq_true, decide_eq_true_eq] at hm
    unfold Memory.erase at ih ⊢
    by_cases hk : k = i
    · subst hk
      simp only [List.filter, bne_self_eq_false]
      exact risingFrom_mono (by omega) (ih hm.2)
    · have : (k != i) = true := by simpa using hk
      simp only [List.filter, this, Memory.risingFrom, Bool.and_eq_true, decide_eq_true_eq]
      exact ⟨hm.1, ih hm.2⟩

/-- Every write keeps the canonical form. -/
theorem put_wf {w : Width} {i : Nat} {e : Elem} {m : Memory} (hi : i < elementCount) (he : e = Elem.undefined ∨ e.wf w = true)
    (hm : Memory.wf w m = true) : Memory.wf w (Memory.put i e m) = true := by
  unfold Memory.put
  split
  · exact risingFrom_erase hm
  · rename_i h
    exact risingFrom_insert (Nat.zero_le i) hi (he.resolve_left h) hm

/-- What a canonical PMEM holds at an index has the form of an element, or is undefined. -/
theorem lookup_wf {w : Width} {lo : Nat} {m : Memory} (hm : Memory.risingFrom w lo m = true) (i : Nat) :
    Memory.lookup m i = Elem.undefined ∨ (Memory.lookup m i).wf w = true := by
  induction m generalizing lo with
  | nil => exact .inl rfl
  | cons p m ih =>
    obtain ⟨k, f⟩ := p
    simp only [Memory.risingFrom, Bool.and_eq_true] at hm
    by_cases h : k = i
    · simp [Memory.lookup, h, hm.1.2]
    · simp only [Memory.lookup, h, if_false]; exact ih hm.2

theorem lookup_below {w : Width} {lo i : Nat} {m : Memory} (hm : Memory.risingFrom w lo m = true) (h : i < lo) :
    Memory.lookup m i = Elem.undefined := by
  induction m generalizing lo with
  | nil => rfl
  | cons p m ih =>
    obtain ⟨k, f⟩ := p
    simp only [Memory.risingFrom, Bool.and_eq_true, decide_eq_true_eq] at hm
    have : ¬ k = i := by omega
    simp only [Memory.lookup, this, if_false]
    exact ih hm.2 (by omega)

/-- Equal contents are equal lists: the canonical form is one. -/
theorem canonical_ext {w : Width} {m m' : Memory} (hm : Memory.wf w m = true) (hm' : Memory.wf w m' = true)
    (h : ∀ i, Memory.lookup m i = Memory.lookup m' i) : m = m' := by
  suffices H : ∀ lo, Memory.risingFrom w lo m = true → Memory.risingFrom w lo m' = true → m = m' from H 0 hm hm'
  clear hm hm'
  induction m generalizing m' with
  | nil =>
    intro lo _ h'
    cases m' with
    | nil => rfl
    | cons p m' =>
      obtain ⟨k, f⟩ := p
      simp only [Memory.risingFrom, Bool.and_eq_true] at h'
      have := h k
      simp only [Memory.lookup, if_true] at this
      exact absurd this.symm (wf_ne_undefined h'.1.2)
  | cons p m ih =>
    obtain ⟨k, f⟩ := p
    intro lo h1 h2
    have h1' := h1
    simp only [Memory.risingFrom, Bool.and_eq_true, decide_eq_true_eq] at h1'
    cases m' with
    | nil =>
      have := h k
      simp only [Memory.lookup, if_true] at this
      exact absurd this (wf_ne_undefined h1'.1.2)
    | cons q m' =>
      obtain ⟨k', f'⟩ := q
      have h2' := h2
      simp only [Memory.risingFrom, Bool.and_eq_true, decide_eq_true_eq] at h2'
      have hkk : k = k' := by
        rcases Nat.lt_trichotomy k k' with hlt | heq | hgt
        · have hk := h k
          have hne : ¬ k' = k := by omega
          simp only [Memory.lookup, if_true, hne, if_false] at hk
          rw [lookup_below h2'.2 (by omega)] at hk
          exact absurd hk (wf_ne_undefined h1'.1.2)
        · exact heq
        · have hk := h k'
          have hne : ¬ k = k' := by omega
          simp only [Memory.lookup, if_true, hne, if_false] at hk
          rw [lookup_below h1'.2 (by omega)] at hk
          exact absurd hk.symm (wf_ne_undefined h2'.1.2)
      subst hkk
      have hf : f = f' := by simpa [Memory.lookup] using h k
      subst hf
      congr 1
      refine ih (fun i => ?_) (k + 1) h1'.2 h2'.2
      have hi := h i
      by_cases hik : k = i
      · subst hik
        rw [lookup_below h1'.2 (by omega), lookup_below h2'.2 (by omega)]
      · simpa [Memory.lookup, hik] using hi

/-! ### The state's view -/

@[simp] theorem setElem_elem (s : State) (i j : Nat) (e : Elem) : (s.setElem i e).elem j = if j = i then e else s.elem j :=
  lookup_put i j e s.pmem

/-- Two states with equal PMEM read alike. -/
theorem bit_congr {s t : State} (h : t.pmem = s.pmem) (i b : Nat) : t.bit i b = s.bit i b := by
  unfold State.bit State.elem; rw [h]

/-- A bit write changes that bit and no other (`20_memory.md` R64). -/
theorem setElem_setBit_bit (s : State) (i b j c : Nat) (x : Level) (hb : b < 32) :
    (s.setElem i ((s.elem i).setBit b x)).bit j c = if j = i ∧ c = b then some x else s.bit j c := by
  unfold State.bit
  rw [setElem_elem]
  by_cases hj : j = i
  · subst hj; simp [setBit_bit _ _ _ _ hb]
  · simp [hj]

/-- A whole-element write defines every bit of that element and changes no other (`20_memory.md` R64). -/
theorem setElem_ofWord_bit (s : State) (i j c : Nat) (v : Word) :
    (s.setElem i (Elem.ofWord s.params.width v)).bit j c =
      if j = i then (if c < s.params.width.bits then some (Level.ofBool (v.getLsbD c)) else none) else s.bit j c := by
  unfold State.bit
  rw [setElem_elem]
  by_cases hj : j = i
  · simp [hj, ofWord_bit]
  · simp [hj]

/-! ### Equal bits, equal PMEM -/

theorem lookup_above {w : Width} {lo : Nat} {m : Memory} (hm : Memory.risingFrom w lo m = true) (i : Nat) (hi : 7200 ≤ i) :
    Memory.lookup m i = Elem.undefined := by
  induction m generalizing lo with
  | nil => rfl
  | cons p m ih =>
    obtain ⟨k, f⟩ := p
    simp only [Memory.risingFrom, Bool.and_eq_true, decide_eq_true_eq, elementCount] at hm
    have : ¬ k = i := by omega
    simp only [Memory.lookup, this, if_false]; exact ih hm.2

/-- Elements in their form are equal when their bits are. -/
theorem elem_ext {w : Width} {e f : Elem} (he : e = Elem.undefined ∨ e.wf w = true) (hf : f = Elem.undefined ∨ f.wf w = true)
    (h : ∀ b, b < w.bits → e.bit b = f.bit b) : e = f := by
  have prop : ∀ g : Elem, (g = Elem.undefined ∨ g.wf w = true) →
      (∀ b, g.defined.getLsbD b = true → b < w.bits) ∧ (∀ b, g.value.getLsbD b = true → g.defined.getLsbD b = true) := by
    rintro g (rfl | hg)
    · simp [Elem.undefined]
    · exact ((elem_wf_iff w g).1 hg).2
  obtain ⟨e1, e2⟩ := prop e he
  obtain ⟨f1, f2⟩ := prop f hf
  have hb : ∀ b, e.bit b = f.bit b := by
    intro b
    by_cases hb : b < w.bits
    · exact h b hb
    · have x1 : e.defined.getLsbD b = false := by
        cases hh : e.defined.getLsbD b with
        | false => rfl
        | true => exact absurd (e1 b hh) hb
      have x2 : f.defined.getLsbD b = false := by
        cases hh : f.defined.getLsbD b with
        | false => rfl
        | true => exact absurd (f1 b hh) hb
      simp [Elem.bit, x1, x2]
  have hd : e.defined = f.defined := by
    apply BitVec.eq_of_getLsbD_eq
    intro b _
    have := hb b
    unfold Elem.bit at this
    cases x1 : e.defined.getLsbD b <;> cases x2 : f.defined.getLsbD b <;> simp_all
  have hv : e.value = f.value := by
    apply BitVec.eq_of_getLsbD_eq
    intro b _
    have hbb := hb b
    unfold Elem.bit at hbb
    rw [hd] at hbb
    cases x2 : f.defined.getLsbD b with
    | true =>
      rw [x2] at hbb; simp at hbb
      have : ∀ p q : Bool, Level.ofBool p = Level.ofBool q → p = q := by decide
      exact this _ _ hbb
    | false =>
      have y1 : e.value.getLsbD b = false := by
        cases hh : e.value.getLsbD b with
        | false => rfl
        | true => have := e2 b hh; rw [hd, x2] at this; cases this
      have y2 : f.value.getLsbD b = false := by
        cases hh : f.value.getLsbD b with
        | false => rfl
        | true => have := f2 b hh; rw [x2] at this; cases this
      rw [y1, y2]
  cases e; cases f; simp_all

/-- Two canonical PMEMs of one instance are equal when all their bits are. -/
theorem pmem_ext {s t : State} (hw : s.params = t.params) (hs : Memory.wf s.params.width s.pmem = true)
    (ht : Memory.wf t.params.width t.pmem = true) (h : ∀ a b, a < 7200 → b < s.params.width.bits → s.bit a b = t.bit a b) :
    s.pmem = t.pmem := by
  rw [← hw] at ht
  apply canonical_ext hs ht
  intro i
  by_cases hi : i < 7200
  · exact elem_ext (lookup_wf hs i) (lookup_wf ht i) (fun b hb => h i b hi hb)
  · rw [lookup_above hs i (by omega), lookup_above ht i (by omega)]

end Sys2Proof.Machine
end

