-- ==== Sys2Proof/Laws/Ops.lean ====
section
/-! SUPPORT. Laws/Ops.lean: for each shared operation, what it answers, so that no proof unfolds it. -/

namespace Sys2Proof.Machine

/-! ### BUSY -/

theorem busy_eq (s : State) : s.busy = decide (s.phase ≠ .idle) := by unfold State.busy; cases s.phase <;> rfl

theorem busy_false_iff (s : State) : s.busy = false ↔ s.phase = .idle := by rw [busy_eq]; simp

@[simp] theorem recordError_busy (e : Err) (s : State) : (s.recordError e).busy = s.busy := rfl

/-! ### PMEM primitives -/

theorem memWriteBit_ok {s : State} {i b : Nat} (x : Level) (hi : i < elementCount) (hb : b < s.params.width.bits) :
    s.memWriteBit i b x = .ok (s.setElem i ((s.elem i).setBit b x)) := by
  unfold State.memWriteBit
  rw [if_neg (by omega), if_neg (by omega)]

/-- What a bit write that answers has done. -/
theorem memWriteBit_eq_ok {s t : State} {i b : Nat} {x : Level} (h : s.memWriteBit i b x = .ok t) :
    i < elementCount ∧ b < s.params.width.bits ∧ t = s.setElem i ((s.elem i).setBit b x) := by
  unfold State.memWriteBit at h
  split at h
  · cases h
  · split at h
    · cases h
    · cases h; exact ⟨by omega, by omega, rfl⟩

theorem memWrite_ok {s : State} {i : Nat} (v : Word) (hi : i < elementCount) :
    s.memWrite i v = .ok (s.setElem i (Elem.ofWord s.params.width v)) := by
  unfold State.memWrite
  rw [if_neg (by omega)]

theorem memReadBit_some {s : State} {i b : Nat} {x : Level} (hi : i < elementCount) (hb : b < s.params.width.bits)
    (h : s.bit i b = some x) : s.memReadBit i b = .ok x := by
  unfold State.memReadBit
  rw [if_neg (by omega), if_neg (by omega), h]

theorem memReadBit_none {s : State} {i b : Nat} (hi : i < elementCount) (hb : b < s.params.width.bits) (h : s.bit i b = none) :
    s.memReadBit i b = .error (.undefinedRead i b) := by
  unfold State.memReadBit
  rw [if_neg (by omega), if_neg (by omega), h]

theorem bit_ne_none_iff (s : State) (i b : Nat) : s.bit i b ≠ none ↔ (s.elem i).defined.getLsbD b = true := by
  unfold State.bit Elem.bit
  split <;> simp_all

/-- The answer of a whole-element read: the element where every bit is defined, else a fault that names an undefined bit. -/
theorem memRead_cases {s : State} {i : Nat} (hi : i < elementCount) :
    ((∀ b, b < s.params.width.bits → s.bit i b ≠ none) ∧ s.memRead i = .ok ((s.elem i).value &&& s.params.width.mask)) ∨
      ∃ b, b < s.params.width.bits ∧ s.bit i b = none ∧ s.memRead i = .error (.undefinedRead i b) := by
  unfold State.memRead
  rw [if_neg (by omega)]
  cases h : (s.elem i).firstUndefined s.params.width.bits with
  | none => exact .inl ⟨fun b hb => (bit_ne_none_iff s i b).2 ((firstUndefined_eq_none _ _).1 h b hb), rfl⟩
  | some b => exact .inr ⟨b, (firstUndefined_eq_some _ _ _ h).1, (firstUndefined_eq_some _ _ _ h).2, rfl⟩

/-- The bits of the word that a whole-element read returns. -/
theorem readValue_bit {s : State} {i b : Nat} (hb : b < s.params.width.bits) (h : s.bit i b ≠ none) :
    s.bit i b = some (Level.ofBool (((s.elem i).value &&& s.params.width.mask).getLsbD b)) := by
  have hd := (bit_ne_none_iff s i b).1 h
  unfold State.bit Elem.bit
  simp [hd, mask_getLsbD, hb]

theorem readValue_high (s : State) (i b : Nat) (hb : s.params.width.bits ≤ b) :
    ((s.elem i).value &&& s.params.width.mask).getLsbD b = false := by
  have : ¬ b < s.params.width.bits := by omega
  simp [mask_getLsbD, this]

/-! ### Checks -/

theorem whenIdle_busy {s : State} (k : Result) (h : s.busy = true) : whenIdle s k = .next (s.recordError .busy) := by
  unfold whenIdle; rw [if_pos h]; rfl

theorem whenIdle_idle {s : State} (k : Result) (h : s.busy = false) : whenIdle s k = k := by
  unfold whenIdle; rw [h]; rfl

theorem withElement_busy {s : State} (addr : BitVec 13) (k : Result) (h : s.busy = true) :
    withElement addr s k = .next (s.recordError .busy) := whenIdle_busy _ h

theorem withElement_out {s : State} {addr : BitVec 13} (k : Result) (h : s.busy = false) (ha : elementCount ≤ addr.toNat) :
    withElement addr s k = .next (s.recordError .addressOutOfRange) := by
  unfold withElement; rw [whenIdle_idle _ h, if_pos ha]; rfl

theorem withElement_ok {s : State} {addr : BitVec 13} (k : Result) (h : s.busy = false) (ha : addr.toNat < elementCount) :
    withElement addr s k = k := by
  unfold withElement; rw [whenIdle_idle _ h, if_neg (by omega)]

/-- The three answers of an element command's checks. -/
theorem withElement_cases (addr : BitVec 13) (s : State) (k : Result) :
    (∃ e, e ≠ .eNone ∧ withElement addr s k = .next (s.recordError e)) ∨
      (s.busy = false ∧ addr.toNat < elementCount ∧ withElement addr s k = k) := by
  cases hb : s.busy with
  | true => exact .inl ⟨.busy, by decide, withElement_busy addr k hb⟩
  | false =>
    by_cases ha : addr.toNat < elementCount
    · exact .inr ⟨rfl, ha, withElement_ok k hb ha⟩
    · exact .inl ⟨.addressOutOfRange, by decide, withElement_out k hb (by omega)⟩

theorem withCylinder_cases (addr : BitVec 13) (cyl : BitVec 3) (s : State) (k : Result) :
    (∃ e, e ≠ .eNone ∧ withCylinder addr cyl s k = .next (s.recordError e)) ∨
      (s.busy = false ∧ addr.toNat < elementCount ∧ cyl.toNat < tdcBits ∧ withCylinder addr cyl s k = k) := by
  unfold withCylinder
  rcases withElement_cases addr s (if cyl.toNat ≥ tdcBits then raise .invalidCylinderIndex s else k) with h | ⟨h1, h2, h3⟩
  · exact .inl h
  · rw [h3]
    by_cases hc : cyl.toNat < tdcBits
    · exact .inr ⟨h1, h2, hc, if_neg (by omega)⟩
    · exact .inl ⟨.invalidCylinderIndex, by decide, if_pos (by omega)⟩

theorem levelWord_eq (x : Level) : levelWord x = if x = .high then 1#32 else 0#32 := by cases x <;> rfl

/-- What a GET answers. -/
theorem getBit_some {s : State} {i b : Nat} {x : Level} (hi : i < elementCount) (hb : b < s.params.width.bits)
    (h : s.bit i b = some x) : getBit i b s = .next (s.setResult (levelWord x)) := by
  unfold getBit; rw [memReadBit_some hi hb h]

theorem getBit_none {s : State} {i b : Nat} (hi : i < elementCount) (hb : b < s.params.width.bits) (h : s.bit i b = none) :
    getBit i b s = .fault (.undefinedRead i b) := by
  unfold getBit; rw [memReadBit_none hi hb h]

theorem getBit_cases {s : State} {i b : Nat} (hi : i < elementCount) (hb : b < s.params.width.bits) :
    (∃ v, getBit i b s = .next (s.setResult v)) ∨ (s.bit i b = none ∧ getBit i b s = .fault (.undefinedRead i b)) := by
  cases h : s.bit i b with
  | none => exact .inr ⟨rfl, getBit_none hi hb h⟩
  | some x => exact .inl ⟨_, getBit_some hi hb h⟩

/-- The three answers of a configuration write. -/
theorem writeConfig_cases (mask v : Word) (s stored : State) :
    (∃ e, e ≠ .eNone ∧ writeConfig mask v s stored = .next (s.recordError e)) ∨
      (s.busy = false ∧ v &&& ~~~mask = 0#32 ∧ writeConfig mask v s stored = .next stored.invalidate) := by
  unfold writeConfig
  cases hb : s.busy with
  | true => exact .inl ⟨.busy, by decide, whenIdle_busy _ hb⟩
  | false =>
    rw [whenIdle_idle _ hb]
    by_cases hm : v &&& ~~~mask = 0#32
    · exact .inr ⟨rfl, hm, if_neg (by simpa using hm)⟩
    · exact .inl ⟨.illegalAccess, by decide, if_pos hm⟩

/-! ### Cam slots -/

theorem camSlot_eq (s : State) (k : Nat) (h : k < 20) : s.camSlot k = s.camEdge[k] := by
  unfold State.camSlot; simp [h]

theorem camSlot_set (s : State) (k j : Nat) (v : Word) (hk : k < 20) :
    State.camSlot { s with camEdge := s.camEdge.setIfInBounds k v } j = if j = k then v else s.camSlot j := by
  unfold State.camSlot
  rw [Vector.getElem?_setIfInBounds]
  by_cases h : k = j
  · simp [h, h ▸ hk]
  · have h' : ¬ j = k := fun h2 => h h2.symm
    simp [h, h']

end Sys2Proof.Machine
end

