-- ==== Sys2Proof/Laws/Decode.lean ====
section
/-! SUPPORT. Laws/Decode.lean: the laws of command words and of register offsets, from which decode and encode are compared. -/

namespace Sys2Proof

/-! ### Fields of a word -/

/-- A command word is its five fields (`30_encoding.md` R81). -/
theorem word_split (w : Word) :
    w = w.extractLsb' 28 4 ++ w.extractLsb' 17 11 ++ w.extractLsb' 16 1 ++ w.extractLsb' 13 3 ++ w.extractLsb' 0 13 := by
  apply BitVec.eq_of_getLsbD_eq
  intro i hi
  simp only [BitVec.getLsbD_append, BitVec.getLsbD_extractLsb']
  split_ifs <;> (rw [decide_eq_true (by omega), Bool.true_and]; congr 1; omega)

/-- The fields of a word put together from fields. -/
theorem fields_append (o : BitVec 4) (r : BitVec 11) (l : BitVec 1) (c : BitVec 3) (a : BitVec 13) :
    (o ++ r ++ l ++ c ++ a : Word).extractLsb' 28 4 = o ∧ (o ++ r ++ l ++ c ++ a : Word).extractLsb' 17 11 = r ∧
    (o ++ r ++ l ++ c ++ a : Word).extractLsb' 16 1 = l ∧ (o ++ r ++ l ++ c ++ a : Word).extractLsb' 13 3 = c ∧
    (o ++ r ++ l ++ c ++ a : Word).extractLsb' 0 13 = a := by
  refine ⟨?_, ?_, ?_, ?_, ?_⟩ <;> 
  · apply BitVec.eq_of_getLsbD_eq
    intro i hi
    simp only [BitVec.getLsbD_append, BitVec.getLsbD_extractLsb', hi, decide_true, Bool.true_and]
    split_ifs <;> first | omega | (congr 1; omega)

/-- Masking a word masks its fields. -/
theorem append_and (o mo : BitVec 4) (r mr : BitVec 11) (l ml : BitVec 1) (c mc : BitVec 3) (a ma : BitVec 13) :
   (o ++ r ++ l ++ c ++ a : Word) &&& (mo ++ mr ++ ml ++ mc ++ ma : Word) = (o &&& mo) ++ (r &&& mr) ++ (l &&& ml) ++ (c &&& mc) ++ (a &&& ma) := by
  simp only [BitVec.and_append]
/-- Words are equal when their fields are. -/
theorem append_inj (o mo : BitVec 4) (r mr : BitVec 11) (l ml : BitVec 1) (c mc : BitVec 3) (a ma : BitVec 13) :
   (o ++ r ++ l ++ c ++ a : Word) = (mo ++ mr ++ ml ++ mc ++ ma : Word) ↔ o = mo ∧ r = mr ∧ l = ml ∧ c = mc ∧ a = ma := by
  constructor
  · intro h
    have h1 := fields_append o r l c a
    have h2 := fields_append mo mr ml mc ma
    rw [h] at h1
    exact ⟨h1.1.symm.trans h2.1, h1.2.1.symm.trans h2.2.1, h1.2.2.1.symm.trans h2.2.2.1,
      h1.2.2.2.1.symm.trans h2.2.2.2.1, h1.2.2.2.2.symm.trans h2.2.2.2.2⟩
  · rintro ⟨rfl, rfl, rfl, rfl, rfl⟩; rfl
/-! ### Opcodes -/

/-- The number of an opcode (`30_encoding.md` R83). -/
def Opcode.number : Opcode → BitVec 4
  | .nop => 0x0#4 | .setCam => 0x1#4 | .getCam => 0x2#4 | .setCrk => 0x3#4 | .getCrk => 0x4#4 | .setTdc => 0x5#4
  | .getTdc => 0x6#4 | .rdWord => 0x7#4 | .wrWord => 0x8#4 | .validate => 0x9#4 | .generate => 0xA#4 | .clrErr => 0xB#4

/-- The LVL, CYL and ADDR bits that the mask of an opcode covers: all of a field it does not use, none of one it uses. -/
def Opcode.lvlMask : Opcode → BitVec 1
  | .setCam | .setCrk | .setTdc => 0#1
  | .nop | .getCam | .getCrk | .getTdc | .rdWord | .wrWord | .validate | .generate | .clrErr => 1#1
def Opcode.cylMask : Opcode → BitVec 3
  | .setTdc | .getTdc => 0#3
  | .nop | .setCam | .getCam | .setCrk | .getCrk | .rdWord | .wrWord | .validate | .generate | .clrErr => 7#3
def Opcode.addrMask : Opcode → BitVec 13
  | .setCam | .getCam | .setCrk | .getCrk | .setTdc | .getTdc | .rdWord | .wrWord => 0#13
  | .nop | .validate | .generate | .clrErr => 8191#13

theorem maskWord_fields (op : Opcode) :
    op.maskWord = (15#4 ++ 2047#11 ++ op.lvlMask ++ op.cylMask ++ op.addrMask : Word) := by cases op <;> decide

theorem matchWord_fields (op : Opcode) : op.matchWord = (op.number ++ 0#11 ++ 0#1 ++ 0#3 ++ 0#13 : Word) := by cases op <;> decide

theorem opcodeOfNumber_iff (o : BitVec 4) (op : Opcode) : opcodeOfNumber o.toNat = some op ↔ o = op.number := by
  cases op <;> revert o <;> decide

theorem opcodeOfNumber_none_iff (o : BitVec 4) : opcodeOfNumber o.toNat = none ↔ 12 ≤ o.toNat := by
  revert o; decide

/-- The field checks that the mask of an opcode makes (`30_encoding.md` R84). -/
def Opcode.fieldsOk (op : Opcode) (w : Word) : Prop :=
  w.extractLsb' 17 11 = 0#11 ∧ w.extractLsb' 16 1 &&& op.lvlMask = 0#1 ∧ w.extractLsb' 13 3 &&& op.cylMask = 0#3 ∧
    w.extractLsb' 0 13 &&& op.addrMask = 0#13

theorem and_mask_iff (op : Opcode) (w : Word) : w &&& op.maskWord = op.matchWord ↔ w.extractLsb' 28 4 = op.number ∧ op.fieldsOk w := by
  conv_lhs => rw [word_split w]
  rw [maskWord_fields, matchWord_fields, append_and, append_inj]
  have h15 : ∀ x : BitVec 4, x &&& 15#4 = x := by decide
  have h2047 : w.extractLsb' 17 11 &&& 2047#11 = w.extractLsb' 17 11 := by
    have : (2047#11 : BitVec 11) = BitVec.allOnes 11 := by decide
    rw [this, BitVec.and_allOnes]
  rw [h15, h2047]
  rfl

theorem commandOf_of_opcode {w : Word} {op : Opcode} (h : opcodeOfNumber (w.extractLsb' 28 4).toNat = some op) :
    commandOf w = if w &&& op.maskWord = op.matchWord then some op else none := by
  unfold commandOf opcField; rw [h]

theorem commandOf_of_reserved {w : Word} (h : 12 ≤ (w.extractLsb' 28 4).toNat) : commandOf w = none := by
  unfold commandOf opcField; rw [(opcodeOfNumber_none_iff _).2 h]

/-- What a word spells (`30_encoding.md` R83, R86), by its fields. -/
theorem commandOf_iff (w : Word) (op : Opcode) : commandOf w = some op ↔ w.extractLsb' 28 4 = op.number ∧ op.fieldsOk w := by
  constructor
  · intro hc
    cases h : opcodeOfNumber (w.extractLsb' 28 4).toNat with
    | none => rw [commandOf_of_reserved ((opcodeOfNumber_none_iff _).1 h)] at hc; cases hc
    | some op' =>
      rw [commandOf_of_opcode h] at hc
      split at hc
      · rename_i h1; cases hc; exact (and_mask_iff _ _).1 h1
      · cases hc
  · intro h
    rw [commandOf_of_opcode ((opcodeOfNumber_iff _ op).2 h.1), if_pos ((and_mask_iff _ _).2 h)]

theorem and_addrMask (op : Opcode) (x : BitVec 13) : x &&& op.addrMask = 0#13 ↔ usesAddr op.number = true ∨ x = 0#13 := by
  have hA : x &&& 8191#13 = x := by
    have : (8191#13 : BitVec 13) = BitVec.allOnes 13 := by decide
    rw [this, BitVec.and_allOnes]
  cases op <;> simp [Opcode.addrMask, Opcode.number, usesAddr, hA]

theorem and_cylMask (op : Opcode) (x : BitVec 3) : x &&& op.cylMask = 0#3 ↔ usesCyl op.number = true ∨ x = 0#3 := by
  cases op <;> revert x <;> decide

theorem and_lvlMask (op : Opcode) (x : BitVec 1) : x &&& op.lvlMask = 0#1 ↔ usesLvl op.number = true ∨ x = 0#1 := by
  cases op <;> revert x <;> decide

/-- A word spells no command by R84 and R85's fields exactly when its opcode is reserved or a field check of its opcode fails. -/
theorem spellsNoCommand_iff (w : Word) :
    spellsNoCommand w = true ↔ 12 ≤ (w.extractLsb' 28 4).toNat ∨ w.extractLsb' 17 11 ≠ 0#11 ∨
      (usesAddr (w.extractLsb' 28 4) = false ∧ w.extractLsb' 0 13 ≠ 0#13) ∨
      (usesCyl (w.extractLsb' 28 4) = false ∧ w.extractLsb' 13 3 ≠ 0#3) ∨
      (usesLvl (w.extractLsb' 28 4) = false ∧ w.extractLsb' 16 1 ≠ 0#1) := by
  unfold spellsNoCommand
  simp only [Bool.or_eq_true, Bool.and_eq_true, decide_eq_true_eq, bne_iff_ne, Bool.not_eq_true', or_assoc]
  rfl

/-- A word spells no command by R86's decoder exactly when it does by R84 and R85's fields. -/
theorem commandOf_none_iff (w : Word) : commandOf w = none ↔ spellsNoCommand w = true := by
  rw [spellsNoCommand_iff]
  cases h : opcodeOfNumber (w.extractLsb' 28 4).toNat with
  | none =>
    have h12 := (opcodeOfNumber_none_iff _).1 h
    exact iff_of_true (commandOf_of_reserved h12) (.inl h12)
  | some op =>
    have ho := (opcodeOfNumber_iff _ _).1 h
    have h12 : ¬ 12 ≤ (w.extractLsb' 28 4).toNat := fun hge => by
      rw [(opcodeOfNumber_none_iff _).2 hge] at h; cases h
    have hc : commandOf w = none ↔ ¬ op.fieldsOk w := by
      rw [commandOf_of_opcode h]
      by_cases hf : op.fieldsOk w
      · simp [(and_mask_iff op w).2 ⟨ho, hf⟩, hf]
      · have : ¬ w &&& op.maskWord = op.matchWord := fun hm => hf ((and_mask_iff op w).1 hm).2
        simp [this, hf]
    rw [hc]
    unfold Opcode.fieldsOk
    rw [and_addrMask, and_cylMask, and_lvlMask, ho]
    have hb : ∀ x : Bool, x = false ↔ ¬ x = true := by decide
    rw [hb, hb, hb]
    rw [ho] at h12
    tauto

/-! ### Command words put together -/

theorem commandWord_fields (o : BitVec 4) (l : Level) (c : BitVec 3) (a : BitVec 13) :
    (commandWord o l c a).extractLsb' 28 4 = o ∧ (commandWord o l c a).extractLsb' 17 11 = 0#11 ∧
    (commandWord o l c a).extractLsb' 16 1 = BitVec.ofBool l.toBool ∧ (commandWord o l c a).extractLsb' 13 3 = c ∧
    (commandWord o l c a).extractLsb' 0 13 = a := fields_append o 0#11 (BitVec.ofBool l.toBool) c a

theorem bit16_of_field (w : Word) : w.getLsbD 16 = (w.extractLsb' 16 1).getLsbD 0 := by
  simp

@[simp] theorem commandWord_lvl (o : BitVec 4) (l : Level) (c : BitVec 3) (a : BitVec 13) : lvlField (commandWord o l c a) = l := by
  unfold lvlField
  rw [bit16_of_field, (commandWord_fields o l c a).2.2.1]
  cases l <;> rfl

@[simp] theorem commandWord_cyl (o : BitVec 4) (l : Level) (c : BitVec 3) (a : BitVec 13) : cylField (commandWord o l c a) = c :=
  (commandWord_fields o l c a).2.2.2.1

@[simp] theorem commandWord_addr (o : BitVec 4) (l : Level) (c : BitVec 3) (a : BitVec 13) : addrField (commandWord o l c a) = a :=
  (commandWord_fields o l c a).2.2.2.2

/-- The word of an opcode whose unused fields are 0 spells that opcode. -/
theorem commandOf_commandWord (op : Opcode) (l : Level) (c : BitVec 3) (a : BitVec 13)
    (hl : BitVec.ofBool l.toBool &&& op.lvlMask = 0#1) (hc : c &&& op.cylMask = 0#3) (ha : a &&& op.addrMask = 0#13) :
    commandOf (commandWord op.number l c a) = some op := by
  obtain ⟨h1, h2, h3, h4, h5⟩ := commandWord_fields op.number l c a
  rw [commandOf_iff]
  unfold Opcode.fieldsOk
  rw [h1, h2, h3, h4, h5]
  exact ⟨rfl, rfl, hl, hc, ha⟩

/-- A word is the command word of its own fields when RSV is 0. -/
theorem commandWord_of_fields (w : Word) (h : w.extractLsb' 17 11 = 0#11) :
    commandWord (w.extractLsb' 28 4) (lvlField w) (cylField w) (addrField w) = w := by
  conv_rhs => rw [word_split w]
  unfold commandWord lvlField cylField addrField
  rw [h, bit16_of_field]
  congr 3
  simp only [Machine.toBool_ofBool]
  generalize w.extractLsb' 16 1 = x
  revert x; decide

/-! ### Register offsets -/

theorem aligned_iff (off : BitVec 8) : off.toNat % 4 = 0 ↔ off.extractLsb' 0 2 = 0#2 := by
  revert off; decide

end Sys2Proof
end

