-- ==== Sys2Proof/Laws/Exec.lean ====
section
/-! SUPPORT. Laws/Exec.lean: what every instruction can do, said once: the effects of the HOST's and STREAM's instructions, and the next
state of the ENGINE's steps. -/

namespace Sys2Proof.Machine

/-! ### The HOST's and STREAM's instructions -/

/-- The effects an instruction of HOST or STREAM has when it answers a next state; `i` is the instruction issued. -/
inductive HostStep (s : State) : Instr → State → Prop where
  /-- An error recorded, and nothing else. -/
  | raised {i : Instr} (e : Err) (he : e ≠ .eNone) (hi : i ≠ .clrErr) (hn : i ≠ .nop) : HostStep s i (s.recordError e)
  /-- An access that raises E_ILLEGAL_ACCESS and returns 0. -/
  | raisedRead {i : Instr}
      (hi : (∃ k, i = .unmapped20 .read k) ∨ (∃ k, i = .unmappedC0 .read k) ∨ ∃ size off, i = .misaligned .read size off) :
      HostStep s i ((s.recordError .illegalAccess).returnToHost 0x00000000#32)
  | nop : HostStep s .nop s
  | clrErr : HostStep s .clrErr s.clearError
  /-- One PMEM bit written. -/
  | setBit {i : Instr} (a b : Nat) (x : Level) (idle : s.busy = false) (ha : a < elementCount) (hb : b < 8)
      (hi : (∃ a l, i = .setCam a l) ∨ (∃ a l, i = .setCrk a l) ∨ ∃ a c l, i = .setTdc a c l) :
      HostStep s i (s.setElem a ((s.elem a).setBit b x))
  | wrWord (addr : BitVec 13) (idle : s.busy = false) (ha : addr.toNat < elementCount) :
      HostStep s (.wrWord addr) (s.setElem addr.toNat (Elem.ofWord s.params.width s.data))
  /-- RESULT written. -/
  | result {i : Instr} (v : Word) (idle : s.busy = false)
      (hi : (∃ a, i = .getCam a) ∨ (∃ a, i = .getCrk a) ∨ (∃ a c, i = .getTdc a c) ∨ ∃ a, i = .rdWord a) :
      HostStep s i (s.setResult v)
  | validate (idle : s.busy = false) (h : s.validateError = none) : HostStep s .validate { s with cfgValid := true }
  | generate (idle : s.busy = false) (h : s.cfgValid = true) : HostStep s .generate s.generateAccept
  /-- A register read. -/
  | read {i : Instr} (v : Word)
      (hi : i = .readCmd ∨ i = .readData ∨ i = .readResult ∨ i = .readStatus ∨ i = .readCrkCfg ∨ i = .readCamCfg ∨ i = .readTdcCfg ∨
        i = .readInfo ∨ (∃ k, i = .readCamEdge0 k) ∨ (∃ k, i = .readCamEdge16 k) ∨ (∃ k, i = .readCamEdge20 k) ∨
        ∃ k, i = .readCamEdge24 k) : HostStep s i (s.returnToHost v)
  | writeData (v : Word) : HostStep s (.writeData v) (s.setData v)
  | writeCrkCfg (v : Word) (idle : s.busy = false) (hv : v &&& ~~~crkCfgMask = 0#32) :
      HostStep s (.writeCrkCfg v) (State.invalidate { s with crkCfg := v })
  | writeCamCfg (v : Word) (idle : s.busy = false) (hv : v &&& ~~~camCfgMask = 0#32) :
      HostStep s (.writeCamCfg v) (State.invalidate { s with camCfg := v })
  | writeTdcCfg (v : Word) (idle : s.busy = false) (hv : v &&& ~~~tdcCfgMask = 0#32) :
      HostStep s (.writeTdcCfg v) (State.invalidate { s with tdcCfg := v })
  /-- A cam slot written. -/
  | writeCamEdge {i : Instr} (k : Nat) (v : Word) (idle : s.busy = false) (hk : k < 20) (hv : v &&& ~~~camEdgeMask = 0#32)
      (hi : (∃ k, i = .writeCamEdge0 k v) ∨ ∃ k, i = .writeCamEdge16 k v) :
      HostStep s i (State.invalidate { s with camEdge := s.camEdge.setIfInBounds k v })
  | streamRd (n : Nat) (v : Word) : HostStep s (.streamRd n) (s.driveStream v)

/-! ### VALIDATE's checks -/

theorem camListError_ne_eNone (prev : Option Nat) (es : List Nat) : camListError prev es ≠ some .eNone := by
  induction es generalizing prev with
  | nil => simp [camListError]
  | cons e es ih =>
    unfold camListError
    split
    · simp
    · split
      · simp
      · split
        · simp
        · exact ih _

theorem validateError_ne_eNone (s : State) : s.validateError ≠ some .eNone := by
  unfold State.validateError
  split
  · simp
  · split
    · simp
    · split
      · simp
      · split
        · rename_i e he
          rintro ⟨⟩
          exact camListError_ne_eNone _ _ he
        · split <;> simp

/-! ### Each instruction -/

theorem execSetBit_step {s t : State} {addr : BitVec 13} {b : Nat} {lvl : Level} {i : Instr} (hb : b < 8)
    (hi : (∃ a l, i = .setCam a l) ∨ (∃ a l, i = .setCrk a l) ∨ ∃ a c l, i = .setTdc a c l)
    (h : withElement addr s (finish (s.memWriteBit addr.toNat b lvl)) = .next t) : HostStep s i t := by
  rcases withElement_cases addr s (finish (s.memWriteBit addr.toNat b lvl)) with ⟨e, he, h1⟩ | ⟨h1, h2, h3⟩
  · rw [h1] at h; cases h
    refine .raised e he ?_ ?_ <;> rintro rfl <;> simp at hi
  · rw [h3, memWriteBit_ok lvl h2 (Nat.lt_of_lt_of_le hb (width_ge _))] at h
    cases h
    exact .setBit _ _ _ h1 h2 hb hi

theorem execGetBit_step {s t : State} {addr : BitVec 13} {b : Nat} {i : Instr} (hb : b < 8)
    (hi : (∃ a, i = .getCam a) ∨ (∃ a, i = .getCrk a) ∨ (∃ a c, i = .getTdc a c) ∨ ∃ a, i = .rdWord a)
    (h : withElement addr s (getBit addr.toNat b s) = .next t) : HostStep s i t := by
  rcases withElement_cases addr s (getBit addr.toNat b s) with ⟨e, he, h1⟩ | ⟨h1, h2, h3⟩
  · rw [h1] at h; cases h
    refine .raised e he ?_ ?_ <;> rintro rfl <;> simp at hi
  · rw [h3] at h
    rcases getBit_cases h2 (Nat.lt_of_lt_of_le hb (width_ge s.params.width)) with ⟨v, hv⟩ | ⟨-, hv⟩ <;> rw [hv] at h <;> cases h
    exact .result v h1 hi

theorem withCylinder_eq (addr : BitVec 13) (cyl : BitVec 3) (s : State) (k : Result) (hc : cyl.toNat < tdcBits) :
    withCylinder addr cyl s k = withElement addr s k := by
  unfold withCylinder; rw [if_neg (by omega)]

theorem withCylinder_out_step {s t : State} {addr : BitVec 13} {cyl : BitVec 3} {k : Result} {i : Instr} (hc : ¬cyl.toNat < tdcBits)
    (hi : i ≠ .clrErr) (hn : i ≠ .nop) (h : withCylinder addr cyl s k = .next t) : HostStep s i t := by
  rcases withCylinder_cases addr cyl s k with ⟨e, he, h1⟩ | ⟨-, -, h3, -⟩
  · rw [h1] at h; cases h; exact .raised e he hi hn
  · exact absurd h3 hc

theorem execSetTdc_step {s t : State} {addr : BitVec 13} {cyl : BitVec 3} {lvl : Level} (h : execSetTdc addr cyl lvl s = .next t) :
    HostStep s (.setTdc addr cyl lvl) t := by
  unfold execSetTdc at h
  by_cases hc : cyl.toNat < tdcBits
  · rw [withCylinder_eq _ _ _ _ hc] at h
    exact execSetBit_step (by unfold tdcBit; simp only [tdcBits] at hc; omega) (.inr (.inr ⟨_, _, _, rfl⟩)) h
  · exact withCylinder_out_step hc (by simp) (by simp) h

theorem execGetTdc_step {s t : State} {addr : BitVec 13} {cyl : BitVec 3} (h : execGetTdc addr cyl s = .next t) :
    HostStep s (.getTdc addr cyl) t := by
  unfold execGetTdc at h
  by_cases hc : cyl.toNat < tdcBits
  · rw [withCylinder_eq _ _ _ _ hc] at h
    exact execGetBit_step (by unfold tdcBit; simp only [tdcBits] at hc; omega) (.inr (.inr (.inl ⟨_, _, rfl⟩))) h
  · exact withCylinder_out_step hc (by simp) (by simp) h

theorem execRdWord_step {s t : State} {addr : BitVec 13} (h : execRdWord addr s = .next t) : HostStep s (.rdWord addr) t := by
  unfold execRdWord at h
  rcases withElement_cases addr s _ with ⟨e, he, h1⟩ | ⟨h1, h2, h3⟩
  · rw [h1] at h; cases h; exact .raised e he (by simp) (by simp)
  · rw [h3] at h
    rcases memRead_cases (s := s) h2 with ⟨-, hv⟩ | ⟨b, -, -, hv⟩ <;> rw [hv] at h <;> cases h
    exact .result _ h1 (.inr (.inr (.inr ⟨_, rfl⟩)))

theorem execWrWord_step {s t : State} {addr : BitVec 13} (h : execWrWord addr s = .next t) : HostStep s (.wrWord addr) t := by
  unfold execWrWord at h
  rcases withElement_cases addr s _ with ⟨e, he, h1⟩ | ⟨h1, h2, h3⟩
  · rw [h1] at h; cases h; exact .raised e he (by simp) (by simp)
  · rw [h3, memWrite_ok s.data h2] at h; cases h; exact .wrWord addr h1 h2

theorem execValidate_step {s t : State} (h : execValidate s = .next t) : HostStep s .validate t := by
  unfold execValidate at h
  cases hb : s.busy with
  | true => rw [whenIdle_busy _ hb] at h; cases h; exact .raised .busy (by decide) (by simp) (by simp)
  | false =>
    rw [whenIdle_idle _ hb] at h
    cases hv : s.validateError with
    | none => rw [hv] at h; cases h; exact .validate hb hv
    | some e =>
      rw [hv] at h; cases h
      refine .raised e ?_ (by simp) (by simp)
      rintro rfl
      exact validateError_ne_eNone s hv

theorem execGenerate_step {s t : State} (h : execGenerate s = .next t) : HostStep s .generate t := by
  unfold execGenerate at h
  cases hb : s.busy with
  | true => rw [whenIdle_busy _ hb] at h; cases h; exact .raised .busy (by decide) (by simp) (by simp)
  | false =>
    rw [whenIdle_idle _ hb] at h
    cases hv : s.cfgValid with
    | true => rw [hv] at h; cases h; exact .generate hb hv
    | false => rw [hv] at h; cases h; exact .raised .configNotValidated (by decide) (by simp) (by simp)

theorem writeConfig_step {s t stored : State} {mask v : Word} {i : Instr} (hi : i ≠ .clrErr) (hn : i ≠ .nop)
    (hok : s.busy = false → v &&& ~~~mask = 0#32 → HostStep s i stored.invalidate) (h : writeConfig mask v s stored = .next t) :
    HostStep s i t := by
  rcases writeConfig_cases mask v s stored with ⟨e, he, h1⟩ | ⟨h1, h2, h3⟩
  · rw [h1] at h; cases h; exact .raised e he hi hn
  · rw [h3] at h; cases h; exact hok h1 h2

theorem writeAbsentSlot_step {s t : State} {i : Instr} (hi : i ≠ .clrErr) (hn : i ≠ .nop) (h : writeAbsentSlot s = .next t) :
    HostStep s i t := by
  unfold writeAbsentSlot at h
  cases hb : s.busy with
  | true => rw [whenIdle_busy _ hb] at h; cases h; exact .raised .busy (by decide) hi hn
  | false => rw [whenIdle_idle _ hb] at h; cases h; exact .raised .unsupportedCamEdgeCount (by decide) hi hn

/-- The command of an opcode is an instruction of its own (`30_encoding.md` R86). -/
theorem issue_eq (op : Opcode) (addr : BitVec 13) (cyl : BitVec 3) (lvl : Level) (s : State) :
    issue op addr cyl lvl s = exec (op.instr addr cyl lvl) s := by cases op <;> rfl

theorem execWriteCmd_eq (v : Word) (s : State) : execWriteCmd v s = exec (decodeCommand v) s := by
  unfold execWriteCmd decodeCommand
  cases commandOf v with
  | none => rfl
  | some op => exact issue_eq op _ _ _ s

/-- An instruction does what it issues (`10_state.md` R42). -/
theorem exec_issued (i : Instr) (s : State) : exec i s = exec (issued i) s := by
  cases i <;> first | rfl | exact execWriteCmd_eq _ s

/-- Only a write to CMD issues another instruction than itself. -/
theorem issued_cases (i : Instr) : issued i = i ∨ ∃ v, i = .writeCmd v ∧ issued i = decodeCommand v := by
  cases i <;> first | exact .inl rfl | exact .inr ⟨_, rfl, rfl⟩

/-- The ENGINE's instructions. -/
theorem engine_of_not_host {i : Instr} (h : ¬notEngine i = true) : i = .mainStep ∨ i = .tdcStep := by
  simp [notEngine] at h; tauto

/-- A decoded command word is one of the twelve commands or a word that spells none, never a register access, a stream read or an ENGINE
step. -/
theorem decodeCommand_cases (v : Word) :
    decodeCommand v = .reservedOpc v ∨ ∃ op : Opcode, commandOf v = some op ∧
      decodeCommand v = op.instr (addrField v) (cylField v) (lvlField v) := by
  unfold decodeCommand
  cases commandOf v with
  | none => exact .inl rfl
  | some op => exact .inr ⟨op, rfl, rfl⟩

/-- The twelve commands and the words that spell none. -/
theorem exec_command_step {s t : State} (op : Opcode) (addr : BitVec 13) (cyl : BitVec 3) (lvl : Level)
    (h : exec (op.instr addr cyl lvl) s = .next t) : HostStep s (op.instr addr cyl lvl) t := by
  cases op with
  | nop => cases h; exact .nop
  | setCam => exact execSetBit_step (by decide) (.inl ⟨_, _, rfl⟩) h
  | getCam => exact execGetBit_step (by decide) (.inl ⟨_, rfl⟩) h
  | setCrk => exact execSetBit_step (by decide) (.inr (.inl ⟨_, _, rfl⟩)) h
  | getCrk => exact execGetBit_step (by decide) (.inr (.inl ⟨_, rfl⟩)) h
  | setTdc => exact execSetTdc_step h
  | getTdc => exact execGetTdc_step h
  | rdWord => exact execRdWord_step h
  | wrWord => exact execWrWord_step h
  | validate => exact execValidate_step h
  | generate => exact execGenerate_step h
  | clrErr => cases h; exact .clrErr

theorem raiseAccess_step {s t : State} {acc : Access} {i : Instr} (hi : i ≠ .clrErr) (hn : i ≠ .nop)
    (hr : acc = .read → (∃ k, i = .unmapped20 .read k) ∨ (∃ k, i = .unmappedC0 .read k) ∨ ∃ size off, i = .misaligned .read size off)
    (h : raiseAccess acc s = .next t) : HostStep s i t := by
  cases acc with
  | read => cases h; exact .raisedRead (hr rfl)
  | write v => cases h; exact .raised .illegalAccess (by decide) hi hn

/-- Everything an instruction of HOST or STREAM can do when it answers a next state. -/
theorem exec_host_step {i : Instr} {s t : State} (hi : notEngine i = true) (h : exec i s = .next t) : HostStep s (issued i) t := by
  cases i with
  | nop => exact exec_command_step .nop 0 0 .low h
  | setCam addr lvl => exact exec_command_step .setCam addr 0 lvl h
  | getCam addr => exact exec_command_step .getCam addr 0 .low h
  | setCrk addr lvl => exact exec_command_step .setCrk addr 0 lvl h
  | getCrk addr => exact exec_command_step .getCrk addr 0 .low h
  | setTdc addr cyl lvl => exact exec_command_step .setTdc addr cyl lvl h
  | getTdc addr cyl => exact exec_command_step .getTdc addr cyl .low h
  | rdWord addr => exact exec_command_step .rdWord addr 0 .low h
  | wrWord addr => exact exec_command_step .wrWord addr 0 .low h
  | validate => exact exec_command_step .validate 0 0 .low h
  | generate => exact exec_command_step .generate 0 0 .low h
  | clrErr => exact exec_command_step .clrErr 0 0 .low h
  | reservedOpc w => cases h; exact .raised .illegalCommand (by decide) (by simp [issued]) (by simp [issued])
  | readCmd => cases h; exact .read _ (by simp [issued])
  | writeCmd v =>
    replace h : execWriteCmd v s = .next t := h
    rw [execWriteCmd_eq] at h
    show HostStep s (decodeCommand v) t
    rcases decodeCommand_cases v with hd | ⟨op, -, hd⟩ <;> rw [hd] at h ⊢
    · cases h; exact .raised .illegalCommand (by decide) (by simp) (by simp)
    · exact exec_command_step op _ _ _ h
  | readData => cases h; exact .read _ (by simp [issued])
  | writeData v => cases h; exact .writeData v
  | readResult => cases h; exact .read _ (by simp [issued])
  | writeResult v => cases h; exact .raised .illegalAccess (by decide) (by simp [issued]) (by simp [issued])
  | readStatus => cases h; exact .read _ (by simp [issued])
  | writeStatus v => cases h; exact .raised .illegalAccess (by decide) (by simp [issued]) (by simp [issued])
  | readCrkCfg => cases h; exact .read _ (by simp [issued])
  | writeCrkCfg v => exact writeConfig_step (by simp [issued]) (by simp [issued]) (fun h1 h2 => .writeCrkCfg v h1 h2) h
  | readCamCfg => cases h; exact .read _ (by simp [issued])
  | writeCamCfg v => exact writeConfig_step (by simp [issued]) (by simp [issued]) (fun h1 h2 => .writeCamCfg v h1 h2) h
  | readTdcCfg => cases h; exact .read _ (by simp [issued])
  | writeTdcCfg v => exact writeConfig_step (by simp [issued]) (by simp [issued]) (fun h1 h2 => .writeTdcCfg v h1 h2) h
  | readInfo => cases h; exact .read _ (by simp [issued])
  | writeInfo v => cases h; exact .raised .illegalAccess (by decide) (by simp [issued]) (by simp [issued])
  | readCamEdge0 k => cases h; exact .read _ (by simp [issued])
  | writeCamEdge0 k v =>
    exact writeConfig_step (by simp [issued]) (by simp [issued])
      (fun h1 h2 => .writeCamEdge _ v h1 (by omega) h2 (.inl ⟨k, rfl⟩)) h
  | readCamEdge16 k => cases h; exact .read _ (by simp [issued])
  | writeCamEdge16 k v =>
    exact writeConfig_step (by simp [issued]) (by simp [issued])
      (fun h1 h2 => .writeCamEdge _ v h1 (by omega) h2 (.inr ⟨k, rfl⟩)) h
  | readCamEdge20 k => cases h; exact .read _ (by simp [issued])
  | writeCamEdge20 k v => exact writeAbsentSlot_step (by simp [issued]) (by simp [issued]) h
  | readCamEdge24 k => cases h; exact .read _ (by simp [issued])
  | writeCamEdge24 k v => exact writeAbsentSlot_step (by simp [issued]) (by simp [issued]) h
  | unmapped20 acc k =>
    exact raiseAccess_step (by simp [issued]) (by simp [issued]) (by rintro rfl; exact .inl ⟨k, rfl⟩) h
  | unmappedC0 acc k =>
    exact raiseAccess_step (by simp [issued]) (by simp [issued]) (by rintro rfl; exact .inr (.inl ⟨k, rfl⟩)) h
  | misaligned acc size off =>
    exact raiseAccess_step (by simp [issued]) (by simp [issued]) (by rintro rfl; exact .inr (.inr ⟨size, off, rfl⟩)) h
  | streamRd n =>
    replace h : execStreamRd n s = .next t := h
    unfold execStreamRd at h
    split at h
    · cases h
    · rename_i hn
      rcases memRead_cases (s := s) (i := n) (by omega) with ⟨-, hv⟩ | ⟨b, -, -, hv⟩ <;> rw [hv] at h <;> cases h
      exact .streamRd n _
  | mainStep => simp [notEngine] at hi
  | tdcStep => simp [notEngine] at hi

/-! ### Who raises E_BUSY (`60_exceptions.md` R266) -/

theorem raise_busy {s t : State} {e : Err} (he : e ≠ .busy) (h : raise e s = .next t) (ht : t.err = .busy) : s.err = .busy := by
  cases h
  unfold State.recordError at ht
  simp only at ht
  split at ht
  · exact absurd ht he
  · exact ht

theorem whenIdle_raises_busy {s t : State} {k : Result} (hk : k = .next t → t.err = .busy → s.err = .busy) (h : whenIdle s k = .next t)
    (ht : t.err = .busy) : s.err = .busy ∨ s.busy = true := by
  cases hb : s.busy with
  | true => exact .inr rfl
  | false => rw [whenIdle_idle _ hb] at h; exact .inl (hk h ht)

theorem withElement_raises_busy {s t : State} {addr : BitVec 13} {k : Result}
    (hk : addr.toNat < elementCount → k = .next t → t.err = .busy → s.err = .busy) (h : withElement addr s k = .next t) (ht : t.err = .busy) : s.err = .busy ∨ s.busy = true := by
  refine whenIdle_raises_busy (fun h ht => ?_) h ht
  split at h
  · exact raise_busy (by decide) h ht
  · exact hk (by omega) h ht

theorem withCylinder_raises_busy {s t : State} {addr : BitVec 13} {cyl : BitVec 3} {k : Result}
    (hk : addr.toNat < elementCount → k = .next t → t.err = .busy → s.err = .busy) (h : withCylinder addr cyl s k = .next t) (ht : t.err = .busy) : s.err = .busy ∨ s.busy = true := by
  refine withElement_raises_busy (fun ha h ht => ?_) h ht
  split at h
  · exact raise_busy (by decide) h ht
  · exact hk ha h ht

theorem writeConfig_raises_busy {s t stored : State} {mask v : Word} (hst : stored.err = s.err) (h : writeConfig mask v s stored = .next t)
    (ht : t.err = .busy) : s.err = .busy ∨ s.busy = true := by
  refine whenIdle_raises_busy (fun h ht => ?_) h ht
  split at h
  · exact raise_busy (by decide) h ht
  · cases h; rw [← hst]; exact ht

theorem camListError_ne_busy (prev : Option Nat) (es : List Nat) : camListError prev es ≠ some .busy := by
  induction es generalizing prev with
  | nil => simp [camListError]
  | cons e es ih =>
    unfold camListError
    split
    · simp
    · split
      · simp
      · split
        · simp
        · exact ih _

theorem validateError_ne_busy (s : State) : s.validateError ≠ some .busy := by
  unfold State.validateError
  split
  · simp
  · split
    · simp
    · split
      · simp
      · split
        · rename_i e he
          rintro ⟨⟩
          exact camListError_ne_busy _ _ he
        · split <;> simp

theorem memWriteBit_err {s t : State} {i b : Nat} {x : Level} (h : finish (s.memWriteBit i b x) = .next t) : t.err = s.err := by
  cases hw : s.memWriteBit i b x with
  | error f => rw [hw] at h; cases h
  | ok u => rw [hw] at h; cases h; rw [(memWriteBit_eq_ok hw).2.2]; rfl

theorem getBit_err {s t : State} {i b : Nat} (h : getBit i b s = .next t) : t.err = s.err := by
  unfold getBit at h
  split at h
  · cases h; rfl
  · cases h

/-- The twelve commands raise E_BUSY only while BUSY = 1, and only those that need IDLE do. -/
theorem exec_command_busy {s t : State} (op : Opcode) (addr : BitVec 13) (cyl : BitVec 3) (lvl : Level)
    (h : exec (op.instr addr cyl lvl) s = .next t) (ht : t.err = .busy) :
    s.err = .busy ∨ (s.busy = true ∧ needsIdle (op.instr addr cyl lvl) = true) := by
  have key : needsIdle (op.instr addr cyl lvl) = true → (s.err = .busy ∨ s.busy = true) →
      s.err = .busy ∨ (s.busy = true ∧ needsIdle (op.instr addr cyl lvl) = true) := fun h1 h2 => h2.imp id fun h => ⟨h, h1⟩
  cases op with
  | nop => cases h; exact .inl ht
  | setCam => exact key rfl (withElement_raises_busy (fun _ h ht => memWriteBit_err h ▸ ht) h ht)
  | getCam => exact key rfl (withElement_raises_busy (fun _ h ht => getBit_err h ▸ ht) h ht)
  | setCrk => exact key rfl (withElement_raises_busy (fun _ h ht => memWriteBit_err h ▸ ht) h ht)
  | getCrk => exact key rfl (withElement_raises_busy (fun _ h ht => getBit_err h ▸ ht) h ht)
  | setTdc => exact key rfl (withCylinder_raises_busy (fun _ h ht => memWriteBit_err h ▸ ht) h ht)
  | getTdc => exact key rfl (withCylinder_raises_busy (fun _ h ht => getBit_err h ▸ ht) h ht)
  | rdWord =>
    refine key rfl (withElement_raises_busy (fun ha h ht => ?_) h ht)
    rcases memRead_cases (s := s) ha with ⟨-, hv⟩ | ⟨b, -, -, hv⟩ <;> rw [hv] at h <;> cases h
    exact ht
  | wrWord =>
    refine key rfl (withElement_raises_busy (fun ha h ht => ?_) h ht)
    rw [memWrite_ok s.data ha] at h; cases h; exact ht
  | validate =>
    refine key rfl (whenIdle_raises_busy (fun h ht => ?_) h ht)
    cases hv : s.validateError with
    | none => rw [hv] at h; cases h; exact ht
    | some e => rw [hv] at h; exact raise_busy (fun he => validateError_ne_busy s (he ▸ hv)) h ht
  | generate =>
    refine key rfl (whenIdle_raises_busy (fun h ht => ?_) h ht)
    split at h
    · cases h; exact ht
    · exact raise_busy (by decide) h ht
  | clrErr => cases h; cases ht

/-- E_BUSY is raised only while BUSY = 1, and only by what R306's table does not allow then. -/
theorem exec_raises_busy {i : Instr} {s t : State} (hn : notEngine i = true) (h : exec i s = .next t) (ht : t.err = .busy) :
    s.err = .busy ∨ (s.busy = true ∧ needsIdle i = true) := by
  have key : needsIdle i = true → (s.err = .busy ∨ s.busy = true) → s.err = .busy ∨ (s.busy = true ∧ needsIdle i = true) :=
    fun h1 h2 => h2.imp id fun h => ⟨h, h1⟩
  have acc : ∀ {a : Access}, raiseAccess a s = .next t → s.err = .busy := fun {a} h => by
    cases a with
    | read => cases h; exact raise_busy (s := s) (t := s.recordError .illegalAccess) (e := .illegalAccess) (by decide) rfl ht
    | write v => exact raise_busy (by decide) h ht
  cases i with
  | nop => exact exec_command_busy .nop 0 0 .low h ht
  | setCam addr lvl => exact exec_command_busy .setCam addr 0 lvl h ht
  | getCam addr => exact exec_command_busy .getCam addr 0 .low h ht
  | setCrk addr lvl => exact exec_command_busy .setCrk addr 0 lvl h ht
  | getCrk addr => exact exec_command_busy .getCrk addr 0 .low h ht
  | setTdc addr cyl lvl => exact exec_command_busy .setTdc addr cyl lvl h ht
  | getTdc addr cyl => exact exec_command_busy .getTdc addr cyl .low h ht
  | rdWord addr => exact exec_command_busy .rdWord addr 0 .low h ht
  | wrWord addr => exact exec_command_busy .wrWord addr 0 .low h ht
  | validate => exact exec_command_busy .validate 0 0 .low h ht
  | generate => exact exec_command_busy .generate 0 0 .low h ht
  | clrErr => exact exec_command_busy .clrErr 0 0 .low h ht
  | reservedOpc w => exact .inl (raise_busy (by decide) h ht)
  | writeCmd v =>
    replace h : execWriteCmd v s = .next t := h
    rw [execWriteCmd_eq] at h
    rcases decodeCommand_cases v with hd | ⟨op, -, hd⟩ <;> rw [hd] at h
    · exact .inl (raise_busy (by decide) h ht)
    · refine (exec_command_busy op _ _ _ h ht).imp id fun hb => ⟨hb.1, ?_⟩
      have : needsIdle (.writeCmd v) = needsIdle (op.instr (addrField v) (cylField v) (lvlField v)) := by
        unfold needsIdle readsElement writesElement writesConfig issued
        simp only [hd]
        cases op <;> rfl
      rw [this]; exact hb.2
  | writeResult v | writeStatus v | writeInfo v => exact .inl (raise_busy (by decide) h ht)
  | writeCrkCfg v | writeCamCfg v | writeTdcCfg v | writeCamEdge0 k v | writeCamEdge16 k v =>
    exact key rfl (writeConfig_raises_busy (by rfl) h ht)
  | writeCamEdge20 k v | writeCamEdge24 k v =>
    exact key rfl (whenIdle_raises_busy (fun h ht => raise_busy (by decide) h ht) h ht)
  | unmapped20 a k | unmappedC0 a k | misaligned a k => exact .inl (acc h)
  | streamRd n =>
    replace h : execStreamRd n s = .next t := h
    unfold execStreamRd at h
    split at h
    · cases h
    · rename_i hn
      rcases memRead_cases (s := s) (i := n) (by omega) with ⟨-, hv⟩ | ⟨b, -, -, hv⟩ <;> rw [hv] at h <;> cases h
      exact .inl ht
  | mainStep | tdcStep => simp [notEngine] at hn
  | _ => cases h; exact .inl ht
/-! ### The ENGINE's steps -/

@[simp] theorem camAdvance_params (a : Nat) (s : State) : (camAdvance a s).params = s.params := by unfold camAdvance; split <;> rfl
@[simp] theorem camAdvance_data (a : Nat) (s : State) : (camAdvance a s).data = s.data := by unfold camAdvance; split <;> rfl
@[simp] theorem camAdvance_result (a : Nat) (s : State) : (camAdvance a s).result = s.result := by unfold camAdvance; split <;> rfl
@[simp] theorem camAdvance_phase (a : Nat) (s : State) : (camAdvance a s).phase = s.phase := by unfold camAdvance; split <;> rfl
@[simp] theorem camAdvance_done (a : Nat) (s : State) : (camAdvance a s).done = s.done := by unfold camAdvance; split <;> rfl
@[simp] theorem camAdvance_cfgValid (a : Nat) (s : State) : (camAdvance a s).cfgValid = s.cfgValid := by unfold camAdvance; split <;> rfl
@[simp] theorem camAdvance_err (a : Nat) (s : State) : (camAdvance a s).err = s.err := by unfold camAdvance; split <;> rfl
@[simp] theorem camAdvance_errMulti (a : Nat) (s : State) : (camAdvance a s).errMulti = s.errMulti := by unfold camAdvance; split <;> rfl
@[simp] theorem camAdvance_crkCfg (a : Nat) (s : State) : (camAdvance a s).crkCfg = s.crkCfg := by unfold camAdvance; split <;> rfl
@[simp] theorem camAdvance_camCfg (a : Nat) (s : State) : (camAdvance a s).camCfg = s.camCfg := by unfold camAdvance; split <;> rfl
@[simp] theorem camAdvance_tdcCfg (a : Nat) (s : State) : (camAdvance a s).tdcCfg = s.tdcCfg := by unfold camAdvance; split <;> rfl
@[simp] theorem camAdvance_camEdge (a : Nat) (s : State) : (camAdvance a s).camEdge = s.camEdge := by unfold camAdvance; split <;> rfl
@[simp] theorem camAdvance_cursor (a : Nat) (s : State) : (camAdvance a s).cursor = s.cursor := by unfold camAdvance; split <;> rfl
@[simp] theorem camAdvance_crkLvl (a : Nat) (s : State) : (camAdvance a s).crkLvl = s.crkLvl := by unfold camAdvance; split <;> rfl
@[simp] theorem camAdvance_tdcK (a : Nat) (s : State) : (camAdvance a s).tdcK = s.tdcK := by unfold camAdvance; split <;> rfl
@[simp] theorem camAdvance_pmem (a : Nat) (s : State) : (camAdvance a s).pmem = s.pmem := by unfold camAdvance; split <;> rfl
@[simp] theorem camAdvance_agenda (a : Nat) (s : State) : (camAdvance a s).agenda = s.agenda := by unfold camAdvance; split <;> rfl
@[simp] theorem camAdvance_hostRead (a : Nat) (s : State) : (camAdvance a s).hostRead = s.hostRead := by unfold camAdvance; split <;> rfl
@[simp] theorem camAdvance_streamOut (a : Nat) (s : State) : (camAdvance a s).streamOut = s.streamOut := by unfold camAdvance; split <;> rfl

@[simp] theorem advanceCursor_params (s : State) : (advanceCursor s).params = s.params := by unfold advanceCursor; split <;> rfl
@[simp] theorem advanceCursor_data (s : State) : (advanceCursor s).data = s.data := by unfold advanceCursor; split <;> rfl
@[simp] theorem advanceCursor_result (s : State) : (advanceCursor s).result = s.result := by unfold advanceCursor; split <;> rfl
@[simp] theorem advanceCursor_done (s : State) : (advanceCursor s).done = s.done := by unfold advanceCursor; split <;> rfl
@[simp] theorem advanceCursor_cfgValid (s : State) : (advanceCursor s).cfgValid = s.cfgValid := by unfold advanceCursor; split <;> rfl
@[simp] theorem advanceCursor_err (s : State) : (advanceCursor s).err = s.err := by unfold advanceCursor; split <;> rfl
@[simp] theorem advanceCursor_errMulti (s : State) : (advanceCursor s).errMulti = s.errMulti := by unfold advanceCursor; split <;> rfl
@[simp] theorem advanceCursor_crkCfg (s : State) : (advanceCursor s).crkCfg = s.crkCfg := by unfold advanceCursor; split <;> rfl
@[simp] theorem advanceCursor_camCfg (s : State) : (advanceCursor s).camCfg = s.camCfg := by unfold advanceCursor; split <;> rfl
@[simp] theorem advanceCursor_tdcCfg (s : State) : (advanceCursor s).tdcCfg = s.tdcCfg := by unfold advanceCursor; split <;> rfl
@[simp] theorem advanceCursor_camEdge (s : State) : (advanceCursor s).camEdge = s.camEdge := by unfold advanceCursor; split <;> rfl
@[simp] theorem advanceCursor_camLvl (s : State) : (advanceCursor s).camLvl = s.camLvl := by unfold advanceCursor; split <;> rfl
@[simp] theorem advanceCursor_camIdx (s : State) : (advanceCursor s).camIdx = s.camIdx := by unfold advanceCursor; split <;> rfl
@[simp] theorem advanceCursor_crkLvl (s : State) : (advanceCursor s).crkLvl = s.crkLvl := by unfold advanceCursor; split <;> rfl
@[simp] theorem advanceCursor_tdcK (s : State) : (advanceCursor s).tdcK = s.tdcK := by unfold advanceCursor; split <;> rfl
@[simp] theorem advanceCursor_pmem (s : State) : (advanceCursor s).pmem = s.pmem := by unfold advanceCursor; split <;> rfl
@[simp] theorem advanceCursor_agenda (s : State) : (advanceCursor s).agenda = s.agenda := by unfold advanceCursor; split <;> rfl
@[simp] theorem advanceCursor_hostRead (s : State) : (advanceCursor s).hostRead = s.hostRead := by unfold advanceCursor; split <;> rfl
@[simp] theorem advanceCursor_streamOut (s : State) : (advanceCursor s).streamOut = s.streamOut := by unfold advanceCursor; split <;> rfl

@[simp] theorem advanceTdc_params (s : State) : (advanceTdc s).params = s.params := by unfold advanceTdc; split <;> rfl
@[simp] theorem advanceTdc_data (s : State) : (advanceTdc s).data = s.data := by unfold advanceTdc; split <;> rfl
@[simp] theorem advanceTdc_result (s : State) : (advanceTdc s).result = s.result := by unfold advanceTdc; split <;> rfl
@[simp] theorem advanceTdc_cfgValid (s : State) : (advanceTdc s).cfgValid = s.cfgValid := by unfold advanceTdc; split <;> rfl
@[simp] theorem advanceTdc_err (s : State) : (advanceTdc s).err = s.err := by unfold advanceTdc; split <;> rfl
@[simp] theorem advanceTdc_errMulti (s : State) : (advanceTdc s).errMulti = s.errMulti := by unfold advanceTdc; split <;> rfl
@[simp] theorem advanceTdc_crkCfg (s : State) : (advanceTdc s).crkCfg = s.crkCfg := by unfold advanceTdc; split <;> rfl
@[simp] theorem advanceTdc_camCfg (s : State) : (advanceTdc s).camCfg = s.camCfg := by unfold advanceTdc; split <;> rfl
@[simp] theorem advanceTdc_tdcCfg (s : State) : (advanceTdc s).tdcCfg = s.tdcCfg := by unfold advanceTdc; split <;> rfl
@[simp] theorem advanceTdc_camEdge (s : State) : (advanceTdc s).camEdge = s.camEdge := by unfold advanceTdc; split <;> rfl
@[simp] theorem advanceTdc_cursor (s : State) : (advanceTdc s).cursor = s.cursor := by unfold advanceTdc; split <;> rfl
@[simp] theorem advanceTdc_camLvl (s : State) : (advanceTdc s).camLvl = s.camLvl := by unfold advanceTdc; split <;> rfl
@[simp] theorem advanceTdc_camIdx (s : State) : (advanceTdc s).camIdx = s.camIdx := by unfold advanceTdc; split <;> rfl
@[simp] theorem advanceTdc_crkLvl (s : State) : (advanceTdc s).crkLvl = s.crkLvl := by unfold advanceTdc; split <;> rfl
@[simp] theorem advanceTdc_pmem (s : State) : (advanceTdc s).pmem = s.pmem := by unfold advanceTdc; split <;> rfl
@[simp] theorem advanceTdc_agenda (s : State) : (advanceTdc s).agenda = s.agenda := by unfold advanceTdc; split <;> rfl
@[simp] theorem advanceTdc_hostRead (s : State) : (advanceTdc s).hostRead = s.hostRead := by unfold advanceTdc; split <;> rfl
@[simp] theorem advanceTdc_streamOut (s : State) : (advanceTdc s).streamOut = s.streamOut := by unfold advanceTdc; split <;> rfl

@[simp] theorem advanceTdc_tdcK (s : State) : (advanceTdc s).tdcK = s.tdcK + 1#3 := by unfold advanceTdc; split <;> rfl

/-- The state with both bits of a main step written. -/
def signalsWritten (s : State) (a : Nat) : State :=
  let t := s.setElem a ((s.elem a).setBit 0 s.camLvl)
  t.setElem a ((t.elem a).setBit 1 s.crkLvl)

theorem signalsWritten_frame (s : State) (a : Nat) : signalsWritten s a = { s with pmem := (signalsWritten s a).pmem } := rfl

theorem signalsWritten_bit (s : State) (a j c : Nat) :
    (signalsWritten s a).bit j c =
      if j = a ∧ c = 1 then some s.crkLvl else if j = a ∧ c = 0 then some s.camLvl else s.bit j c := by
  unfold signalsWritten
  simp only [setElem_setBit_bit _ _ _ _ _ _ (show (1 : Nat) < 32 by decide), setElem_setBit_bit _ _ _ _ _ _ (show (0 : Nat) < 32 by decide)]

/-- The state after a main step. -/
def mainNext (s : State) : State :=
  advanceCursor (crankAdvance s.cursor.toNat (camAdvance s.cursor.toNat (signalsWritten s s.cursor.toNat)))

theorem writeSignals_ok {s : State} {a : Nat} (ha : a < elementCount) : writeSignals a s = .ok (signalsWritten s a) := by
  have h8 := width_ge s.params.width
  unfold writeSignals
  rw [memWriteBit_ok s.camLvl ha (show camBit < s.params.width.bits by unfold camBit; omega)]
  exact memWriteBit_ok s.crkLvl ha (show crkBit < s.params.width.bits by unfold crkBit; omega)

/-- Where MAIN_STEP completes. -/
theorem execMainStep_next {s : State} (hp : s.phase = .main) (hw : s.wheelLegal = true) (hc : s.cursor.toNat < elementCount) :
    exec .mainStep s = .next (mainNext s) := by
  show execMainStep s = _
  unfold execMainStep
  rw [if_neg (by simp [hp]), if_neg (by simp [hw]), writeSignals_ok hc]
  rfl

/-- What a MAIN_STEP that answers a next state has done. -/
theorem execMainStep_inv {s t : State} (h : exec .mainStep s = .next t) :
    s.phase = .main ∧ s.wheelLegal = true ∧ s.cursor.toNat < elementCount ∧ t = mainNext s := by
  replace h : execMainStep s = .next t := h
  have h' := h
  unfold execMainStep at h
  split at h
  · cases h
  · rename_i hp
    split at h
    · cases h
    · rename_i hw
      have hp' : s.phase = .main := by simpa using hp
      have hw' : s.wheelLegal = true := by simpa using hw
      by_cases hc : s.cursor.toNat < elementCount
      · refine ⟨hp', hw', hc, ?_⟩
        have := execMainStep_next hp' hw' hc
        replace this : execMainStep s = .next (mainNext s) := this
        rw [h'] at this; cases this; rfl
      · exfalso
        have : writeSignals s.cursor.toNat s = .error (.noSuchElement s.cursor.toNat) := by
          unfold writeSignals State.memWriteBit
          rw [if_pos (by omega)]
        rw [this] at h; cases h

/-- The state after a TDC step. -/
def tdcNext (s : State) : State :=
  advanceTdc (s.setElem (s.tdcPos s.tdcK.toNat) ((s.elem (s.tdcPos s.tdcK.toNat)).setBit (2 + s.tdcK.toNat) .high))

theorem tdcPos_lt (s : State) (k : Nat) : s.tdcPos k < elementCount := Nat.mod_lt _ (by decide)

/-- Where TDC_STEP completes. -/
theorem execTdcStep_next {s : State} (hp : s.phase = .tdc) (hk : s.tdcK.toNat < s.cylCount) (hn : s.cylCount ≤ 6) :
    exec .tdcStep s = .next (tdcNext s) := by
  show execTdcStep s = _
  have h8 := width_ge s.params.width
  unfold execTdcStep
  rw [if_neg (by simp [hp]), if_neg (by simp [hk, tdcBits, hn]),
    memWriteBit_ok .high (tdcPos_lt s _) (show tdcBit s.tdcK.toNat < s.params.width.bits by unfold tdcBit; omega)]
  rfl

/-- What a TDC_STEP that answers a next state has done. -/
theorem execTdcStep_inv {s t : State} (h : exec .tdcStep s = .next t) :
    s.phase = .tdc ∧ s.tdcK.toNat < s.cylCount ∧ s.cylCount ≤ 6 ∧ t = tdcNext s := by
  replace h : execTdcStep s = .next t := h
  have h' := h
  unfold execTdcStep at h
  split at h
  · cases h
  · rename_i hp
    split at h
    · cases h
    · rename_i hw
      have hp' : s.phase = .tdc := by simpa using hp
      have hw' : s.tdcK.toNat < s.cylCount ∧ s.cylCount ≤ tdcBits := by simpa using hw
      refine ⟨hp', hw'.1, hw'.2, ?_⟩
      have := execTdcStep_next hp' hw'.1 hw'.2
      replace this : execTdcStep s = .next (tdcNext s) := this
      rw [h'] at this; cases this; rfl

theorem tdcNext_bit (s : State) (j c : Nat) (hk : s.tdcK.toNat < 8) :
    (tdcNext s).bit j c = if j = s.tdcPos s.tdcK.toNat ∧ c = 2 + s.tdcK.toNat then some .high else s.bit j c := by
  unfold tdcNext
  rw [bit_congr (advanceTdc_pmem _)]
  exact setElem_setBit_bit _ _ _ _ _ _ (by omega)

theorem mainNext_bit (s : State) (j c : Nat) :
    (mainNext s).bit j c =
      if j = s.cursor.toNat ∧ c = 1 then some s.crkLvl else if j = s.cursor.toNat ∧ c = 0 then some s.camLvl else s.bit j c := by
  rw [← signalsWritten_bit]
  exact bit_congr (by simp [mainNext]) j c

/-! ### The ENGINE's registers after a step -/

/-- A main step writes PMEM, the trackers, CURSOR and PHASE, and nothing else. -/
theorem mainNext_frame (s : State) :
    mainNext s = { s with
      pmem := (mainNext s).pmem
      camLvl := (mainNext s).camLvl
      camIdx := (mainNext s).camIdx
      crkLvl := (mainNext s).crkLvl
      cursor := (mainNext s).cursor
      phase := (mainNext s).phase } := by
  unfold mainNext advanceCursor crankAdvance camAdvance
  split <;> split <;> rfl

/-- A TDC step writes PMEM, TDC_K, PHASE and DONE, and nothing else. -/
theorem tdcNext_frame (s : State) :
    tdcNext s = { s with pmem := (tdcNext s).pmem, tdcK := (tdcNext s).tdcK, phase := (tdcNext s).phase, done := (tdcNext s).done } := by
  unfold tdcNext advanceTdc; split <;> rfl

theorem mainNext_camIdx (s : State) :
    (mainNext s).camIdx = if s.camIdx.toNat < 20 ∧ s.edge s.camIdx.toNat = s.cursor.toNat then s.camIdx + 1#5 else s.camIdx := by
  have : (mainNext s).camIdx = (camAdvance s.cursor.toNat (signalsWritten s s.cursor.toNat)).camIdx := by simp [mainNext, crankAdvance]
  rw [this]
  unfold camAdvance
  split
  · rename_i h; rw [if_pos (show s.camIdx.toNat < 20 ∧ s.edge s.camIdx.toNat = s.cursor.toNat from h)]; rfl
  · rename_i h; rw [if_neg (show ¬(s.camIdx.toNat < 20 ∧ s.edge s.camIdx.toNat = s.cursor.toNat) from h)]; rfl

theorem mainNext_camLvl (s : State) :
    (mainNext s).camLvl = if s.camIdx.toNat < 20 ∧ s.edge s.camIdx.toNat = s.cursor.toNat then s.camLvl.not else s.camLvl := by
  have : (mainNext s).camLvl = (camAdvance s.cursor.toNat (signalsWritten s s.cursor.toNat)).camLvl := by simp [mainNext, crankAdvance]
  rw [this]
  unfold camAdvance
  split
  · rename_i h; rw [if_pos (show s.camIdx.toNat < 20 ∧ s.edge s.camIdx.toNat = s.cursor.toNat from h)]; rfl
  · rename_i h; rw [if_neg (show ¬(s.camIdx.toNat < 20 ∧ s.edge s.camIdx.toNat = s.cursor.toNat) from h)]; rfl

theorem mainNext_crkLvl (s : State) : (mainNext s).crkLvl = crankNext s.cursor.toNat s.halfTooth s.gapSpan s.crkFirst s.crkLvl := by
  unfold mainNext
  rw [advanceCursor_crkLvl]
  unfold crankAdvance camAdvance
  split <;> rfl

theorem mainNext_cursor (s : State) : (mainNext s).cursor = if s.cursor.toNat = 7199 then s.cursor else s.cursor + 1#13 := by
  unfold mainNext advanceCursor
  by_cases h : s.cursor.toNat = 7199
  · rw [if_pos (by simpa [crankAdvance, signalsWritten, State.setElem] using h), if_pos h]
    simp [crankAdvance, signalsWritten, State.setElem]
  · rw [if_neg (by simpa [crankAdvance, signalsWritten, State.setElem] using h), if_neg h]
    simp [crankAdvance, signalsWritten, State.setElem]

theorem mainNext_phase (s : State) (hp : s.phase = .main) : (mainNext s).phase = if s.cursor.toNat = 7199 then .tdc else .main := by
  unfold mainNext advanceCursor
  by_cases h : s.cursor.toNat = 7199
  · rw [if_pos (by simpa [crankAdvance, signalsWritten, State.setElem] using h), if_pos h]
  · rw [if_neg (by simpa [crankAdvance, signalsWritten, State.setElem] using h), if_neg h]
    simp [crankAdvance, signalsWritten, State.setElem, hp]

/-- The last TDC step ends the generation. -/
theorem tdcNext_last {s : State} (h : s.tdcK.toNat + 1 = s.cylCount) :
    tdcNext s = { s.setElem (s.tdcPos s.tdcK.toNat) ((s.elem (s.tdcPos s.tdcK.toNat)).setBit (2 + s.tdcK.toNat) .high) with
      tdcK := s.tdcK + 1#3, phase := .idle, done := true } := if_pos h

/-- Every other TDC step only counts. -/
theorem tdcNext_more {s : State} (h : s.tdcK.toNat + 1 ≠ s.cylCount) :
    tdcNext s = { s.setElem (s.tdcPos s.tdcK.toNat) ((s.elem (s.tdcPos s.tdcK.toNat)).setBit (2 + s.tdcK.toNat) .high) with
      tdcK := s.tdcK + 1#3 } := if_neg h

end Sys2Proof.Machine
end

