-- ==== Sys2Proof/Laws/Validate.lean ====
section
/-! SUPPORT. Laws/Validate.lean: the used cam entries, and what VALIDATE's checks answer (`45_config_control.md` R230 to R236). -/

namespace Sys2Proof.Machine

/-! ### The used entries of a list -/

/-- The entry before slot `k`; `prev` stands before slot 0. -/
def entryBefore (prev : Option Nat) (es : List Nat) (k : Nat) : Option Nat := if k = 0 then prev else some (es.getD (k - 1) camSentinel)

/-- Entry `k` of a list is an angle, and greater than the entry before it. -/
def EntryLegal (prev : Option Nat) (es : List Nat) (k : Nat) : Prop :=
  es.getD k camSentinel < elementCount ∧ ∀ p, entryBefore prev es k = some p → p < es.getD k camSentinel

theorem entryLegal_zero (prev : Option Nat) (e : Nat) (es : List Nat) :
    EntryLegal prev (e :: es) 0 ↔ e < elementCount ∧ ∀ p, prev = some p → p < e := by
  simp [EntryLegal, entryBefore]

theorem entryBefore_succ (prev : Option Nat) (e : Nat) (es : List Nat) (k : Nat) :
    entryBefore prev (e :: es) (k + 1) = entryBefore (some e) es k := by
  cases k <;> simp [entryBefore]

theorem entryLegal_succ (prev : Option Nat) (e : Nat) (es : List Nat) (k : Nat) :
    EntryLegal prev (e :: es) (k + 1) ↔ EntryLegal (some e) es k := by
  unfold EntryLegal
  rw [entryBefore_succ]
  simp

theorem usedPrefix_cons (e : Nat) (es : List Nat) : usedPrefix (e :: es) = if e = camSentinel then [] else e :: usedPrefix es := by
  unfold usedPrefix
  by_cases h : e = camSentinel <;> simp [h]

/-- The cam check passes exactly when every used entry is legal. -/
theorem camListError_none_iff (prev : Option Nat) (es : List Nat) :
    camListError prev es = none ↔ ∀ k, k < (usedPrefix es).length → EntryLegal prev es k := by
  induction es generalizing prev with
  | nil => simp [camListError, usedPrefix]
  | cons e es ih =>
    rw [usedPrefix_cons]
    unfold camListError
    by_cases hs : e = camSentinel
    · simp [hs]
    · rw [if_neg hs, if_neg hs]
      have hsplit : (∀ k, k < (e :: usedPrefix es).length → EntryLegal prev (e :: es) k) ↔
          EntryLegal prev (e :: es) 0 ∧ ∀ k, k < (usedPrefix es).length → EntryLegal (some e) es k := by
        constructor
        · intro h
          exact ⟨h 0 (by simp), fun k hk => (entryLegal_succ prev e es k).1 (h (k + 1) (by simpa using hk))⟩
        · rintro ⟨h0, h⟩ k hk
          cases k with
          | zero => exact h0
          | succ k => exact (entryLegal_succ prev e es k).2 (h k (by simpa using hk))
      rw [hsplit, entryLegal_zero]
      by_cases h1 : e ≥ elementCount
      · rw [if_pos h1]; simp; omega
      · rw [if_neg h1]
        cases prev with
        | none => simp [ih, show e < elementCount by omega]
        | some p =>
          by_cases h2 : e ≤ p
          · simp [h2]
          · simp [h2, ih, show e < elementCount by omega]; omega

/-- At the first entry that is not legal, the cam check answers by what is wrong with it. -/
theorem camListError_first (prev : Option Nat) (es : List Nat) (k : Nat) (hk : k < (usedPrefix es).length)
    (hj : ∀ j, j < k → EntryLegal prev es j) :
    (elementCount ≤ es.getD k camSentinel → camListError prev es = some .invalidCamEdge) ∧
      (es.getD k camSentinel < elementCount → (∃ p, entryBefore prev es k = some p ∧ es.getD k camSentinel ≤ p) →
        camListError prev es = some .nonMonotonicCamEdges) := by
  induction es generalizing prev k with
  | nil => simp [usedPrefix] at hk
  | cons e es ih =>
    rw [usedPrefix_cons] at hk
    by_cases hs : e = camSentinel
    · simp [hs] at hk
    · rw [if_neg hs] at hk
      cases k with
      | zero =>
        simp only [List.getD_cons_zero, entryBefore, if_true]
        unfold camListError
        rw [if_neg hs]
        refine ⟨fun h => by rw [if_pos h], ?_⟩
        rintro h ⟨p, rfl, hp⟩
        rw [if_neg (by omega)]; simp [hp]
      | succ k =>
        have h0 := (entryLegal_zero prev e es).1 (hj 0 (by omega))
        have hih := ih (some e) k (by simpa using hk) fun j hjk => (entryLegal_succ prev e es j).1 (hj (j + 1) (by omega))
        rw [entryBefore_succ, List.getD_cons_succ]
        have hstep : camListError prev (e :: es) = camListError (some e) es := by
          conv_lhs => unfold camListError
          rw [if_neg hs, if_neg (by omega)]
          cases prev with
          | none => simp
          | some p => have := h0.2 p rfl; simp [show ¬ e ≤ p by omega]
        rw [hstep]
        exact hih

/-! ### The cam slots of the block -/

theorem edge_eq_getD (s : State) (k : Nat) : s.edge k = s.edges.getD k camSentinel := by
  unfold State.edge State.camSlot State.edges
  rw [List.getD_eq_getElem?_getD, List.getElem?_map, Vector.getElem?_toList]
  cases s.camEdge[k]? with
  | none => rfl
  | some v => rfl

theorem edges_length (s : State) : s.edges.length = 20 := by simp [State.edges]

/-- At most all 20 slots are used (`10_state.md` R51). -/
theorem usedEdges_le (s : State) : s.usedEdges ≤ camSlots := by
  unfold State.usedEdges usedPrefix
  have := (List.takeWhile_prefix (l := s.edges) fun e => e != camSentinel).length_le
  rw [edges_length] at this
  exact this

theorem edgeLegal_iff (s : State) (k : Nat) : s.EdgeLegal k ↔ EntryLegal none s.edges k := by
  unfold EntryLegal entryBefore
  rw [← edge_eq_getD, ← edge_eq_getD]
  cases k <;> simp

theorem usedPrefix_spec (es : List Nat) :
    (∀ k, k < (usedPrefix es).length → es.getD k camSentinel ≠ camSentinel) ∧ es.getD (usedPrefix es).length camSentinel = camSentinel := by
  induction es with
  | nil => simp [usedPrefix]
  | cons e es ih =>
    rw [usedPrefix_cons]
    by_cases hs : e = camSentinel
    · simp [hs]
    · rw [if_neg hs]
      refine ⟨fun k hk => ?_, by simpa using ih.2⟩
      cases k with
      | zero => simpa using hs
      | succ k => simpa using ih.1 k (by simpa using hk)

/-- A used slot holds no sentinel, and the first unused one does; from slot 20 up every slot reads as one (`10_state.md` R51). -/
theorem used_edge_ne (s : State) {k : Nat} (h : k < s.usedEdges) : s.edge k ≠ camSentinel := by
  rw [edge_eq_getD]; exact (usedPrefix_spec s.edges).1 k h
theorem unused_edge (s : State) : s.edge s.usedEdges = camSentinel := by
  rw [edge_eq_getD]; exact (usedPrefix_spec s.edges).2

/-- A slot is used exactly when neither it nor a slot before it holds the sentinel (`10_state.md` R51). -/
theorem lt_usedEdges_iff (s : State) (k : Nat) : k < s.usedEdges ↔ k < camSlots ∧ ∀ j, j ≤ k → s.edge j ≠ camSentinel := by
  constructor
  · intro h
    exact ⟨Nat.lt_of_lt_of_le h (usedEdges_le s), fun j hj => used_edge_ne s (by omega)⟩
  · rintro ⟨-, h⟩
    by_contra hn
    exact h _ (by omega) (unused_edge s)

/-- The used edges rise. -/
theorem edge_lt {s : State} (h : ∀ k, k < s.usedEdges → s.EdgeLegal k) {i j : Nat} (hij : i < j) (hj : j < s.usedEdges) :
    s.edge i < s.edge j := by
  induction j with
  | zero => omega
  | succ j ih =>
    have hstep : s.edge j < s.edge (j + 1) := by
      have := (h (j + 1) hj).2
      simpa using this
    rcases Nat.lt_succ_iff_lt_or_eq.1 hij with hlt | rfl
    · exact Nat.lt_trans (ih hlt (by omega)) hstep
    · exact hstep

/-! ### VALIDATE -/

/-- The legal wheels (`10_state.md` R49). -/
theorem wheelLegal_iff (s : State) :
    s.wheelLegal = true ↔
      (s.toothCount = 30 ∨ s.toothCount = 60 ∨ s.toothCount = 120) ∧ (s.missingCount = 1 ∨ s.missingCount = 2) := by
  simp [State.wheelLegal, or_assoc]


theorem tdcPositionOut_false (s : State) : s.tdcPositionOut = false := by
  unfold State.tdcPositionOut State.tdcPos
  simp only [List.any_eq_false, decide_eq_true_eq]
  intro k _
  have : (s.refToTdc0 + k * s.interval) % elementCount < elementCount := Nat.mod_lt _ (by decide)
  omega

theorem cylLegal_iff (s : State) :
    (!s.params.supportedCyl.contains s.cylCount || elementCount % s.cylCount != 0) = false ↔ s.CylLegal := by
  simp [State.CylLegal]

/-- The first check that fails, in R230's order. -/
theorem validateError_eq (s : State) :
    (¬s.CylLegal → s.validateError = some .invalidCylinderCount) ∧
      (s.CylLegal → elementCount ≤ s.refToTdc0 → s.validateError = some .tdcOutOfRange) ∧
      (s.CylLegal → s.refToTdc0 < elementCount → s.validateError =
        match camListError none s.edges with
        | some e => some e
        | none => if s.wheelLegal then none else some .invalidCrankWheel) := by
  unfold State.validateError
  refine ⟨fun h => ?_, fun h h2 => ?_, fun h h2 => ?_⟩
  · have : (!s.params.supportedCyl.contains s.cylCount || elementCount % s.cylCount != 0) = true := by
      cases hb : (!s.params.supportedCyl.contains s.cylCount || elementCount % s.cylCount != 0) with
      | true => rfl
      | false => exact absurd ((cylLegal_iff s).1 hb) h
    rw [if_pos this]
  · rw [(cylLegal_iff s).2 h, if_pos h2]; rfl
  · rw [(cylLegal_iff s).2 h, if_neg (show ¬s.refToTdc0 ≥ elementCount by omega), tdcPositionOut_false]; rfl

/-- VALIDATE succeeds exactly on a legal configuration (`45_config_control.md` R236). -/
theorem validateError_none_iff (s : State) : s.validateError = none ↔ s.ConfigLegal := by
  obtain ⟨h1, h2, h3⟩ := validateError_eq s
  by_cases hc : s.CylLegal
  · by_cases hr : s.refToTdc0 < elementCount
    · rw [h3 hc hr]
      have he : (∀ k, k < s.usedEdges → s.EdgeLegal k) ↔ camListError none s.edges = none := by
        rw [camListError_none_iff]
        exact forall_congr' fun k => imp_congr_right fun _ => edgeLegal_iff s k
      unfold State.ConfigLegal
      rw [he]
      cases camListError none s.edges with
      | some e => simp
      | none =>
        have : (s.CylLegal ∧ s.refToTdc0 < elementCount ∧ True ∧ s.wheelLegal = true) ↔ s.wheelLegal = true :=
          ⟨fun h => h.2.2.2, fun h => ⟨hc, hr, trivial, h⟩⟩
        simpa using this.symm
    · rw [h2 hc (by omega)]
      simp [State.ConfigLegal, hr]
  · rw [h1 hc]
    simp only [reduceCtorEq, false_iff]
    exact fun h => hc h.1

end Sys2Proof.Machine
end

