-- ==== Sys2Proof/Laws/Pattern.lean ====
section
/-! SUPPORT. Laws/Pattern.lean: what the closed forms of the pattern rest on: the legal configuration, the used edges below an angle, and
that equal configurations have equal derived quantities. -/

namespace Sys2Proof.Machine

/-! ### Legal configurations -/

/-- A legal cylinder count is 1 to 6 (`00_scope.md` R10). -/
theorem cylCount_range {s : State} (hp : s.params.wf = true) (hc : s.CylLegal) : 1 ≤ s.cylCount ∧ s.cylCount ≤ 6 := by
  unfold Params.wf at hp
  rw [List.all_eq_true] at hp
  have := hp _ hc.1
  simp at this; omega

/-- The six legal wheels (`10_state.md` R49). -/
theorem wheel_cases {s : State} (h : s.wheelLegal = true) :
   ∃ hf g, s.halfTooth = hf ∧ s.gapSpan = g ∧ s.gapStart = 3600 - g ∧ 
     ((hf = 60 ∧ (g = 120 ∨ g = 240)) ∨ (hf = 30 ∧ (g = 60 ∨ g = 120)) ∨ (hf = 15 ∧ (g = 30 ∨ g = 60))) := by
  refine ⟨_, _, rfl, rfl, rfl, ?_⟩
  unfold State.halfTooth State.gapSpan State.toothAngle
  simp [State.wheelLegal] at h
  obtain ⟨h1, h2⟩ := h
  rcases h1 with (h1 | h1) | h1 <;> rcases h2 with h2 | h2 <;> rw [h1, h2] <;> decide

/-! ### PMEM stays canonical -/

/-- Every element of a canonical PMEM has its form. -/
theorem elem_form {s : State} (h : Memory.wf s.params.width s.pmem = true) (i : Nat) :
    s.elem i = Elem.undefined ∨ (s.elem i).wf s.params.width = true :=
  lookup_wf h i

/-- A bit write keeps PMEM canonical. -/
theorem setElem_setBit_wf {s : State} (h : Memory.wf s.params.width s.pmem = true) {i b : Nat} (x : Level) (hi : i < elementCount)
    (hb : b < 8) :
   Memory.wf s.params.width (s.setElem i ((s.elem i).setBit b x)).pmem = true :=
  put_wf hi (.inr (setBit_wf _ _ _ _ (Nat.lt_of_lt_of_le hb (width_ge _)) (elem_form h i))) h

/-- The writes of a main step keep PMEM canonical. -/
theorem signalsWritten_wf {s : State} (hm : Memory.wf s.params.width s.pmem = true) {a : Nat} (ha : a < elementCount) :
    Memory.wf s.params.width (signalsWritten s a).pmem = true := by
  unfold signalsWritten
  exact setElem_setBit_wf (s := s.setElem a ((s.elem a).setBit 0 s.camLvl)) (setElem_setBit_wf hm _ ha (by decide)) _ ha (by decide)

/-! ### Equal configurations -/

theorem sameConfig_edge {s g : State} (h : s.SameConfig g) (k : Nat) : s.edge k = g.edge k := by
  unfold State.edge State.camSlot; rw [h.2.2.2.2]
theorem sameConfig_cyl {s g : State} (h : s.SameConfig g) : s.cylCount = g.cylCount := by unfold State.cylCount; rw [h.2.2.2.1]
theorem sameConfig_used {s g : State} (h : s.SameConfig g) : s.usedEdges = g.usedEdges := by
  unfold State.usedEdges State.edges; rw [h.2.2.2.2]
theorem sameConfig_tdcPos {s g : State} (h : s.SameConfig g) (k : Nat) : s.tdcPos k = g.tdcPos k := by
  unfold State.tdcPos State.interval State.refToTdc0; rw [sameConfig_cyl h, h.2.2.2.1]
theorem sameConfig_half {s g : State} (h : s.SameConfig g) : s.halfTooth = g.halfTooth := by
  unfold State.halfTooth State.toothAngle State.toothCount; rw [h.2.1]
theorem sameConfig_gap {s g : State} (h : s.SameConfig g) : s.gapSpan = g.gapSpan := by
  unfold State.gapSpan State.toothAngle State.toothCount State.missingCount; rw [h.2.1]
theorem sameConfig_first {s g : State} (h : s.SameConfig g) : s.crkFirst = g.crkFirst := by
  unfold State.crkFirst State.gapInv; rw [h.2.1]

/-! ### The used edges below an angle -/

theorem edgesBelow_le (s : State) (a : Nat) : s.edgesBelow a ≤ s.usedEdges := by
  unfold State.edgesBelow
  exact (List.countP_le_length).trans (by simp)

theorem countP_range_lt (n : Nat) (p : Nat → Bool) (c : Nat) (hc : c ≤ n) (h1 : ∀ k, k < c → p k = true)
    (h2 : ∀ k, c ≤ k → k < n → p k = false) :
   (List.range n).countP p = c := by
  induction n with
  | zero => simp; omega
  | succ n ih =>
    rw [List.range_succ, List.countP_append]
    by_cases hn : c ≤ n
    · rw [ih hn (fun k hk h => h2 k hk (by omega))]
      simp [h2 n hn (by omega)]
    · have : c = n + 1 := by omega
      subst this
      have : (List.range n).countP p = n := by
        rw [List.countP_eq_length.2]; simp
        intro k hk; exact h1 k (by simp at hk; omega)
      rw [this]; simp [h1 n (by omega)]

/-- The used edges below `a` are the first ones. -/
theorem edgesBelow_spec {s : State} (h : ∀ k, k < s.usedEdges → s.EdgeLegal k) (a : Nat) :
   (∀ k, k < s.edgesBelow a → s.edge k < a) ∧ (∀ k, s.edgesBelow a ≤ k → k < s.usedEdges → a ≤ s.edge k) := by
  have : ∃ c, c ≤ s.usedEdges ∧ (∀ k, k < c → s.edge k < a) ∧ (∀ k, c ≤ k → k < s.usedEdges → a ≤ s.edge k) := by
    by_cases hx : ∃ k, k < s.usedEdges ∧ a ≤ s.edge k
    · have hf := Nat.find_spec hx
      refine ⟨Nat.find hx, by omega, fun k hk => ?_, fun k hk hku => ?_⟩
      · have := Nat.find_min hx hk
        have h2 : k < s.usedEdges := by omega
        by_contra hh; exact this ⟨h2, by omega⟩
      · rcases Nat.eq_or_lt_of_le hk with heq | hlt
        · rw [← heq]; exact hf.2
        · have := edge_lt h hlt hku; omega
    · refine ⟨s.usedEdges, le_refl _, fun k hk => ?_, fun k h1 h2 => by omega⟩
      by_contra hh; exact hx ⟨k, hk, by omega⟩
  obtain ⟨c, hc, h1, h2⟩ := this
  have heq : s.edgesBelow a = c := countP_range_lt _ _ c hc (fun k hk => by simpa using h1 k hk)
    (fun k hk hku => by simpa using h2 k hk hku)
  rw [heq]; exact ⟨h1, h2⟩

theorem edgesBelow_zero (s : State) : s.edgesBelow 0 = 0 := by
  unfold State.edgesBelow; simp

theorem edgesBelow_unique {s : State} {a c : Nat} (hc : c ≤ s.usedEdges) (h1 : ∀ k, k < c → s.edge k < a)
    (h2 : ∀ k, c ≤ k → k < s.usedEdges → a ≤ s.edge k) : s.edgesBelow a = c :=
  countP_range_lt _ _ c hc (fun k hk => by simpa using h1 k hk)
    (fun k hk hku => by simpa using h2 k hk hku)

/-- One more edge is below `a + 1` exactly when an edge is at `a`. -/
theorem edgesBelow_succ {s : State} (h : ∀ k, k < s.usedEdges → s.EdgeLegal k) (a : Nat) (ha : a < 7200) :
   s.edgesBelow (a + 1) = if s.edge (s.edgesBelow a) = a then s.edgesBelow a + 1 else s.edgesBelow a := by
  obtain ⟨h1, h2⟩ := edgesBelow_spec h a
  have hle := edgesBelow_le s a
  split
  · rename_i he
    have hlt : s.edgesBelow a < s.usedEdges := by
      rcases Nat.eq_or_lt_of_le hle with heq | hlt
      · rw [heq, unused_edge] at he; simp [camSentinel] at he; omega
      · exact hlt
    apply edgesBelow_unique (by omega)
    · intro k hk
      rcases Nat.lt_succ_iff_lt_or_eq.1 hk with hk | rfl
      · have := h1 k hk; omega
      · omega
    · intro k hk hku
      have := edge_lt h (show s.edgesBelow a < k by omega) hku; omega
  · rename_i he
    apply edgesBelow_unique hle
    · intro k hk; have := h1 k hk; omega
    · intro k hk hku
      have := h2 k hk hku
      rcases Nat.eq_or_lt_of_le hk with heq | hlt
      · rw [← heq] at this ⊢; omega
      · have := h2 _ (le_refl _) (by omega); have := edge_lt h hlt hku; omega

theorem edge_hit {s : State} (h : ∀ k, k < s.usedEdges → s.EdgeLegal k) (a : Nat) (ha : a < 7200) :
   (∃ k, k < s.usedEdges ∧ s.edge k = a) ↔ s.edge (s.edgesBelow a) = a := by
  obtain ⟨h1, h2⟩ := edgesBelow_spec h a
  have hle := edgesBelow_le s a
  constructor
  · rintro ⟨k, hk, he⟩
    have hk1 : s.edgesBelow a ≤ k := by
      by_contra hh; have := h1 k (by omega); omega
    rcases Nat.eq_or_lt_of_le hk1 with heq | hlt
    · rw [heq]; exact he
    · have := h2 _ (le_refl _) (by omega); have := edge_lt h hlt hk; omega
  · intro he
    refine ⟨_, ?_, he⟩
    rcases Nat.eq_or_lt_of_le hle with heq | hlt
    · rw [heq, unused_edge] at he; simp [camSentinel] at he; omega
    · exact hlt

theorem edgesBelow_end {g : State} (h : ∀ k, k < g.usedEdges → g.EdgeLegal k) : g.edgesBelow 7200 = g.usedEdges := by
  obtain ⟨h1, h2⟩ := edgesBelow_spec h 7200
  have hle := edgesBelow_le g 7200
  by_contra hne
  have := h2 _ (le_refl _) (by omega)
  have := (h _ (show g.edgesBelow 7200 < g.usedEdges by omega)).1
  simp only [elementCount] at *
  omega

end Sys2Proof.Machine
end

