-- ==== Sys2Proof/Laws/Step.lean ====
section
/-! SUPPORT. Laws/Step.lean: what one step is, said once: the reset, a turn that passes, or the instruction of the turn. -/

namespace Sys2Proof.Machine

/-- The state a turn is taken in is `s` but for its agenda. -/
theorem nextTurn_state (s : State) : ∃ rest, (nextTurn s).2 = { s with agenda := rest } := by
  unfold nextTurn
  split
  · exact ⟨s.agenda, rfl⟩
  · exact ⟨_, rfl⟩

theorem nextTurn_cons {s : State} {t : Turn} {rest : List Turn} (h : s.agenda = t :: rest) :
    nextTurn s = (t, { s with agenda := rest }) := by unfold nextTurn; rw [h]

/-- Everything a step can answer, in the state `u` that is `s` with the turn taken off its agenda. -/
theorem step_cases (s : State) :
    ∃ u rest, u = { s with agenda := rest } ∧
      ((∃ r, s.agenda = .reset :: r ∧ step s = .next u.applyReset) ∨ ((∀ r, s.agenda ≠ .reset :: r) ∧ step s = .next u) ∨
        ∃ i, (∀ r, s.agenda ≠ .reset :: r) ∧ turnInstr (nextTurn s).1 u = some i ∧ step s = exec i u) := by
  obtain ⟨rest, hrest⟩ := nextTurn_state s
  refine ⟨(nextTurn s).2, rest, hrest, ?_⟩
  by_cases hr : (nextTurn s).1 = .reset
  · refine .inl ?_
    cases ha : s.agenda with
    | nil => unfold nextTurn at hr; rw [ha] at hr; cases hr
    | cons t r =>
      have hn := nextTurn_cons ha
      rw [hn] at hr
      cases hr
      exact ⟨r, rfl, by unfold step; rw [hn]; rfl⟩
  · have hne : ∀ r, s.agenda ≠ .reset :: r := fun r h => hr (by rw [nextTurn_cons h])
    have hs : step s = match turnInstr (nextTurn s).1 (nextTurn s).2 with
        | some i => exec i (nextTurn s).2
        | none => .next (nextTurn s).2 := by
      unfold step takeTurn
      split
      · rename_i h; exact absurd h hr
      · rfl
    cases hi : turnInstr (nextTurn s).1 (nextTurn s).2 with
    | none => exact .inr (.inl ⟨hne, by rw [hs, hi]⟩)
    | some i => exact .inr (.inr ⟨i, hne, rfl, by rw [hs, hi]⟩)

/-- The ENGINE's instructions come only from its own turn, in their phase. -/
theorem turnInstr_engine {t : Turn} {s : State} {i : Instr} (h : turnInstr t s = some i) :
    (i = .mainStep → s.phase = .main) ∧ (i = .tdcStep → s.phase = .tdc) := by
  unfold turnInstr at h
  split at h
  · cases h
  · rename_i wire hw
    split at h
    · rename_i j hd
      cases h
      cases wire with
      | cmd w =>
        have : decodeCommand w = i := by simpa [decode] using hd
        constructor <;> rintro rfl <;> rcases decodeCommand_cases w with h1 | ⟨op, -, h1⟩ <;> rw [h1] at this <;>
          first | cases this | (cases op <;> cases this)
      | reg acc size off =>
        unfold decode at hd
        simp only at hd
        split at hd
        · cases hd; simp
        · have hr : decodeRegister acc (off.toNat / 4) = i := by simpa using hd
          constructor <;> rintro rfl <;> cases acc <;>
            (simp only [decodeRegister] at hr; first | unfold decodeRead at hr | unfold decodeWrite at hr) <;>
            (split at hr <;> first | cases hr | (split_ifs at hr))
      | port n => simp [decode] at hd; subst hd; simp
      | engine p =>
        have hp : p = s.phase := by
          unfold turnWire at hw
          cases t with
          | engine => simpa using hw.symm
          | bus acc size addr => simp only at hw; split at hw <;> simp at hw
          | _ => simp at hw
        subst hp
        cases hph : s.phase <;> rw [hph] at hd <;> simp [decode] at hd <;> subst hd <;> simp
    · cases h

/-! ### Runs -/

/-- A run of `k + 1` steps is a run of `k` steps and one step. -/
theorem runFor_succ {k : Nat} {s u : State} (h : runFor k s = .next u) : runFor (k+1) s = step u := by
  induction k generalizing s with
  | zero =>
    cases h
    show (match step u with | .next s' => runFor 0 s' | .fault r => .fault r | .refused r => .refused r) = _
    cases step u <;> rfl
  | succ k ih =>
    have e : ∀ n, runFor (n+1) s = 
        (match step s with | .next s' => runFor n s' | .fault r => .fault r | .refused r => .refused r) := fun n => rfl
    rw [e] at h ⊢
    cases hs : step s with
    | next s' => rw [hs] at h; exact ih h
    | fault r => rw [hs] at h; cases h
    | refused r => rw [hs] at h; cases h

end Sys2Proof.Machine
end

