-- ==== Sys2Proof/Tests/Slice0.lean ====
section
/-! SUPPORT. Tests/Slice0.lean: the model's own tests. Expected values are those of `95_test_vectors.md` (V-E, V-B, V-V, V-R, V-G, V-X) and
of the rules named. -/

namespace Sys2Proof.Tests
open Sys2Proof.Machine

/-! ### Helpers -/

/-- The answer is a next state of which `p` is true. -/
def nextIs (r : Result) (p : State → Bool) : Bool :=
  match r with
  | .next s => p s
  | .fault _ => false
  | .refused _ => false

/-- The answer is this fault. -/
def faultIs (r : Result) (f : Fault) : Bool :=
  match r with
  | .next _ => false
  | .fault g => g == f
  | .refused _ => false

/-- The register read answers this word, and STATUS is then this word. -/
def readIs (r : Result) (v status : Word) : Bool := nextIs r fun s => s.hostRead == some v && s.status == status

/-- STATUS is this word afterwards. -/
def statusIs (r : Result) (status : Word) : Bool := nextIs r fun s => s.status == status

/-- Twenty cam slots from the first ones. -/
def slots (es : List Word) : Vector Word 20 := Vector.ofFn fun k => es.getD k.val 0x0000FFFF#32

/-- The configuration of `95_test_vectors.md` V-L1: 60 teeth, 2 missing, inverted; cam High with edges 289 and 389; 658 and 6 cylinders. -/
def configured : State :=
  { State.reset with
    crkCfg := 0x0001023C#32
    camCfg := 0x00000001#32
    tdcCfg := 0x00060292#32
    camEdge := slots [289#32, 389#32] }

/-- V-L1's configuration, validated. -/
def validated : State := { configured with cfgValid := true }

/-- A generation of V-L1's configuration, accepted. -/
def generating : State := validated.generateAccept

/-- The same before the last main step. -/
def lastMain : State := { generating with cursor := 7199#13, camIdx := 2#5, camLvl := .high, crkLvl := .high }

/-- The same before TDC step `k`. -/
def tdcStage (k : BitVec 3) : State := { lastMain with phase := .tdc, tdcK := k }

/-- One element of an 8-bit PMEM after reset. -/
def withElem (i : Nat) (v : Word) (s : State) : State := s.setElem i (Elem.ofWord .w8 v)

/-! ### Well-formedness: an ill-formed term for each check -/

theorem test_wf_refuses_command_word : Instr.wellFormed (.reservedOpc 0x10010005#32) = false := by decide
theorem test_wf_refuses_aligned_word_access : Instr.wellFormed (.misaligned .read .word 0x0C#8) = false := by decide
theorem test_wf_refuses_stream_overrun : Instr.wellFormed (.streamRd 7200) = false := by decide
theorem test_wf_accepts_reserved_opcode : Instr.wellFormed (.reservedOpc 0xF0000000#32) = true := by decide
theorem test_wf_accepts_stray_field : Instr.wellFormed (.reservedOpc 0x00020000#32) = true := by decide
theorem test_wf_accepts_narrow_access : Instr.wellFormed (.misaligned .read .half 0x0C#8) = true := by decide
theorem test_wf_accepts_last_element : Instr.wellFormed (.streamRd 7199) = true := by decide

/-! ### Decoding. Command words are written bit by bit, OPC RSV LVL CYL ADDR (`30_encoding.md` R81), register accesses by the offsets of
`10_state.md` R32. -/

theorem test_decode_nop : decode (.cmd 0b0000_00000000000_0_000_0000000000000#32) = .ok .nop := by decide
theorem test_decode_setCam : decode (.cmd 0b0001_00000000000_1_000_0000000000101#32) = .ok (.setCam 5#13 .high) := by decide
theorem test_decode_getCam : decode (.cmd 0b0010_00000000000_0_000_0000100100010#32) = .ok (.getCam 290#13) := by decide
theorem test_decode_setCrk : decode (.cmd 0b0011_00000000000_0_000_1110000011111#32) = .ok (.setCrk 7199#13 .low) := by decide
theorem test_decode_getCrk : decode (.cmd 0b0100_00000000000_0_000_0110110011001#32) = .ok (.getCrk 3481#13) := by decide
theorem test_decode_setTdc : decode (.cmd 0b0101_00000000000_1_001_0001010010010#32) = .ok (.setTdc 658#13 1#3 .high) := by decide
theorem test_decode_getTdc : decode (.cmd 0b0110_00000000000_0_001_0011101000010#32) = .ok (.getTdc 1858#13 1#3) := by decide
theorem test_decode_rdWord : decode (.cmd 0b0111_00000000000_0_000_0001010010010#32) = .ok (.rdWord 658#13) := by decide
theorem test_decode_wrWord : decode (.cmd 0b1000_00000000000_0_000_1110000011111#32) = .ok (.wrWord 7199#13) := by decide
theorem test_decode_validate : decode (.cmd 0b1001_00000000000_0_000_0000000000000#32) = .ok .validate := by decide
theorem test_decode_generate : decode (.cmd 0b1010_00000000000_0_000_0000000000000#32) = .ok .generate := by decide
theorem test_decode_clrErr : decode (.cmd 0b1011_00000000000_0_000_0000000000000#32) = .ok .clrErr := by decide
theorem test_decode_reserved :
    decode (.cmd 0b1100_00000000000_0_000_0000000000000#32) = .ok (.reservedOpc 0xC0000000#32) ∧
      decode (.cmd 0b1111_00000000000_0_000_0000000000000#32) = .ok (.reservedOpc 0xF0000000#32) := by decide

/-- The words of V-E that spell no command. -/
theorem test_decode_stray_fields :
    ([0x20010122#32, 0x00000001#32, 0x00020000#32, 0x10020000#32, 0x7FFE0000#32, 0x20002000#32, 0x1001FFFF#32, 0x3001E005#32,
      0x60010000#32, 0x90000001#32, 0xA0000001#32, 0xB0000001#32].all fun w => commandOf w == none) = true := by decide

theorem test_decode_cmd : decode (.reg .read .word 0b00000000#8) = .ok .readCmd ∧
    decode (.reg (.write 0x90000000#32) .word 0b00000000#8) = .ok (.writeCmd 0x90000000#32) := by decide
theorem test_decode_data : decode (.reg .read .word 0b00000100#8) = .ok .readData ∧
    decode (.reg (.write 7#32) .word 0b00000100#8) = .ok (.writeData 7#32) := by decide
theorem test_decode_result : decode (.reg .read .word 0b00001000#8) = .ok .readResult ∧
    decode (.reg (.write 7#32) .word 0b00001000#8) = .ok (.writeResult 7#32) := by decide
theorem test_decode_status : decode (.reg .read .word 0b00001100#8) = .ok .readStatus ∧
    decode (.reg (.write 7#32) .word 0b00001100#8) = .ok (.writeStatus 7#32) := by decide
theorem test_decode_crkCfg : decode (.reg .read .word 0b00010000#8) = .ok .readCrkCfg ∧
    decode (.reg (.write 7#32) .word 0b00010000#8) = .ok (.writeCrkCfg 7#32) := by decide
theorem test_decode_camCfg : decode (.reg .read .word 0b00010100#8) = .ok .readCamCfg ∧
    decode (.reg (.write 7#32) .word 0b00010100#8) = .ok (.writeCamCfg 7#32) := by decide
theorem test_decode_tdcCfg : decode (.reg .read .word 0b00011000#8) = .ok .readTdcCfg ∧
    decode (.reg (.write 7#32) .word 0b00011000#8) = .ok (.writeTdcCfg 7#32) := by decide
theorem test_decode_info : decode (.reg .read .word 0b00011100#8) = .ok .readInfo ∧
    decode (.reg (.write 7#32) .word 0b00011100#8) = .ok (.writeInfo 7#32) := by decide
theorem test_decode_unmapped20 : decode (.reg .read .word 0b00100000#8) = .ok (.unmapped20 .read 0#3) ∧
    decode (.reg (.write 7#32) .word 0b00111100#8) = .ok (.unmapped20 (.write 7#32) 7#3) := by decide
theorem test_decode_camEdge0 : decode (.reg .read .word 0b01000000#8) = .ok (.readCamEdge0 0#4) ∧
    decode (.reg (.write 7#32) .word 0b01111100#8) = .ok (.writeCamEdge0 15#4 7#32) := by decide
theorem test_decode_camEdge16 : decode (.reg .read .word 0b10001100#8) = .ok (.readCamEdge16 3#2) ∧
    decode (.reg (.write 7#32) .word 0b10000000#8) = .ok (.writeCamEdge16 0#2 7#32) := by decide
theorem test_decode_camEdge20 : decode (.reg .read .word 0b10010000#8) = .ok (.readCamEdge20 0#2) ∧
    decode (.reg (.write 7#32) .word 0b10011100#8) = .ok (.writeCamEdge20 3#2 7#32) := by decide
theorem test_decode_camEdge24 : decode (.reg .read .word 0b10100100#8) = .ok (.readCamEdge24 1#3) ∧
    decode (.reg (.write 7#32) .word 0b10111100#8) = .ok (.writeCamEdge24 7#3 7#32) := by decide
theorem test_decode_unmappedC0 : decode (.reg .read .word 0b11000000#8) = .ok (.unmappedC0 .read 0#4) ∧
    decode (.reg (.write 7#32) .word 0b11111100#8) = .ok (.unmappedC0 (.write 7#32) 15#4) := by decide
theorem test_decode_misaligned : decode (.reg .read .word 0b00000110#8) = .ok (.misaligned .read .word 0x06#8) ∧
    decode (.reg (.write 7#32) .half 0b00000100#8) = .ok (.misaligned (.write 7#32) .half 0x04#8) := by decide
theorem test_decode_port : decode (.port 658) = .ok (.streamRd 658) := by decide
theorem test_decode_engine : decode (.engine .main) = .ok .mainStep ∧ decode (.engine .tdc) = .ok .tdcStep ∧
    decode (.engine .idle) = .error .engineIdle := ⟨rfl, rfl, rfl⟩

/-- The host's numbering: a command word and an offset. -/
theorem test_decodeTableWord : decodeTableWord 32 0x50012292 = some (.setTdc 658#13 1#3 .high) ∧
    decodeTableWord 8 0x1C = some .readInfo ∧ decodeTableWord 0 0 = none := by decide

/-! ### Element commands (V-B and V-E; e[5] is the element) -/

theorem test_setCam : nextIs (exec (.setCam 5#13 .high) (withElem 5 0x00#32 State.reset)) (fun t =>
    t.elem 5 == Elem.ofWord .w8 0x01#32 && t.status == 0#32) = true := by decide
theorem test_setCam_low : nextIs (exec (.setCam 5#13 .low) (withElem 5 0x83#32 State.reset)) (fun t =>
    t.elem 5 == Elem.ofWord .w8 0x82#32) = true := by decide
theorem test_setCam_keeps_undefined : nextIs (exec (.setCam 5#13 .high) State.reset) (fun t =>
    t.bit 5 0 == some .high && t.bit 5 1 == none && t.bit 4 0 == none) = true := by decide
theorem test_setCrk : nextIs (exec (.setCrk 5#13 .low) (withElem 5 0xFF#32 State.reset)) (fun t =>
    t.elem 5 == Elem.ofWord .w8 0xFD#32) = true := by decide
theorem test_setTdc : nextIs (exec (.setTdc 5#13 5#3 .high) (withElem 5 0x03#32 State.reset)) (fun t =>
    t.elem 5 == Elem.ofWord .w8 0x83#32) = true := by decide
theorem test_setTdc_cylinder : statusIs (exec (.setTdc 5#13 6#3 .high) State.reset) 0xA0#32 = true := by decide
theorem test_getTdc : nextIs (exec (.getTdc 5#13 5#3) (withElem 5 0x82#32 State.reset)) (fun t => t.result == 1#32) = true := by decide
theorem test_getTdc_address_first : statusIs (exec (.getTdc 8191#13 7#3) State.reset) 0x90#32 = true := by decide
theorem test_getCam : nextIs (exec (.getCam 5#13) (withElem 5 0x82#32 State.reset)) (fun t => t.result == 0#32) = true := by decide
theorem test_getCam_undefined : faultIs (exec (.getCam 6#13) State.reset) (.undefinedRead 6 0) = true := by decide
theorem test_getCrk : nextIs (exec (.getCrk 5#13) (withElem 5 0x82#32 State.reset)) (fun t => t.result == 1#32) = true := by decide
theorem test_rdWord : nextIs (exec (.rdWord 5#13) (withElem 5 0x82#32 State.reset)) (fun t => t.result == 0x82#32) = true := by decide
theorem test_rdWord_undefined : faultIs (exec (.rdWord 0#13) State.reset) (.undefinedRead 0 0) = true := by decide
theorem test_wrWord_truncates : nextIs (exec (.wrWord 5#13) { State.reset with data := 0x12345678#32 }) (fun t =>
    t.elem 5 == Elem.ofWord .w8 0x78#32) = true := by decide
theorem test_wrWord_address : statusIs (exec (.wrWord 7200#13) State.reset) 0x90#32 = true := by decide
/-- V-B row 10: a second error keeps the first code. -/
theorem test_second_error : statusIs (exec (.setTdc 5#13 6#3 .high) (State.reset.recordError .addressOutOfRange)) 0x98#32 = true := by
  decide

/-! ### Control commands (V-V, V-X, V-G) -/

theorem test_nop : statusIs (exec (.writeCmd 0x00000000#32) State.reset) 0#32 = true := by decide
theorem test_validate : statusIs (exec .validate configured) 0x04#32 = true := by decide
theorem test_validate_reset : statusIs (exec .validate State.reset) 0x10#32 = true := by decide
theorem test_validate_reference : statusIs (exec .validate { configured with tdcCfg := 0x00061C20#32 }) 0x20#32 = true := by decide
theorem test_validate_cam_edge : statusIs (exec .validate { configured with camEdge := slots [289#32, 7200#32] }) 0x60#32 = true := by
  decide
theorem test_validate_cam_order : statusIs (exec .validate { configured with camEdge := slots [289#32, 289#32] }) 0x40#32 = true := by
  decide
theorem test_validate_after_sentinel :
    statusIs (exec .validate { configured with camEdge := slots [289#32, 389#32, 0xFFFF#32, 5#32] }) 0x04#32 = true := by decide
theorem test_validate_wheel : statusIs (exec .validate { configured with crkCfg := 0x0001022D#32 }) 0x50#32 = true := by decide
theorem test_generate : nextIs (exec .generate validated) (fun t =>
    t.status == 0x105#32 && t.crkLvl == .low && t.camLvl == .high) = true := by decide
theorem test_generate_refused : statusIs (exec .generate State.reset) 0x70#32 = true := by decide
theorem test_clrErr : statusIs (exec .clrErr { generating with err := .busy, errMulti := true }) 0x105#32 = true := by decide
theorem test_reserved : statusIs (exec (.writeCmd 0xC0000000#32) generating) 0x1B5#32 = true := by decide

/-! ### Register accesses (V-R, V-X) -/

theorem test_readCmd : readIs (exec .readCmd { State.reset with data := 1#32 }) 0#32 0#32 = true := by decide
theorem test_readInfo : readIs (exec .readInfo State.reset) 0x1C200008#32 0#32 = true := by decide
theorem test_readStatus : readIs (exec .readStatus generating) 0x105#32 0x105#32 = true := by decide
theorem test_readCamEdge16 : readIs (exec (.readCamEdge16 3#2) State.reset) 0xFFFF#32 0#32 = true := by decide
theorem test_readCamEdge0 : readIs (exec (.readCamEdge0 1#4) configured) 389#32 0#32 = true := by decide
theorem test_readCamEdge24 : readIs (exec (.readCamEdge24 1#3) State.reset) 0xFFFF#32 0#32 = true := by decide
theorem test_readCrkCfg : readIs (exec .readCrkCfg configured) 0x0001023C#32 0#32 = true := by decide
theorem test_writeData : nextIs (exec (.writeData 0xDEAD#32) generating) (fun t =>
    t.data == 0xDEAD#32 && t.status == 0x105#32) = true := by decide
theorem test_writeCamEdge20 : statusIs (exec (.writeCamEdge20 0#2 0x100#32) State.reset) 0x30#32 = true := by decide
theorem test_writeCrkCfg_reserved : nextIs (exec (.writeCrkCfg 0x0002003C#32) State.reset) (fun t =>
    t.status == 0xC0#32 && t.crkCfg == 0#32) = true := by decide
theorem test_writeCrkCfg_busy : nextIs (exec (.writeCrkCfg 0x3C#32) (generating.recordError .busy)) (fun t =>
    t.status == 0x18D#32 && t.crkCfg == 0x0001023C#32) = true := by decide
theorem test_writeCamCfg_invalidates : statusIs (exec (.writeCamCfg 1#32) validated) 0#32 = true := by decide
theorem test_writeTdcCfg : nextIs (exec (.writeTdcCfg 0x00040000#32) validated) (fun t =>
    t.tdcCfg == 0x00040000#32 && t.status == 0#32) = true := by decide
theorem test_writeCamEdge0 : nextIs (exec (.writeCamEdge0 2#4 0x0000FFFE#32) validated) (fun t =>
    t.camSlot 2 == 0xFFFE#32 && t.camSlot 1 == 389#32 && t.status == 0#32) = true := by decide
theorem test_writeCamEdge0_reserved : statusIs (exec (.writeCamEdge0 0#4 0x00010000#32) State.reset) 0xC0#32 = true := by decide
theorem test_writeStatus : statusIs (exec (.writeStatus 0#32) State.reset) 0xC0#32 = true := by decide
theorem test_unmapped : readIs (exec (.unmappedC0 .read 0#4) (State.reset.recordError .illegalAccess)) 0#32 0xC8#32 = true := by decide
theorem test_misaligned : readIs (exec (.misaligned .read .word 0x06#8) State.reset) 0#32 0xC0#32 = true := by decide

/-! ### The ENGINE, the stream port, and steps -/

/-- The edge at 289 is first seen in element 290 (V-C3): the step at 289 writes High, then toggles. -/
theorem test_mainStep_cam : nextIs (exec .mainStep { generating with cursor := 289#13 }) (fun t =>
    t.bit 289 0 == some .high && t.camLvl == .low && t.camIdx == 1#5 && t.cursor == 290#13) = true := by decide
/-- At 3600 the crank is set to the gap level, and element 3600 holds it (V-K3). -/
theorem test_mainStep_crank : nextIs (exec .mainStep { generating with cursor := 3600#13, crkLvl := .high }) (fun t =>
    t.bit 3600 1 == some .high && t.crkLvl == .low && t.bit 3600 2 == none) = true := by decide
theorem test_mainStep_last : nextIs (exec .mainStep lastMain) (fun t => t.status == 0x205#32 && t.cursor == 7199#13) = true := by decide
/-- The last marker of V-L1 is at 6658, and the generation ends with STATUS 0x06. -/
theorem test_tdcStep_last : nextIs (exec .tdcStep (tdcStage 5#3)) (fun t =>
    t.bit 6658 7 == some .high && t.status == 0x06#32 && t.tdcK == 6#3) = true := by decide
theorem test_tdcStep : nextIs (exec .tdcStep (tdcStage 0#3)) (fun t =>
    t.bit 658 2 == some .high && t.bit 658 3 == none && t.status == 0x205#32) = true := by decide
theorem test_streamRd : nextIs (exec (.streamRd 299) (withElem 299 0x02#32 generating)) (fun t =>
    t.streamOut == some 0x02#32) = true := by decide
theorem test_streamRd_undefined : faultIs (exec (.streamRd 0) State.reset) (.undefinedRead 0 0) = true := by decide
theorem test_streamRd_overrun : faultIs (exec (.streamRd 7200) State.reset) (.streamIndexOutOfContract 7200) = true := by decide

theorem test_step_reset : nextIs (step { tdcStage 3#3 with agenda := [.reset, .engine] }) (fun t =>
    t.status == 0#32 && t.pmem == [] && t.agenda == [.engine]) = true := by decide
theorem test_step_engine : nextIs (step generating) (fun t => t.cursor == 1#13) = true := by decide
theorem test_step_waits : nextIs (step State.reset) (fun t => t == State.reset) = true := by decide
theorem test_step_bus : nextIs (step { State.reset with
    params := { Params.reference with base := 0x40000000 }
    agenda := [.bus (.write 7#32) .word 0x40000004] }) (fun t => t.data == 7#32 && t.agenda == []) = true := by decide
theorem test_withFetchWord : nextIs (step (State.reset.withFetchWord 32 0xA0000000)) (fun t => t.status == 0x70#32) = true := by decide
theorem test_withFetchWord_register : nextIs (step (State.reset.withFetchWord 8 0x1C)) (fun t =>
    t.hostRead == some 0x1C200008#32) = true := by decide

/-! ### Duties of the environment (`70_reset_and_hazards.md` R303, R306): what breaks each of them -/

theorem test_duty_alignedReads : Duty.alignedReads.keptBy .initial State.reset (.misaligned .read .half 0x0C#8) = false ∧
    Duty.alignedReads.keptBy .initial State.reset .readStatus = true := by decide
theorem test_duty_validate : Duty.validateBeforeGenerate.keptBy .initial State.reset (.writeCmd 0xA0000000#32) = false ∧
    Duty.validateBeforeGenerate.keptBy (EnvView.initial.after configured .validate) validated .generate = true := by decide
theorem test_duty_readStatus : Duty.readStatusAfterValidate.keptBy (EnvView.initial.after configured .validate) validated .generate = false ∧
    Duty.readStatusAfterValidate.keptBy ((EnvView.initial.after configured .validate).after validated .readStatus) validated .generate =
      true := by decide
theorem test_duty_result : Duty.checkErrorBeforeResult.keptBy (EnvView.initial.after validated (.rdWord 5#13)) validated .readResult = false ∧
    Duty.checkErrorBeforeResult.keptBy ((EnvView.initial.after validated (.rdWord 5#13)).after validated .readStatus) validated .readResult =
      true := by decide
theorem test_duty_poll :
    let v := EnvView.initial.after validated .generate
    Duty.pollUntilIdle.keptBy v generating (.writeCamEdge24 0#3 0#32) = false ∧
    Duty.pollUntilIdle.keptBy (v.after generating .readStatus) generating (.rdWord 0#13) = false ∧
    Duty.pollUntilIdle.keptBy (v.after validated .readStatus) validated (.rdWord 0#13) = true ∧
    Duty.pollUntilIdle.keptBy v generating (.writeData 0#32) = true := by decide
theorem test_duty_stream_wraps : Duty.streamInOrder.keptBy (EnvView.initial.after validated (.streamRd 7199)) validated (.streamRd 0) = true ∧
    Duty.streamInOrder.keptBy (EnvView.initial.after validated (.streamRd 7199)) validated (.streamRd 7200) = false := by decide
theorem test_duty_stream_starts : Duty.streamStartsWhenComplete.keptBy .initial generating (.streamRd 0) = false ∧
    Duty.streamStartsWhenComplete.keptBy .initial State.reset (.streamRd 0) = false ∧
    Duty.streamStartsWhenComplete.keptBy .initial { validated with done := true } (.streamRd 0) = true := by decide

/-! ### Witnesses: for each statement with hypotheses, states and operands that meet them, at the boundaries of its clauses -/

theorem witness_DecodeOfEncode : Instr.wellFormed (.setTdc 8191#13 7#3 .high) = true ∧ Instr.wellFormed (.misaligned .read .byte 0xFF#8) = true := by
  decide
theorem witness_EncodeOfDecode : decode (.port 7200) = .ok (.streamRd 7200) ∧ decode (.cmd 0x20010122#32) = .ok (.reservedOpc 0x20010122#32) := by
  decide
theorem witness_StrayField_rsv : (0x00020000#32).extractLsb' 17 11 ≠ 0#11 := by decide
theorem witness_StrayField_lvl : (0x20010122#32).extractLsb' 16 1 ≠ 0#1 ∧ ((0x20010122#32).extractLsb' 28 4).toNat ∉ [1, 3, 5] := by decide
theorem witness_StrayField_cyl : (0x20002000#32).extractLsb' 13 3 ≠ 0#3 ∧ ((0x20002000#32).extractLsb' 28 4).toNat ∉ [5, 6] := by decide
theorem witness_StrayField_addr :
    (0x00000001#32).extractLsb' 0 13 ≠ 0#13 ∧ ((0x00000001#32).extractLsb' 28 4).toNat ∉ [1, 2, 3, 4, 5, 6, 7, 8] := by decide
theorem witness_ReservedOpcodes : 0xC ≤ ((0xC0000000#32).extractLsb' 28 4).toNat ∧ 0xC ≤ ((0xFFFFFFFF#32).extractLsb' 28 4).toNat := by decide
theorem witness_StepRuns_cmd : ({ State.reset with agenda := [.cmd 0x90000000#32] } : State).agenda = .cmd 0x90000000#32 :: [] ∧
    decode (.cmd 0x90000000#32) = .ok .validate := by decide
theorem witness_StepRuns_bus :
    ({ State.reset with agenda := [.bus .read .byte (State.reset.params.base + (0xFF#8).toNat)] } : State).agenda =
      .bus .read .byte (State.reset.params.base + (0xFF#8).toNat) :: [] ∧
    decode (.reg .read .byte 0xFF#8) = .ok (.misaligned .read .byte 0xFF#8) := by decide
theorem witness_StepRuns_stream : ({ State.reset with agenda := [.stream 7200] } : State).agenda = .stream 7200 :: [] ∧
    decode (.port 7200) = .ok (.streamRd 7200) := by decide
theorem witness_StepRuns_engine : ({ tdcStage 0#3 with agenda := [.engine] } : State).agenda = .engine :: [] ∧
    decode (.engine (tdcStage 0#3).phase) = .ok .tdcStep := by decide
theorem witness_StepsWithNoTransaction : generating.agenda = [] ∧ generating.phase = .main ∧ (tdcStage 0#3).agenda = [] ∧
    (tdcStage 0#3).phase = .tdc ∧ State.reset.agenda = [] ∧ State.reset.phase = .idle := by decide
theorem witness_StepsWithNoTransaction_bus :
    let s : State := { State.reset with params := { Params.reference with base := 1024 }, agenda := [.bus .read .word 1023, .bus .read .word 1280] }
    s.agenda = .bus .read .word 1023 :: [.bus .read .word 1280] ∧ 1023 < s.params.base ∧ s.params.base + 256 ≤ 1280 := by decide
theorem witness_ResetStep : ({ generating with agenda := [.reset] } : State).agenda = .reset :: [] := by decide
/-- Another register written after reset: TDC_CFG is still 0. -/
theorem witness_AfterReset : ({ State.reset with crkCfg := 0x0001023C#32 } : State).busy = false ∧
    ({ State.reset with crkCfg := 0x0001023C#32 } : State).tdcCfg = 0x00000000#32 ∧
    ({ State.reset with crkCfg := 0x0001023C#32 } : State).cfgValid = false ∧ (∀ v, Instr.writeCamCfg 1#32 ≠ .writeTdcCfg v) ∧
    ∃ t, exec (.writeCamCfg 1#32) { State.reset with crkCfg := 0x0001023C#32 } = .next t := ⟨rfl, rfl, rfl, nofun, _, rfl⟩
theorem witness_Raise : Err.illegalAccess ≠ .eNone ∧ State.reset.err = .eNone ∧ (State.reset.recordError .busy).err ≠ .eNone := by decide
theorem witness_ErrorsArePrecise : ∃ t, exec .generate State.reset = .next t ∧ t.err ≠ State.reset.err := ⟨_, rfl, by decide⟩
theorem witness_ErrorsArePrecise_record :
    (∃ u, exec (.writeStatus 0#32) { State.reset.recordError .busy with err := .eNone, errMulti := false } = .next u ∧ u.err ≠ .eNone) ∧
    ∃ u, exec (.unmapped20 .read 7#3) { State.reset.recordError .busy with err := .eNone, errMulti := false } = .next u ∧ u.err ≠ .eNone :=
  ⟨⟨_, rfl, by decide⟩, _, rfl, by decide⟩
theorem witness_OnlyClrErr : ∃ t, exec .readStatus { State.reset with err := .busy, errMulti := true } = .next t ∧
    ({ State.reset with err := .busy, errMulti := true } : State).err ≠ .eNone := ⟨_, rfl, by decide⟩
theorem witness_OnlyHost : (∃ t, exec .mainStep generating = .next t) ∧ (∃ t, exec .tdcStep (tdcStage 0#3) = .next t) ∧
    ∃ t, exec (.streamRd 7199) (withElem 7199 0x02#32 State.reset) = .next t := ⟨⟨_, rfl⟩, ⟨_, rfl⟩, _, rfl⟩
theorem witness_OnlyHost_step : (∀ w rest, generating.agenda ≠ .cmd w :: rest) ∧
    (∀ acc size addr rest, generating.agenda ≠ .bus acc size addr :: rest) ∧ (∀ rest, generating.agenda ≠ .reset :: rest) ∧
    ∃ t, step generating = .next t := ⟨nofun, nofun, nofun, _, rfl⟩
theorem witness_Nop : (0x00000001#32).extractLsb' 28 4 = 0#4 ∧ (0x00000001#32) ≠ 0x00000000#32 := by decide
theorem witness_ClrErr : (0xB0000001#32).extractLsb' 28 4 = 0xB#4 ∧ (0xB0000001#32) ≠ 0xB0000000#32 := by decide
theorem witness_SetCam : generating.busy = true ∧ State.reset.busy = false ∧ 7200 ≤ (7200#13).toNat ∧ (7199#13).toNat < 7200 := by decide
theorem witness_SetCrk : generating.busy = true ∧ State.reset.busy = false ∧ 7200 ≤ (8191#13).toNat ∧ (0#13).toNat < 7200 := by decide
theorem witness_GetCam : generating.busy = true ∧ State.reset.busy = false ∧ 7200 ≤ (7200#13).toNat ∧ (7199#13).toNat < 7200 ∧
    (withElem 7199 0x01#32 State.reset).busy = false ∧ (withElem 7199 0x01#32 State.reset).bit (7199#13).toNat 0 = some .high ∧
    State.reset.bit (7199#13).toNat 0 = none := by decide
theorem witness_GetCrk : generating.busy = true ∧ State.reset.busy = false ∧ 7200 ≤ (7200#13).toNat ∧ (7199#13).toNat < 7200 ∧
    (withElem 7199 0x01#32 State.reset).busy = false ∧ (withElem 7199 0x01#32 State.reset).bit (7199#13).toNat 1 = some .low ∧
    State.reset.bit (7199#13).toNat 1 = none := by decide
theorem witness_SetTdc : generating.busy = true ∧ State.reset.busy = false ∧ 7200 ≤ (7200#13).toNat ∧ (7199#13).toNat < 7200 ∧
    6 ≤ (6#3).toNat ∧ (5#3).toNat < 6 := by decide
theorem witness_GetTdc : generating.busy = true ∧ State.reset.busy = false ∧ 7200 ≤ (7200#13).toNat ∧ (7199#13).toNat < 7200 ∧
    6 ≤ (6#3).toNat ∧ (5#3).toNat < 6 ∧ (withElem 7199 0x80#32 State.reset).bit (7199#13).toNat (2 + (5#3).toNat) = some .high ∧
    State.reset.bit (7199#13).toNat (2 + (5#3).toNat) = none := by decide
theorem witness_RdWord : generating.busy = true ∧ State.reset.busy = false ∧ 7200 ≤ (7200#13).toNat ∧ (7199#13).toNat < 7200 ∧
    (∀ b, b < (withElem 7199 0x80#32 State.reset).params.width.bits → (withElem 7199 0x80#32 State.reset).bit (7199#13).toNat b ≠ none) ∧
    ∃ b, b < State.reset.params.width.bits ∧ State.reset.bit (7199#13).toNat b = none :=
  ⟨by decide, by decide, by decide, by decide, by decide, 7, by decide, by decide⟩
theorem witness_WrWord : generating.busy = true ∧ State.reset.busy = false ∧ 7200 ≤ (7200#13).toNat ∧ (7199#13).toNat < 7200 := by decide
theorem witness_BitWriteThenRead : 7199 < 7200 ∧ 7 < 8 ∧ Level.high ≠ Level.low := by decide
theorem witness_Info : State.reset.params.width = .w8 ∧ (State.resetOf { Params.reference with width := .w16 }).params.width = .w16 ∧
    (State.resetOf { Params.reference with width := .w32 }).params.width = .w32 ∧ ∃ t, step generating = .next t :=
  ⟨rfl, rfl, rfl, _, rfl⟩
theorem witness_Unmapped : Size.byte ≠ .word ∧ (0x01#8).toNat % 4 ≠ 0 ∧ (0x20 ≤ (0x20#8).toNat ∧ (0x20#8).toNat < 0x40) ∧
    (0x20 ≤ (0x3C#8).toNat ∧ (0x3C#8).toNat < 0x40) ∧ 0xC0 ≤ (0xC0#8).toNat ∧ 0xC0 ≤ (0xFC#8).toNat := by decide
theorem witness_Unmapped_mapped : (0x1C#8).toNat % 4 = 0 ∧ (0x1C#8).toNat < 0x20 ∧ (0x40#8).toNat % 4 = 0 ∧ 0x40 ≤ (0x40#8).toNat ∧
    (0xBC#8).toNat % 4 = 0 ∧ (0xBC#8).toNat < 0xC0 := by decide
theorem witness_ConfigurationWrites : generating.busy = true ∧ State.reset.busy = false ∧ 0x0002003C#32 &&& 0xFFFEFC00#32 ≠ 0#32 ∧
    0x000103FF#32 &&& 0xFFFEFC00#32 = 0#32 ∧ 0x2#32 &&& 0xFFFFFFFE#32 ≠ 0#32 ∧ 0x1#32 &&& 0xFFFFFFFE#32 = 0#32 ∧
    0x01000000#32 &&& 0xFF000000#32 ≠ 0#32 ∧ 0x00FFFFFF#32 &&& 0xFF000000#32 = 0#32 ∧ 0x00010000#32 &&& 0xFFFF0000#32 ≠ 0#32 ∧
    0x0000FFFF#32 &&& 0xFFFF0000#32 = 0#32 := by decide
theorem witness_OtherRegisterWrites : State.reset.busy = false := by decide
theorem witness_WriteCmdCompletes : validated.busy = false ∧ 0x10011C1F#32 &&& 0xFFFEE000#32 = 0x10000000#32 ∧
    ((0x10011C1F#32).extractLsb' 0 13).toNat < 7200 ∧ 0x80001C1F#32 &&& 0xFFFFE000#32 = 0x80000000#32 ∧
    ((0x80001C1F#32).extractLsb' 0 13).toNat < 7200 ∧ validated.cfgValid = true := by decide
theorem witness_ValidateAccepts : configured.busy = false ∧ configured.ConfigLegal := by decide
theorem witness_ValidateRaises_busy : generating.busy = true := by decide
/-- The fields as `ValidateRaisesTheFirstFailure` and the steps' statements spell them. -/
def cylOf (s : State) : Nat := (s.tdcCfg.extractLsb' 16 8).toNat
def refOf (s : State) : Nat := (s.tdcCfg.extractLsb' 0 16).toNat
def teethOf (s : State) : Nat := (s.crkCfg.extractLsb' 0 8).toNat
def missingOf (s : State) : Nat := (s.crkCfg.extractLsb' 8 2).toNat
def edgeOf (s : State) (k : Nat) : Nat := ((s.camEdge[k]?.getD 0x0000FFFF#32).extractLsb' 0 16).toNat
abbrev UsedSlot (s : State) (k : Nat) : Prop := k < 20 ∧ ∀ j, j ≤ k → edgeOf s j ≠ 0xFFFF
abbrev SlotOk (s : State) (k : Nat) : Prop := edgeOf s k < 7200 ∧ (k = 0 ∨ edgeOf s (k - 1) < edgeOf s k)
abbrev CylOk (s : State) : Prop := cylOf s ∈ s.params.supportedCyl ∧ 7200 % cylOf s = 0
abbrev WheelOk (s : State) : Prop := (teethOf s = 30 ∨ teethOf s = 60 ∨ teethOf s = 120) ∧ (missingOf s = 1 ∨ missingOf s = 2)

theorem witness_ValidateRaises_cylinders : State.reset.busy = false ∧ ¬CylOk State.reset := by decide
theorem witness_ValidateRaises_reference :
    let s : State := { configured with tdcCfg := 0x00061C20#32 }
    s.busy = false ∧ CylOk s ∧ 7200 ≤ refOf s := by decide
theorem witness_ValidateRaises_edge :
    let s : State := { configured with camEdge := slots [289#32, 7200#32] }
    s.busy = false ∧ CylOk s ∧ refOf s < 7200 ∧ UsedSlot s 1 ∧ (∀ j, j < 1 → SlotOk s j) ∧ 7200 ≤ edgeOf s 1 := by decide
theorem witness_ValidateRaises_order :
    let s : State := { configured with camEdge := slots [289#32, 289#32] }
    s.busy = false ∧ CylOk s ∧ refOf s < 7200 ∧ UsedSlot s 1 ∧ (∀ j, j < 1 → SlotOk s j) ∧ edgeOf s 1 < 7200 ∧ 0 < 1 ∧
      edgeOf s 1 ≤ edgeOf s (1 - 1) := by decide
theorem witness_ValidateRaises_wheel :
    let s : State := { configured with crkCfg := 0x0001033C#32 }
    s.busy = false ∧ CylOk s ∧ refOf s < 7200 ∧ (∀ k, UsedSlot s k → SlotOk s k) ∧ ¬WheelOk s := by
  refine ⟨by decide, by decide, by decide, fun k hk => ?_, by decide⟩
  exact (by decide : ∀ j, j < 20 → UsedSlot { configured with crkCfg := 0x0001033C#32 } j →
    SlotOk { configured with crkCfg := 0x0001033C#32 } j) k hk.1 hk
theorem witness_Names : 19 < 20 ∧ configured.usedEdges < 20 ∧ 0 < configured.usedEdges ∧ configured.wheelLegal = true ∧
    configured.ConfigLegal := by decide
theorem witness_validated_inv : validated.Inv := by decide
theorem witness_Revalidation : validated.Inv ∧ validated.busy = false ∧ validated.cfgValid = true :=
  ⟨witness_validated_inv, by decide, by decide⟩
theorem witness_Revalidation_fails : State.reset.Inv ∧ State.reset.busy = false ∧ ¬State.reset.ConfigLegal ∧ generating.Inv ∧
    generating.busy = true := ⟨by decide, by decide, by decide, by decide, by decide⟩
theorem witness_GenerateStarts : (0xA0000001#32).extractLsb' 28 4 = 0xA#4 ∧ (0xA0000001#32) ≠ 0xA0000000#32 ∧ generating.busy = true ∧
    configured.busy = false ∧ configured.cfgValid = false ∧ validated.busy = false ∧ validated.cfgValid = true := by decide
theorem witness_MainStep : generating.phase = .main ∧ WheelOk generating ∧ generating.cursor.toNat < 7200 ∧
    generating.cursor.toNat = 0 ∧ lastMain.phase = .main ∧ WheelOk lastMain ∧ lastMain.cursor.toNat = 7199 := by decide
theorem witness_MainStep_edge :
    let s : State := { generating with cursor := 289#13 }
    s.phase = .main ∧ WheelOk s ∧ s.cursor.toNat < 7200 ∧ s.camIdx.toNat < 20 ∧ edgeOf s s.camIdx.toNat = s.cursor.toNat := by decide
theorem witness_MainStep_crank :
    let s : State := { generating with cursor := 3600#13 }
    s.phase = .main ∧ WheelOk s ∧ s.cursor.toNat < 7200 ∧ s.cursor.toNat ≠ 0 ∧ s.cursor.toNat % ((3600 / teethOf s) / 2) = 0 := by decide
theorem witness_TdcStep : (tdcStage 5#3).phase = .tdc ∧ (tdcStage 5#3).tdcK.toNat < cylOf (tdcStage 5#3) ∧ cylOf (tdcStage 5#3) ≤ 6 ∧
    (tdcStage 5#3).tdcK.toNat + 1 = cylOf (tdcStage 5#3) ∧ (tdcStage 0#3).tdcK.toNat + 1 ≠ cylOf (tdcStage 0#3) := by decide
theorem witness_TdcPositions : 1 ≤ validated.cylCount ∧ validated.cylCount ≤ 6 ∧ 0 < validated.cylCount ∧ 5 < validated.cylCount := by decide
theorem witness_CrankClosedForm : validated.wheelLegal = true ∧ 7198 < 7199 := by decide
theorem witness_CrankRevolutions : validated.wheelLegal = true ∧ 7199 % 3600 ≥ validated.gapStart ∧ 3449 < 7199 ∧ 30 % validated.halfTooth = 0 ∧
    30 % 3600 < validated.gapStart := by decide
theorem witness_CamClosedForm : validated.ConfigLegal ∧ (∃ k, k < validated.usedEdges ∧ validated.edge k = 289) ∧
    ∀ k, k < validated.usedEdges → validated.edge k ≠ 290 := ⟨by decide, ⟨0, by decide, by decide⟩, by decide⟩
theorem witness_GenerationWritesThePattern : validated.Inv ∧ validated.phase = .idle ∧ validated.cfgValid = true ∧ validated.agenda = [] :=
  ⟨witness_validated_inv, rfl, rfl, rfl⟩
/-- V-L1's configuration, validated, on a PMEM that differs in bit 0 of element 5. -/
def validatedElsewhere : State := validated.setElem 5 ((validated.elem 5).setBit 0 .high)

theorem witness_Idempotent : validated.Inv ∧ validatedElsewhere.Inv ∧ validated.phase = .idle ∧ validatedElsewhere.phase = .idle ∧
    validated.cfgValid = true ∧ validatedElsewhere.cfgValid = true ∧ validated.agenda = [] ∧ validatedElsewhere.agenda = [] ∧
    validatedElsewhere.SameConfig validated ∧ validatedElsewhere.pmem ≠ validated.pmem ∧
    ∀ a b, a < 7200 → 2 ≤ b → b < validated.params.width.bits → validatedElsewhere.bit a b = validated.bit a b := by
  refine ⟨witness_validated_inv, by decide, rfl, rfl, rfl, rfl, rfl, rfl, ⟨rfl, rfl, rfl, rfl, rfl⟩, by decide, fun a b _ hb _ => ?_⟩
  unfold validatedElsewhere
  rw [setElem_setBit_bit validated 5 0 a b .high (by decide), if_neg (by omega)]

/-- `n` elements from index `lo` on, element `i` being `f i`. -/
def filled (f : Nat → Elem) : Nat → Nat → Memory
  | _, 0 => []
  | lo, n + 1 => (lo, f lo) :: filled f (lo + 1) n

theorem filled_rising (f : Nat → Elem) (hf : ∀ i, (f i).wf .w8 = true) (lo n : Nat) (h : lo + n ≤ 7200) :
    Memory.risingFrom .w8 lo (filled f lo n) = true := by
  induction n generalizing lo with
  | zero => rfl
  | succ n ih =>
    simp only [filled, Memory.risingFrom, Bool.and_eq_true, decide_eq_true_eq]
    exact ⟨⟨⟨Nat.le_refl lo, show lo < 7200 by omega⟩, hf lo⟩, ih (lo + 1) (by omega)⟩

theorem filled_lookup (f : Nat → Elem) (lo n i : Nat) (h : lo ≤ i) (h' : i < lo + n) : Memory.lookup (filled f lo n) i = f i := by
  induction n generalizing lo with
  | zero => omega
  | succ n ih =>
    simp only [filled, Memory.lookup]
    by_cases hi : lo = i
    · rw [if_pos hi, hi]
    · rw [if_neg hi]; exact ih (lo + 1) (by omega) (by omega)

/-- PMEM after FILL 0 (`70_reset_and_hazards.md` R295), with V-L1's configuration validated. -/
def cleared : State := { validated with pmem := filled (fun _ => Elem.ofWord .w8 0#32) 0 7200 }

theorem cleared_inv : cleared.Inv := by
  obtain ⟨h1, -, h3, h4, h5, h6⟩ := witness_validated_inv
  exact ⟨h1, filled_rising _ (fun _ => ofWord_wf .w8 0#32) 0 7200 (by omega), h3, h4, h5, h6⟩

theorem cleared_bit {a b : Nat} (ha : a < 7200) (hb : b < 8) : cleared.bit a b = some .low := by
  have he : cleared.elem a = Elem.ofWord .w8 0#32 := filled_lookup _ 0 7200 a (by omega) (by omega)
  unfold State.bit
  rw [he, ofWord_bit, if_pos (show b < Width.bits .w8 from hb)]
  simp [Level.ofBool]

/-- Element `a` of the pattern of V-L1's configuration over a cleared PMEM. -/
def patternElem (a : Nat) : Elem :=
  let mark (k : Nat) : Level := if a = cleared.tdcPos k then .high else .low
  (((((((((Elem.ofWord .w8 0#32).setBit 0 (cleared.camAt a)).setBit 1 (cleared.crankAt a)).setBit 2 (mark 0)).setBit 3 (mark 1)).setBit 4
    (mark 2)).setBit 5 (mark 3)).setBit 6 (mark 4)).setBit 7 (mark 5))

/-- A state at the end of that generation. -/
def finished : State :=
  { cleared with pmem := filled patternElem 0 7200, done := true, cursor := 7199#13, camIdx := 2#5, tdcK := 6#3 }

/-- The cleared state with another bit 0 in element 5: the generation writes that bit again. -/
def clearedElsewhere : State := cleared.setElem 5 ((cleared.elem 5).setBit 0 .high)

theorem patternElem_wf (a : Nat) : (patternElem a).wf .w8 = true := by
  unfold patternElem
  exact setBit_wf .w8 _ 7 _ (by decide) (.inr (setBit_wf .w8 _ 6 _ (by decide) (.inr (setBit_wf .w8 _ 5 _ (by decide)
    (.inr (setBit_wf .w8 _ 4 _ (by decide) (.inr (setBit_wf .w8 _ 3 _ (by decide) (.inr (setBit_wf .w8 _ 2 _ (by decide)
      (.inr (setBit_wf .w8 _ 1 _ (by decide) (.inr (setBit_wf .w8 _ 0 _ (by decide) (.inr (ofWord_wf .w8 0#32))))))))))))))))

theorem finished_inv : finished.Inv := by
  obtain ⟨h1, -, h3, h4, h5, -⟩ := cleared_inv
  exact ⟨h1, filled_rising _ patternElem_wf 0 7200 (by omega), h3, h4, h5, nofun, nofun⟩

theorem finished_shows (a b : Nat) (ha : a < 7200) (hb : b < 8) : finished.bit a b = cleared.patternBit 7200 6 a b := by
  have he : finished.elem a = patternElem a := filled_lookup _ 0 7200 a (by omega) (by omega)
  have hl := cleared_bit ha hb
  unfold State.bit at hl ⊢
  unfold State.patternBit camBit crkBit
  rw [he]
  have hcases : b = 0 ∨ b = 1 ∨ b = 2 ∨ b = 3 ∨ b = 4 ∨ b = 5 ∨ b = 6 ∨ b = 7 := by omega
  rcases hcases with rfl | rfl | rfl | rfl | rfl | rfl | rfl | rfl <;> simp [patternElem, setBit_bit, ha, State.bit, hl] <;>
    split <;> rfl

theorem finished_generating (g : State) (hc : finished.SameConfig g) (hv : ∀ a, g.camAt a = cleared.camAt a ∧ g.crankAt a = cleared.crankAt a)
    (hn : g.cylCount = 6 ∧ g.usedEdges = 2) (ht : ∀ k, g.tdcPos k = cleared.tdcPos k)
    (hb : ∀ a b, a < 7200 → 2 ≤ b → b < 8 → (∀ k, ¬(b = 2 + k ∧ k < 6 ∧ a = cleared.tdcPos k)) → g.bit a b = some .low) :
    g.Generating finished := by
  refine ⟨hc, rfl, rfl, rfl, hn.2.symm, hn.1.symm, fun a b ha hb8 => ?_⟩
  have hb8 : b < 8 := hb8
  rw [finished_shows a b ha hb8, hn.1]
  unfold State.patternBit camBit crkBit
  rw [(hv a).1, (hv a).2, ht]
  have ha : a < elementCount := ha
  by_cases h0 : b = 0
  · simp [h0, ha]
  · by_cases h1 : b = 1
    · simp [h1, ha]
    · simp only [h0, h1, false_and, if_false]
      by_cases h2 : 2 ≤ b ∧ b - 2 < 6 ∧ a = cleared.tdcPos (b - 2)
      · rw [if_pos h2, if_pos h2]
      · rw [if_neg h2, if_neg h2, cleared_bit ha hb8, hb a b ha (by omega) hb8]
        rintro k ⟨rfl, hk, hp⟩
        exact h2 ⟨by omega, by omega, by simpa using hp⟩

theorem finished_of_cleared : cleared.Generating finished :=
  finished_generating cleared ⟨rfl, rfl, rfl, rfl, rfl⟩ (fun _ => ⟨rfl, rfl⟩) ⟨by decide, by decide⟩ (fun _ => rfl)
    fun _ _ ha _ hb _ => cleared_bit ha hb

theorem witness_ExactlyNMarkers : cleared.Inv ∧ cleared.cfgValid = true ∧ (∀ a k, a < 7200 → k < 6 → cleared.bit a (2 + k) = some .low) ∧
    cleared.Generating finished ∧ finished.phase = .idle ∧ cleared.phase = .idle ∧ cleared.agenda = [] :=
  ⟨cleared_inv, rfl, fun _ _ ha hk => cleared_bit ha (by omega), finished_of_cleared, rfl, rfl, rfl⟩

theorem witness_Idempotent_schedule : cleared.Inv ∧ cleared.cfgValid = true ∧ finished.Inv ∧ clearedElsewhere.SameConfig cleared ∧
    (∀ a b, a < 7200 → 2 ≤ b → b < cleared.params.width.bits → clearedElsewhere.bit a b = cleared.bit a b) ∧
    clearedElsewhere.bit 5 0 ≠ cleared.bit 5 0 ∧ cleared.Generating finished ∧ finished.phase = .idle ∧
    clearedElsewhere.Generating finished := by
  have hbit : ∀ a b, 2 ≤ b → clearedElsewhere.bit a b = cleared.bit a b := fun a b hb => by
    unfold clearedElsewhere; rw [setElem_setBit_bit cleared 5 0 a b .high (by decide), if_neg (by omega)]
  refine ⟨cleared_inv, rfl, finished_inv, ⟨rfl, rfl, rfl, rfl, rfl⟩, fun a b _ hb _ => hbit a b hb, ?_, finished_of_cleared, rfl, ?_⟩
  · unfold clearedElsewhere
    rw [setElem_setBit_bit cleared 5 0 5 0 .high (by decide), if_pos ⟨rfl, rfl⟩, cleared_bit (by decide) (by decide)]
    decide
  · exact finished_generating clearedElsewhere ⟨rfl, rfl, rfl, rfl, rfl⟩ (fun _ => ⟨rfl, rfl⟩) ⟨by decide, by decide⟩ (fun _ => rfl)
      fun a b ha h2 hb _ => by rw [hbit a b h2]; exact cleared_bit ha hb

theorem witness_Idempotent_again : cleared.Inv ∧ cleared.cfgValid = true ∧ finished.Inv ∧ cleared.Generating finished ∧
    finished.phase = .idle ∧ finished.Generating finished := by
  refine ⟨cleared_inv, rfl, finished_inv, finished_of_cleared, rfl, ?_⟩
  refine finished_generating finished ⟨rfl, rfl, rfl, rfl, rfl⟩ (fun _ => ⟨rfl, rfl⟩) ⟨by decide, by decide⟩ (fun _ => rfl) ?_
  intro a b ha h2 hb hk
  rw [finished_shows a b ha hb]
  unfold State.patternBit camBit crkBit
  rw [if_neg (by omega), if_neg (by omega), if_neg fun h => hk (b - 2) ⟨by omega, h.2.1, h.2.2⟩, cleared_bit ha hb]

theorem witness_GenerationProgresses_start : validated.Inv ∧ validated.busy = false ∧ validated.cfgValid = true ∧
    ∃ t, exec .generate validated = .next t := ⟨witness_validated_inv, rfl, rfl, _, rfl⟩
theorem witness_GenerationProgresses : validated.Inv ∧ validated.ConfigLegal ∧ generating.busy = true ∧ validated.Generating generating ∧
    (∀ rest, generating.agenda ≠ .reset :: rest) ∧ ∃ t, step generating = .next t := by
  refine ⟨witness_validated_inv, by decide, rfl, ⟨⟨rfl, rfl, rfl, rfl, rfl⟩, rfl, ?_⟩, fun rest h => (by cases h), _, rfl⟩
  exact ⟨rfl, by decide, rfl, by decide, by decide, by decide, fun a b _ _ => by simp [State.patternBit, generating, State.generateAccept]; rfl⟩
theorem witness_StreamRead :
    (7199 < 7200 ∧ ∀ b, b < (withElem 7199 0x02#32 State.reset).params.width.bits → (withElem 7199 0x02#32 State.reset).bit 7199 b ≠ none) ∧
    (∃ b, b < State.reset.params.width.bits ∧ State.reset.bit 7199 b = none) ∧ 7200 ≤ 7200 :=
  ⟨by decide, ⟨7, by decide, by decide⟩, by decide⟩
theorem witness_ResultAndData : (∃ t, exec (.writeCmd 0x70000005#32) (withElem 5 0x82#32 State.reset) = .next t ∧ t.result ≠ State.reset.result) ∧
    ∃ t, exec (.writeData 1#32) State.reset = .next t ∧ t.data ≠ State.reset.data := ⟨⟨_, rfl, by decide⟩, _, rfl, by decide⟩
theorem witness_Done : (∃ t, exec .tdcStep (tdcStage 5#3) = .next t ∧ t.phase = .idle) ∧
    (∃ t, exec (.writeCmd 0xA0000000#32) { validated with done := true } = .next t ∧ t.done ≠ true) := ⟨⟨_, rfl, by decide⟩, _, rfl, by decide⟩
theorem witness_CfgValid : (∃ t, exec .validate configured = .next t ∧ configured.cfgValid = false ∧ t.cfgValid = true) ∧
    (∃ t, exec (.writeCamEdge16 3#2 0#32) validated = .next t ∧ validated.cfgValid = true ∧ t.cfgValid = false) ∧
    ∃ t, exec (.writeCamCfg 0#32) validated = .next t ∧ ¬t.SameConfig validated :=
  ⟨⟨_, rfl, by decide, by decide⟩, ⟨_, rfl, by decide, by decide⟩, _, rfl, by decide⟩
theorem witness_Pmem : ∃ t, exec (.writeCmd 0x90000000#32) validated = .next t ∧ notEngine (.writeCmd 0x90000000#32) = true ∧
    issued (.writeCmd 0x90000000#32) = .validate := ⟨_, rfl, by decide, by decide⟩
theorem witness_BusyRefuses : generating.busy = true ∧ issued (.writeCmd 0x10010005#32) = .setCam 5#13 .high ∧
    issued (.writeCmd 0x00000000#32) = .nop ∧ issued (.writeCmd 0xB0000000#32) = .clrErr ∧
    issued (.writeCmd 0xC0000000#32) = .reservedOpc 0xC0000000#32 ∧
    (withElem 299 0x02#32 generating).busy = true ∧
    (∀ b, b < (withElem 299 0x02#32 generating).params.width.bits → (withElem 299 0x02#32 generating).bit 299 b ≠ none) ∧
    ∃ t, exec (.streamRd 299) (withElem 299 0x02#32 generating) = .next t :=
  ⟨by decide, by decide, by decide, by decide, by decide, by decide, by decide, _, rfl⟩
theorem witness_BusyFreezes : generating.busy = true ∧ notEngine (.writeData 7#32) = true ∧ ∃ t, exec (.writeData 7#32) generating = .next t :=
  ⟨by decide, by decide, _, rfl⟩
/-- The past after HOST has sent an accepted GENERATE. -/
def generateSent : EnvView := (EnvView.initial.after configured .validate).after validated .readStatus |>.after validated .generate

theorem witness_Dutiful_poll : generateSent.Tracks generating ∧ generating.busy = true ∧
    State.DutiesKept { generating with agenda := [.bus .read .word 0x0C] } generateSent ∧
    ∃ t, step { generating with agenda := [.bus .read .word 0x0C] } = .next t :=
  ⟨⟨fun _ => rfl, nofun⟩, by decide, fun i hi d => by cases hi; cases d <;> decide, _, rfl⟩
theorem witness_Dutiful_stream : EnvView.initial.Tracks finished ∧
    State.DutiesKept { finished with agenda := [.stream 0] } EnvView.initial ∧
    turnInstr (nextTurn { finished with agenda := [.stream 0] }).1 { finished with agenda := [] } = some (.streamRd 0) :=
  ⟨⟨nofun, nofun⟩, fun i hi d => by cases hi; cases d <;> rfl, rfl⟩
theorem witness_Dutiful_exec : ∃ t, exec .readStatus { State.reset with err := .eNone, errMulti := false } = .next t := ⟨_, rfl⟩

theorem witness_EveryStep : generating.Inv ∧ (∃ t, step generating = .next t) ∧ lastMain.Inv ∧ (∃ t, step lastMain = .next t) ∧
    (tdcStage 5#3).Inv ∧ ∃ t, step (tdcStage 5#3) = .next t :=
  ⟨by decide, ⟨_, rfl⟩, by decide, ⟨_, rfl⟩, by decide, _, rfl⟩
theorem witness_InvariantAfterReset : Params.reference.wf = true ∧ Params.wf { width := .w32, supportedCyl := [1, 2, 3, 5, 6], base := 4096 } = true := by
  decide
theorem witness_Stops : ({ State.reset with agenda := [.stream 0] } : State).Inv ∧
    (∃ f, step { State.reset with agenda := [.stream 0] } = .fault f) ∧ generating.Inv ∧ generating.phase = .main ∧
    (tdcStage 0#3).Inv ∧ (tdcStage 0#3).phase = .tdc := ⟨by decide, ⟨_, rfl⟩, by decide, rfl, by decide, rfl⟩

end Sys2Proof.Tests
end

section
/-! SUPPORT. What the registers of `10_state.md` hold and who writes them: the frame of the ENGINE's steps, the writers of RESULT, DATA,
DONE and CFG_VALID among the effects of `HostStep`, and the values that STATUS, INFO and reset show. -/

namespace Sys2Proof.Machine

/-! ### Commands -/

/-- What a command word decodes to is a command (`30_encoding.md` R86). -/
theorem isCommand_decodeCommand (v : Word) : isCommand (decodeCommand v) = true := by
  rcases decodeCommand_cases v with h | ⟨op, -, h⟩ <;> rw [h]
  · rfl
  · cases op <;> rfl

/-- Only a command can be issued by another instruction, the write to CMD. -/
theorem eq_of_issued_eq {i j : Instr} (h : issued i = j) (hj : isCommand j = false) : i = j := by
  rcases issued_cases i with hi | ⟨v, -, hi⟩
  · exact hi.symm.trans h
  · rw [← h, hi, isCommand_decodeCommand] at hj; cases hj

/-- The word that matches an opcode's row decodes to its instruction, with the operands in its fields (`30_encoding.md` R83, R86). -/
theorem decodeCommand_of_match {v : Word} {op : Opcode} (h : v &&& op.maskWord = op.matchWord) :
    decodeCommand v = op.instr (addrField v) (cylField v) (lvlField v) := by
  unfold decodeCommand
  rw [(commandOf_iff v op).2 ((and_mask_iff op v).1 h)]

/-- A write to CMD is the instruction its word decodes to (`10_state.md` R42). -/
theorem exec_writeCmd (v : Word) (s : State) : exec (.writeCmd v) s = exec (decodeCommand v) s := exec_issued _ s

/-! ### Commands that are accepted -/

theorem exec_setCam_accepted {s : State} {addr : BitVec 13} (lvl : Level) (hb : s.busy = false) (ha : addr.toNat < elementCount) :
    exec (.setCam addr lvl) s = .next (s.setElem addr.toNat ((s.elem addr.toNat).setBit camBit lvl)) := by
  have h0 : camBit < s.params.width.bits := Nat.lt_of_lt_of_le (by decide) (width_ge _)
  show execSetCam addr lvl s = _
  unfold execSetCam
  rw [withElement_ok _ hb ha, memWriteBit_ok lvl ha h0]
  rfl

theorem exec_wrWord_accepted {s : State} {addr : BitVec 13} (hb : s.busy = false) (ha : addr.toNat < elementCount) :
    exec (.wrWord addr) s = .next (s.setElem addr.toNat (Elem.ofWord s.params.width s.data)) := by
  show execWrWord addr s = _
  unfold execWrWord
  rw [withElement_ok _ hb ha, memWrite_ok s.data ha]
  rfl

theorem exec_generate_accepted {s : State} (hb : s.busy = false) (hv : s.cfgValid = true) :
    exec .generate s = .next s.generateAccept := by
  show execGenerate s = _
  unfold execGenerate
  rw [whenIdle_idle _ hb, if_pos hv]

theorem onlyBitWritten_setElem (s : State) (i : Nat) {b : Nat} (x : Level) (hb : b < 32) :
    s.OnlyBitWritten (s.setElem i ((s.elem i).setBit b x)) i b x := by
  refine ⟨rfl, ?_, fun j c hjc => ?_⟩ <;> rw [setElem_setBit_bit _ _ _ _ _ _ hb]
  · rw [if_pos ⟨rfl, rfl⟩]
  · rw [if_neg hjc]

/-! ### What the ENGINE's steps leave unchanged -/

/-- An ENGINE step writes PMEM, the ENGINE registers, PHASE and DONE, and nothing else (`44_generate.md` R202, `43_tdc.md` R186). -/
theorem exec_engine_frame {i : Instr} {s t : State} (hi : ¬notEngine i = true) (h : exec i s = .next t) :
    t = { s with
      pmem := t.pmem
      camLvl := t.camLvl
      camIdx := t.camIdx
      crkLvl := t.crkLvl
      cursor := t.cursor
      tdcK := t.tdcK
      phase := t.phase
      done := t.done } := by
  rcases engine_of_not_host hi with rfl | rfl
  · obtain ⟨-, -, -, rfl⟩ := execMainStep_inv h
    rw [mainNext_frame]
  · obtain ⟨-, -, -, rfl⟩ := execTdcStep_inv h
    rw [tdcNext_frame]

/-- A TDC step ends the generation, or leaves PHASE and DONE (`43_tdc.md` R186, R187). -/
theorem tdcNext_phase_done (s : State) :
    ((tdcNext s).phase = .idle ∧ (tdcNext s).done = true) ∨ ((tdcNext s).phase = s.phase ∧ (tdcNext s).done = s.done) := by
  by_cases h : s.tdcK.toNat + 1 = s.cylCount
  · rw [tdcNext_last h]; exact .inl ⟨rfl, rfl⟩
  · rw [tdcNext_more h]; exact .inr ⟨rfl, rfl⟩

/-- DONE is left by a main step, and set by the TDC step that ends the generation (`10_state.md` R53). -/
theorem exec_engine_done {i : Instr} {s t : State} (hi : ¬notEngine i = true) (h : exec i s = .next t) :
    t.done = s.done ∧ (i = .tdcStep → t.phase ≠ .idle) ∨ i = .tdcStep ∧ t.phase = .idle ∧ t.done = true := by
  rcases engine_of_not_host hi with rfl | rfl
  · obtain ⟨-, -, -, rfl⟩ := execMainStep_inv h
    exact .inl ⟨(congrArg State.done (mainNext_frame s) :), nofun⟩
  · obtain ⟨hp, -, -, rfl⟩ := execTdcStep_inv h
    rcases tdcNext_phase_done s with ⟨hph, hd⟩ | ⟨hph, hd⟩
    · exact .inr ⟨rfl, hph, hd⟩
    · exact .inl ⟨hd, fun _ => by rw [hph, hp]; decide⟩

/-! ### The writers among HOST's and STREAM's effects -/

section
variable {s t : State} {i : Instr}

theorem HostStep.params_eq (h : HostStep s i t) : t.params = s.params := by cases h <;> rfl

/-- RESULT is written by the commands that read an element (`10_state.md` R34). -/
theorem HostStep.result_writer (h : HostStep s i t) (hr : t.result ≠ s.result) :
    (∃ a, i = .getCam a) ∨ (∃ a, i = .getCrk a) ∨ (∃ a c, i = .getTdc a c) ∨ ∃ a, i = .rdWord a := by
  cases h with
  | result v idle hi => exact hi
  | _ => exact absurd rfl hr

/-- DATA is written by a write to it (`10_state.md` R33). -/
theorem HostStep.data_writer (h : HostStep s i t) (hd : t.data ≠ s.data) : ∃ v, i = .writeData v := by
  cases h with
  | writeData v => exact ⟨v, rfl⟩
  | _ => exact absurd rfl hd

/-- Of HOST and STREAM, only an accepted GENERATE writes DONE (`10_state.md` R53). -/
theorem HostStep.done_writer (h : HostStep s i t) (hd : t.done ≠ s.done) :
    i = .generate ∧ s.busy = false ∧ s.cfgValid = true ∧ t.done = false := by
  cases h with
  | generate idle hv => exact ⟨rfl, idle, hv, rfl⟩
  | _ => exact absurd rfl hd

/-- CFG_VALID is set by VALIDATE on a legal configuration (`45_config_control.md` R236). -/
theorem HostStep.cfgValid_setter (h : HostStep s i t) (hs : s.cfgValid = false) (ht : t.cfgValid = true) :
    i = .validate ∧ s.ConfigLegal := by
  cases h with
  | validate idle hv => exact ⟨rfl, (validateError_none_iff s).1 hv⟩
  | writeCrkCfg | writeCamCfg | writeTdcCfg | writeCamEdge => cases ht
  | _ => exact absurd (hs.symm.trans ht) Bool.false_ne_true

/-- CFG_VALID is cleared by an accepted configuration write (`45_config_control.md` R226). -/
theorem HostStep.cfgValid_clearer (h : HostStep s i t) (hs : s.cfgValid = true) (ht : t.cfgValid = false) :
    (∃ v, i = .writeCrkCfg v) ∨ (∃ v, i = .writeCamCfg v) ∨ (∃ v, i = .writeTdcCfg v) ∨ (∃ k v, i = .writeCamEdge0 k v) ∨
      ∃ k v, i = .writeCamEdge16 k v := by
  cases h with
  | writeCrkCfg v => exact .inl ⟨v, rfl⟩
  | writeCamCfg v => exact .inr (.inl ⟨v, rfl⟩)
  | writeTdcCfg v => exact .inr (.inr (.inl ⟨v, rfl⟩))
  | writeCamEdge k v idle hk hv hi =>
    exact .inr (.inr (.inr (hi.imp (fun ⟨j, hj⟩ => ⟨j, v, hj⟩) fun ⟨j, hj⟩ => ⟨j, v, hj⟩)))
  | validate => cases ht
  | _ => exact absurd (ht.symm.trans hs) Bool.false_ne_true

/-- What changes the configuration clears CFG_VALID (`10_state.md` R54). -/
theorem HostStep.sameConfig_or_cleared (h : HostStep s i t) : t.SameConfig s ∨ t.cfgValid = false := by
  cases h with
  | writeCrkCfg | writeCamCfg | writeTdcCfg | writeCamEdge => exact .inr rfl
  | _ => exact .inl ⟨rfl, rfl, rfl, rfl, rfl⟩

end

/-- No instruction changes a parameter (`70_reset_and_hazards.md` R290). -/
theorem exec_params {i : Instr} {s t : State} (h : exec i s = .next t) : t.params = s.params := by
  by_cases hn : notEngine i = true
  · exact (exec_host_step hn h).params_eq
  · exact (congrArg State.params (exec_engine_frame hn h) :)

theorem step_params {s t : State} (h : step s = .next t) : t.params = s.params := by
  obtain ⟨u, rest, rfl, ⟨-, -, hs⟩ | ⟨-, hs⟩ | ⟨i, -, -, hs⟩⟩ := step_cases s <;> rw [hs] at h
  · cases h; rfl
  · cases h; rfl
  · exact (exec_params h :)

/-! ### STATUS, INFO and the window -/

/-- The fields of a word laid out as STATUS (`10_state.md` R35). -/
theorem statusWord_fields (p : BitVec 2) (e : BitVec 4) (m c d b : Bool) :
    let w : Word := 0#22 ++ p ++ e ++ BitVec.ofBool m ++ BitVec.ofBool c ++ BitVec.ofBool d ++ BitVec.ofBool b
    w.getLsbD 0 = b ∧ w.getLsbD 1 = d ∧ w.getLsbD 2 = c ∧ w.getLsbD 3 = m ∧ w.extractLsb' 4 4 = e ∧ w.extractLsb' 8 2 = p ∧
      w.extractLsb' 10 22 = 0#22 := by
  refine ⟨?_, ?_, ?_, ?_, ?_, ?_, ?_⟩
  iterate 4
    simp only [BitVec.getLsbD_append]
    simp
  all_goals
    apply BitVec.eq_of_getLsbD_eq
    intro j hj
    simp only [BitVec.getLsbD_extractLsb', BitVec.getLsbD_append, hj, decide_true, Bool.true_and]
    grind

theorem err_code_le (e : Err) : e.code.toNat ≤ 0xC := by cases e <;> decide

/-- INFO as one number (`10_state.md` R41). -/
theorem info_eq (s : State) : s.info = BitVec.ofNat 32 (0x1C200000 + s.params.width.bits) := by
  unfold State.info
  cases s.params.width <;> rfl

theorem info_congr {s t : State} (h : t.params = s.params) : t.info = s.info := by rw [info_eq, info_eq, h]

theorem exec_readInfo (s : State) :
    exec .readInfo s = .next { s with hostRead := some (BitVec.ofNat 32 (0x1C200000 + s.params.width.bits)) } := by
  rw [← info_eq]; rfl

/-- A word access at an offset is an access to the register of its word number, a quarter of the offset (`45_config_control.md` R220). -/
theorem decode_wordAccess (acc : Access) {off n : Nat} (hn : n < 64) (hoff : off = 4 * n) :
    decode (.reg acc .word (BitVec.ofNat 8 off)) = .ok (decodeRegister acc n) := by
  have hnat : (BitVec.ofNat 8 off).toNat = 4 * n := by rw [BitVec.toNat_ofNat]; omega
  simp only [decode]
  rw [hnat, if_neg (by simp), Nat.mul_div_cancel_left n (by decide)]

/-- The read and the write of the register that a word number selects. -/
theorem decode_register (v : Word) {off n : Nat} {r w : Instr} (hn : n < 64) (hoff : off = 4 * n) (hr : decodeRead n = r)
    (hw : decodeWrite v n = w) :
    decode (.reg .read .word (BitVec.ofNat 8 off)) = .ok r ∧ decode (.reg (.write v) .word (BitVec.ofNat 8 off)) = .ok w :=
  ⟨hr ▸ decode_wordAccess .read hn hoff, hw ▸ decode_wordAccess (.write v) hn hoff⟩

/-! ### The crank wheels -/

/-- The legal wheels, row by row (`10_state.md` R49). -/
theorem wheelLegal_iff_row (s : State) :
    s.wheelLegal = true ↔
      (s.toothCount, s.missingCount, s.toothAngle, s.halfTooth, s.gapSpan, s.gapStart) ∈
        [(30, 1, 120, 60, 120, 3480), (30, 2, 120, 60, 240, 3360), (60, 1, 60, 30, 60, 3540), (60, 2, 60, 30, 120, 3480),
          (120, 1, 30, 15, 30, 3570), (120, 2, 30, 15, 60, 3540)] := by
  unfold State.gapStart State.gapSpan State.halfTooth State.toothAngle
  rw [wheelLegal_iff]
  constructor
  · rintro ⟨hT | hT | hT, hM | hM⟩ <;> rw [hT, hM] <;> decide
  · intro h
    simp only [List.mem_cons, Prod.mk.injEq, List.not_mem_nil, or_false] at h
    omega

/-! ### Reset -/

/-- Every cam slot, the absent ones too, reads as the sentinel after reset (`10_state.md` R57). -/
theorem resetOf_camSlot (p : Params) (k : Nat) : (State.resetOf p).camSlot k = 0x0000FFFF#32 := by
  unfold State.camSlot State.resetOf
  by_cases hk : k < 20 <;> simp [hk]

theorem resetOf_status (p : Params) : (State.resetOf p).status = 0x00000000#32 := by
  unfold State.status State.busy
  simp only [State.resetOf]
  decide

@[simp] theorem resetOf_bit (p : Params) (i b : Nat) : (State.resetOf p).bit i b = none := undefined_bit b

/-- The invariant holds after reset: nothing is configured and no generation is in progress. -/
theorem resetOf_inv {p : Params} (hp : p.wf = true) : (State.resetOf p).Inv := by
  have hslots : ∀ k, k < camSlots → (State.resetOf p).camSlot k &&& ~~~camEdgeMask = 0#32 := fun k _ => by
    rw [resetOf_camSlot]; rfl
  exact ⟨hp, rfl, ⟨BitVec.zero_and, BitVec.zero_and, BitVec.zero_and, hslots⟩, nofun, nofun, nofun, nofun⟩

/-! ### The obligations of `10_state.md` -/

/-- Settles O50: RESULT and DATA by their writers in `HostStep`; an ENGINE step has both in its frame. -/
theorem resultAndDataHaveTheirWriters : Obligations.ResultAndDataHaveTheirWriters := by
  intro i s t h
  by_cases hn : notEngine i = true
  · have hs := exec_host_step hn h
    refine ⟨hs.result_writer, fun hd => ?_⟩
    obtain ⟨v, hv⟩ := hs.data_writer hd
    exact ⟨v, eq_of_issued_eq hv rfl⟩
  · have hf := exec_engine_frame hn h
    exact ⟨fun hr => absurd (congrArg State.result hf) hr, fun hd => absurd (congrArg State.data hf) hd⟩

/-- Settles O51: DONE by its one writer in `HostStep`, and by the TDC step that ends the generation. -/
theorem doneHasItsWriters : Obligations.DoneHasItsWriters := by
  refine ⟨fun _ => rfl, fun i s t h => ⟨?_, ?_, ?_⟩⟩
  · rintro rfl hp
    rcases exec_engine_done (by decide) h with ⟨-, hne⟩ | ⟨-, -, hd⟩
    · exact absurd hp (hne rfl)
    · exact hd
  · intro hi hb hv
    rw [exec_issued, hi, exec_generate_accepted hb hv] at h
    cases h; rfl
  · intro hd
    by_cases hn : notEngine i = true
    · exact .inr ((exec_host_step hn h).done_writer hd)
    · exact .inl ((exec_engine_done hn h).resolve_left fun hk => hd hk.1)

/-- Settles O52: CFG_VALID by its writers in `HostStep`; an ENGINE step has it and the configuration in its frame. -/
theorem cfgValidHasItsWriters : Obligations.CfgValidHasItsWriters := by
  intro i s t h
  by_cases hn : notEngine i = true
  · have hs := exec_host_step hn h
    refine ⟨hs.cfgValid_setter, fun h1 h0 => ?_, hs.sameConfig_or_cleared.resolve_left⟩
    rcases hs.cfgValid_clearer h1 h0 with ⟨v, hi⟩ | ⟨v, hi⟩ | ⟨v, hi⟩ | ⟨k, v, hi⟩ | ⟨k, v, hi⟩
    · exact .inl ⟨v, eq_of_issued_eq hi rfl⟩
    · exact .inr (.inl ⟨v, eq_of_issued_eq hi rfl⟩)
    · exact .inr (.inr (.inl ⟨v, eq_of_issued_eq hi rfl⟩))
    · exact .inr (.inr (.inr (.inl ⟨k, v, eq_of_issued_eq hi rfl⟩)))
    · exact .inr (.inr (.inr (.inr ⟨k, v, eq_of_issued_eq hi rfl⟩)))
  · have hf := exec_engine_frame hn h
    have hv : t.cfgValid = s.cfgValid := (congrArg State.cfgValid hf :)
    have hc : t.SameConfig s := by rw [hf]; exact ⟨rfl, rfl, rfl, rfl, rfl⟩
    exact ⟨fun h0 h1 => absurd (h0.symm.trans (hv.symm.trans h1)) Bool.false_ne_true,
      fun h1 h0 => absurd (h0.symm.trans (hv.trans h1)) Bool.false_ne_true, fun hne => absurd hc hne⟩

/-- Settles O4: each offset is four times its word number, and the slots of a range are word numbers in a row. -/
theorem windowOffsetsSelectTheirRegisters : Obligations.WindowOffsetsSelectTheirRegisters := by
  intro v
  exact ⟨decode_register v (n := 0) (by decide) rfl rfl rfl, decode_register v (n := 1) (by decide) rfl rfl rfl,
    decode_register v (n := 2) (by decide) rfl rfl rfl, decode_register v (n := 3) (by decide) rfl rfl rfl,
    decode_register v (n := 4) (by decide) rfl rfl rfl, decode_register v (n := 5) (by decide) rfl rfl rfl,
    decode_register v (n := 6) (by decide) rfl rfl rfl, decode_register v (n := 7) (by decide) rfl rfl rfl,
    fun k => decode_register v (n := 16 + k.val) (by omega) (by omega) (by revert k; decide) (by fin_cases k <;> rfl),
    fun k => decode_register v (n := 32 + k.val) (by omega) (by omega) (by revert k; decide) (by fin_cases k <;> rfl),
    fun k => decode_register v (n := 36 + k.val) (by omega) (by omega) (by revert k; decide) (by fin_cases k <;> rfl),
    fun k => decode_register v (n := 40 + k.val) (by omega) (by omega) (by revert k; decide) (by fin_cases k <;> rfl)⟩

/-- Settles O9: STATUS, the slots, INFO and PMEM by their lemmas, every other register by its definition. -/
theorem resetValues : Obligations.ResetValues :=
  ⟨rfl, fun p => ⟨rfl, rfl, rfl, rfl, rfl, rfl, rfl, rfl, rfl, resetOf_status p, rfl, rfl, rfl, fun k _ => resetOf_camSlot p k,
    info_eq _, resetOf_bit p⟩⟩

/-- Settles O13: STATUS is laid out as `statusWord_fields` says. -/
theorem statusFieldsAndErrorCodes : Obligations.StatusFieldsAndErrorCodes := by
  refine ⟨fun s => ?_, ⟨rfl, rfl, rfl, rfl, rfl, rfl, rfl, rfl, rfl, rfl, rfl, rfl, rfl⟩, err_code_le⟩
  obtain ⟨hbusy, hdone, hvalid, hmulti, herr, hphase, hzero⟩ :=
    statusWord_fields (phaseCode s.phase) s.err.code s.errMulti s.cfgValid s.done s.busy
  refine ⟨hbusy.trans (busy_eq s), hdone, hvalid, hmulti, herr, (congrArg BitVec.toNat hphase).trans ?_, hzero⟩
  cases s.phase <;> rfl

/-- Settles O29: INFO is a function of the width, and no step changes the parameters. -/
theorem infoIsConstant : Obligations.InfoIsConstant := by
  refine ⟨fun s => ⟨?_, ?_, ?_⟩, fun s t h => ⟨step_params h, info_congr (step_params h)⟩⟩ <;>
    intro hw <;> rw [exec_readInfo, hw] <;> rfl

/-- Settles O33: the write issues what its word decodes to. -/
theorem writeCmdIssuesTheDecodedCommand : Obligations.WriteCmdIssuesTheDecodedCommand :=
  fun v s => ⟨⟨decodeCommand v, rfl, exec_writeCmd v s⟩, rfl⟩

/-- Settles O34: the word decodes to its command, which is accepted while IDLE. -/
theorem writeCmdCompletesWithTheCommand : Obligations.WriteCmdCompletesWithTheCommand := by
  intro v s hb
  refine ⟨fun hm ha => ?_, fun hm ha => ?_, fun hv hc => ?_⟩
  · have hd := decodeCommand_of_match (op := .setCam) hm
    refine ⟨_, ?_, onlyBitWritten_setElem s _ _ (by decide)⟩
    rw [exec_writeCmd, hd]
    exact exec_setCam_accepted _ hb ha
  · have hd := decodeCommand_of_match (op := .wrWord) hm
    refine ⟨s.setElem (addrField v).toNat (Elem.ofWord s.params.width s.data), ?_, rfl, fun b hbit => ?_, fun j b hj => ?_⟩
    · rw [exec_writeCmd, hd]
      exact exec_wrWord_accepted hb ha
    · rw [setElem_ofWord_bit]
      exact (if_pos rfl).trans (if_pos hbit)
    · rw [setElem_ofWord_bit]
      exact if_neg hj
  · have hd : decodeCommand v = .generate := by rw [hv]; rfl
    refine ⟨s.generateAccept, ?_, rfl, rfl, rfl⟩
    rw [exec_writeCmd, hd, exec_generate_accepted hb hc]

/-- Settles O57: State.reset has the reference parameters, which are legal. -/
theorem invariantAfterReset : Obligations.InvariantAfterReset :=
  ⟨resetOf_inv (p := Params.reference) (by decide), fun _ hp => resetOf_inv hp⟩

/-- Settles O59: the names by their definitions, the used edges, the wheels and the legal configuration by their lemmas. -/
theorem namesFollowTheRegisters : Obligations.NamesFollowTheRegisters := by
  intro s
  refine ⟨⟨rfl, rfl, rfl, ?_, rfl, rfl⟩, ⟨fun k hk => ?_, fun k hk => ?_⟩,
    ⟨usedEdges_le s, fun k => used_edge_ne s, fun _ => unused_edge s⟩, ⟨rfl, ?_⟩, wheelLegal_iff_row s, ⟨rfl, rfl, fun k => rfl⟩, ?_⟩
  · unfold State.firstLevel
    cases s.camCfg.getLsbD 0 <;> rfl
  · unfold State.edge edgeField
    rw [camSlot_eq s k hk]
    exact ⟨rfl, rfl⟩
  · have hslot : s.camSlot k = 0x0000FFFF#32 := by unfold State.camSlot; simp [hk]
    unfold State.edge
    rw [hslot]
    exact ⟨rfl, rfl⟩
  · unfold State.gapLevel State.crkFirst State.gapInv
    cases s.crkCfg.getLsbD 16 <;> rfl
  · unfold State.ConfigLegal
    rw [wheelLegal_iff]

end Sys2Proof.Machine
end

section
/-! SUPPORT. The rules of `20_memory.md` over PMEM and the agents: the recurrences of the pattern's closed forms, what a partial pattern
becomes when one more element or marker is written, that every step but a reset keeps a generation (R73, R77), who writes PMEM (R68, R70),
where an instruction can stop (R64), and which instruction a step runs (R69, R71, R73). -/

namespace Sys2Proof.Machine

/-! ### The closed forms advance as the trackers do -/

/-- An edge at an angle is a used edge, so it stands in a slot of the block. -/
theorem edgesBelow_lt_of_edge {s : State} {a : Nat} (ha : a < 7200) (he : s.edge (s.edgesBelow a) = a) : s.edgesBelow a < 20 := by
  have hne : s.edgesBelow a ≠ s.usedEdges := fun h => by
    rw [h, unused_edge] at he
    exact absurd (he ▸ ha : camSentinel < 7200) (by decide)
  exact Nat.lt_of_lt_of_le (Nat.lt_of_le_of_ne (edgesBelow_le s a) hne) (usedEdges_le s)

theorem camAt_zero (s : State) : s.camAt 0 = s.firstLevel := by
  unfold State.camAt
  rw [edgesBelow_zero]
  rfl

/-- The cam level toggles after an edge, and nowhere else (`42_cam.md` R161, R166). -/
theorem camAt_succ {s : State} (h : ∀ k, k < s.usedEdges → s.EdgeLegal k) {a : Nat} (ha : a < 7200) :
    s.camAt (a + 1) = if s.edge (s.edgesBelow a) = a then (s.camAt a).not else s.camAt a := by
  unfold State.camAt
  rw [edgesBelow_succ h a ha]
  by_cases he : s.edge (s.edgesBelow a) = a
  · rw [if_pos he, if_pos he]
    by_cases hodd : s.edgesBelow a % 2 = 1
    · rw [if_pos hodd, if_neg (by omega), not_not_level]
    · rw [if_neg hodd, if_pos (by omega)]
  · rw [if_neg he, if_neg he]

/-- In a legal wheel, between two transitions the half tooth and the gap window stay; a transition outside the gap window comes from the
gap window before a new revolution, or from the half tooth before (`41_crank.md` R142). -/
theorem halfTooth_step {s : State} (h : s.wheelLegal = true) (b : Nat) :
    ((b + 1) % s.halfTooth ≠ 0 → (b + 1) % 3600 / s.halfTooth = b % 3600 / s.halfTooth ∧
      ((b + 1) % 3600 ≥ s.gapStart ↔ b % 3600 ≥ s.gapStart)) ∧
    ((b + 1) % s.halfTooth = 0 → (b + 1) % 3600 < s.gapStart →
      ((b + 1) % 3600 / s.halfTooth = 0 ∧ b % 3600 ≥ s.gapStart) ∨
        ((b + 1) % 3600 / s.halfTooth = b % 3600 / s.halfTooth + 1 ∧ b % 3600 < s.gapStart)) := by
  obtain ⟨hf, g, hhalf, -, hstart, hrow⟩ := wheel_cases h
  rw [hhalf, hstart]
  rcases hrow with ⟨rfl, rfl | rfl⟩ | ⟨rfl, rfl | rfl⟩ | ⟨rfl, rfl | rfl⟩ <;> constructor <;> omega

/-- The crank level after angle `a`, by the place of `a` in its revolution (`41_crank.md` R146). -/
theorem crankAt_after (s : State) (a : Nat) :
    s.crankAt (a + 1) = if a % revolution ≥ s.gapStart then s.crkFirst.not
      else if a % revolution / s.halfTooth % 2 = 1 then s.crkFirst.not else s.crkFirst := rfl

/-- At a transition the gap level is set in the gap window, and elsewhere the level toggles (`41_crank.md` R142). -/
theorem crankNext_transition (s : State) {a : Nat} (h0 : a ≠ 0) (hm : a % s.halfTooth = 0) (lvl : Level) :
    crankNext a s.halfTooth s.gapSpan s.crkFirst lvl = if a % revolution ≥ s.gapStart then s.crkFirst.not else lvl.not :=
  if_pos ⟨h0, hm⟩

/-- Between transitions the level stays (`41_crank.md` R142). -/
theorem crankNext_stay (s : State) {a : Nat} (h : ¬(a ≠ 0 ∧ a % s.halfTooth = 0)) (lvl : Level) :
    crankNext a s.halfTooth s.gapSpan s.crkFirst lvl = lvl :=
  if_neg h

/-- The crank closed form follows the transition rule (`41_crank.md` R142, R146). -/
theorem crankAt_succ {s : State} (h : s.wheelLegal = true) (a : Nat) :
    s.crankAt (a + 1) = crankNext a s.halfTooth s.gapSpan s.crkFirst (s.crankAt a) := by
  rw [crankAt_after]
  cases a with
  | zero =>
    obtain ⟨hf, g, -, -, hstart, hrow⟩ := wheel_cases h
    have hgap : ¬0 % revolution ≥ s.gapStart := by rw [hstart, Nat.zero_mod]; omega
    rw [crankNext_stay s (fun hc => hc.1 rfl), if_neg hgap, Nat.zero_mod, Nat.zero_div]
    rfl
  | succ b =>
    obtain ⟨hstay, hmove⟩ := halfTooth_step h b
    by_cases hm : (b + 1) % s.halfTooth = 0
    · rw [crankNext_transition s (Nat.succ_ne_zero b) hm]
      by_cases hgap : (b + 1) % revolution ≥ s.gapStart
      · rw [if_pos hgap, if_pos hgap]
      · rw [if_neg hgap, if_neg hgap, crankAt_after]
        rcases hmove hm (Nat.lt_of_not_le hgap) with ⟨hnew, hprev⟩ | ⟨hnew, hprev⟩
        · rw [hnew, if_pos hprev, not_not_level]
          rfl
        · rw [hnew, if_neg (Nat.not_le_of_lt hprev)]
          by_cases hodd : b % 3600 / s.halfTooth % 2 = 1
          · rw [if_pos hodd, if_neg (by omega), not_not_level]
          · rw [if_neg hodd, if_pos (by omega)]
    · obtain ⟨hhalf, hgap⟩ := hstay hm
      rw [crankNext_stay s (fun hc => hm hc.2), crankAt_after, hhalf]
      exact if_congr hgap rfl rfl

/-! ### The partial pattern grows as the ENGINE writes -/

/-- Nothing generated yet: every bit is the old one. -/
theorem patternBit_zero (g : State) (a b : Nat) : g.patternBit 0 0 a b = g.bit a b := by
  simp [State.patternBit]

/-- One more element generated (`44_generate.md` R202). -/
theorem patternBit_succ_element (g : State) (c k a b : Nat) :
    g.patternBit (c + 1) k a b =
      if a = c ∧ b = 1 then some (g.crankAt c) else if a = c ∧ b = 0 then some (g.camAt c) else g.patternBit c k a b := by
  unfold State.patternBit camBit crkBit
  by_cases ha : a = c
  · subst ha
    rcases b with _ | _ | b <;> simp
  · have hlt : a < c + 1 ↔ a < c := by omega
    simp [ha, hlt]

/-- One more marker set (`43_tdc.md` R186). -/
theorem patternBit_succ_marker (g : State) (c k a b : Nat) :
    g.patternBit c (k + 1) a b = if a = g.tdcPos k ∧ b = 2 + k then some .high else g.patternBit c k a b := by
  unfold State.patternBit camBit crkBit
  by_cases hb : b = 2 + k
  · subst hb
    have h2 : 2 + k - 2 = k := by omega
    have h1 : 2 + k ≠ 1 := by omega
    by_cases ha : a = g.tdcPos k <;> simp [ha, h2, h1]
  · have hlt : 2 ≤ b → (b - 2 < k + 1 ↔ b - 2 < k) := by omega
    by_cases h2 : 2 ≤ b
    · simp [hb, h2, hlt h2]
    · simp [hb, h2]

/-! ### A generation in progress, phase by phase -/

theorem generating_main_iff {g s : State} (hp : s.phase = .main) :
    g.Generating s ↔ s.SameConfig g ∧ s.cfgValid = true ∧ s.done = false ∧ s.cursor.toNat < elementCount ∧ s.tdcK = 0#3 ∧
      s.camIdx.toNat = g.edgesBelow s.cursor.toNat ∧ s.camLvl = g.camAt s.cursor.toNat ∧ s.crkLvl = g.crankAt s.cursor.toNat ∧
      s.ShowsPattern g s.cursor.toNat 0 := by
  unfold State.Generating
  rw [hp]

theorem generating_tdc_iff {g s : State} (hp : s.phase = .tdc) :
    g.Generating s ↔ s.SameConfig g ∧ s.cfgValid = true ∧ s.done = false ∧ s.cursor.toNat = 7199 ∧ s.camIdx.toNat = g.usedEdges ∧
      s.tdcK.toNat < g.cylCount ∧ s.ShowsPattern g elementCount s.tdcK.toNat := by
  unfold State.Generating
  rw [hp]

theorem generating_idle_iff {g s : State} (hp : s.phase = .idle) :
    g.Generating s ↔ s.SameConfig g ∧ s.cfgValid = true ∧ s.done = true ∧ s.cursor.toNat = 7199 ∧ s.camIdx.toNat = g.usedEdges ∧
      s.tdcK.toNat = g.cylCount ∧ s.ShowsPattern g elementCount g.cylCount := by
  unfold State.Generating
  rw [hp]

/-- An accepted GENERATE starts a generation of its own configuration and PMEM (`44_generate.md` R201). -/
theorem generateAccept_generating {s : State} (hv : s.cfgValid = true) : s.Generating s.generateAccept :=
  (generating_main_iff rfl).2 ⟨⟨rfl, rfl, rfl, rfl, rfl⟩, hv, rfl, show (0#13).toNat < elementCount by decide, rfl,
    (edgesBelow_zero s).symm, (camAt_zero s).symm, rfl, fun a b _ _ => (patternBit_zero s a b).symm⟩

section
variable {g s : State}

/-- The cam index after a main step counts the used edges below the next angle. -/
theorem mainNext_camIdx_counts (hl : ∀ k, k < g.usedEdges → g.EdgeLegal k) (hs : s.SameConfig g) (ha : s.cursor.toNat < 7200)
    (hi : s.camIdx.toNat = g.edgesBelow s.cursor.toNat) :
    (mainNext s).camIdx.toNat = g.edgesBelow (s.cursor.toNat + 1) := by
  rw [mainNext_camIdx, sameConfig_edge hs, hi, edgesBelow_succ hl _ ha]
  by_cases he : g.edge (g.edgesBelow s.cursor.toNat) = s.cursor.toNat
  · have hslot := edgesBelow_lt_of_edge ha he
    have hnext : (s.camIdx + 1#5).toNat = s.camIdx.toNat + 1 := BitVec.toNat_add_of_lt (show s.camIdx.toNat + 1 < 32 by omega)
    rw [if_pos ⟨hslot, he⟩, if_pos he, hnext, hi]
  · rw [if_neg fun hc => he hc.2, if_neg he, hi]

/-- The cam tracker holds the next angle's level after a main step. -/
theorem mainNext_camLvl_next (hl : ∀ k, k < g.usedEdges → g.EdgeLegal k) (hs : s.SameConfig g) (ha : s.cursor.toNat < 7200)
    (hi : s.camIdx.toNat = g.edgesBelow s.cursor.toNat) (hc : s.camLvl = g.camAt s.cursor.toNat) :
    (mainNext s).camLvl = g.camAt (s.cursor.toNat + 1) := by
  rw [mainNext_camLvl, sameConfig_edge hs, hi, hc, camAt_succ hl ha]
  by_cases he : g.edge (g.edgesBelow s.cursor.toNat) = s.cursor.toNat
  · rw [if_pos ⟨edgesBelow_lt_of_edge ha he, he⟩, if_pos he]
  · rw [if_neg fun hc => he hc.2, if_neg he]

/-- The crank tracker holds the next angle's level after a main step. -/
theorem mainNext_crkLvl_next (hw : g.wheelLegal = true) (hs : s.SameConfig g) (hc : s.crkLvl = g.crankAt s.cursor.toNat) :
    (mainNext s).crkLvl = g.crankAt (s.cursor.toNat + 1) := by
  rw [mainNext_crkLvl, sameConfig_half hs, sameConfig_gap hs, sameConfig_first hs, hc, crankAt_succ hw]

/-- A main step extends the pattern by the element at CURSOR. -/
theorem mainNext_showsPattern (hc : s.camLvl = g.camAt s.cursor.toNat) (hk : s.crkLvl = g.crankAt s.cursor.toNat)
    (hp : s.ShowsPattern g s.cursor.toNat 0) : (mainNext s).ShowsPattern g (s.cursor.toNat + 1) 0 := by
  intro a b ha hb
  rw [mainNext_frame] at hb
  rw [mainNext_bit, patternBit_succ_element, hp a b ha hb, hc, hk]

/-- A main step leaves a state of the generation: of the main pass, or after angle 7199 of the TDC pass (`44_generate.md` R202, R205). -/
theorem mainNext_generating (hl : g.ConfigLegal) (hn : 1 ≤ g.cylCount) (hp : s.phase = .main) (hg : g.Generating s) :
    g.Generating (mainNext s) := by
  obtain ⟨hsame, hvalid, hdone, hcur, htdc, hidx, hcam, hcrk, hshow⟩ := (generating_main_iff hp).1 hg
  obtain ⟨-, -, hedges, hwheel⟩ := hl
  have hangle : s.cursor.toNat < 7200 := hcur
  have hsame' : (mainNext s).SameConfig g := by rw [mainNext_frame]; exact hsame
  have hvalid' : (mainNext s).cfgValid = true := by rw [mainNext_frame]; exact hvalid
  have hdone' : (mainNext s).done = false := by rw [mainNext_frame]; exact hdone
  have htdc' : (mainNext s).tdcK = 0#3 := by rw [mainNext_frame]; exact htdc
  have hidx' := mainNext_camIdx_counts hedges hsame hcur hidx
  have hcam' := mainNext_camLvl_next hedges hsame hcur hidx hcam
  have hcrk' := mainNext_crkLvl_next hwheel hsame hcrk
  have hshow' := mainNext_showsPattern hcam hcrk hshow
  have hphase := mainNext_phase s hp
  have hcursor := mainNext_cursor s
  by_cases hlast : s.cursor.toNat = 7199
  · rw [if_pos hlast] at hphase hcursor
    rw [hlast] at hidx' hshow'
    refine (generating_tdc_iff hphase).2 ⟨hsame', hvalid', hdone', by rw [hcursor, hlast], hidx'.trans (edgesBelow_end hedges), ?_, ?_⟩
    · rw [htdc']; exact hn
    · rw [htdc']; exact hshow'
  · rw [if_neg hlast] at hphase hcursor
    have hnext : (mainNext s).cursor.toNat = s.cursor.toNat + 1 := by
      rw [hcursor]
      exact BitVec.toNat_add_of_lt (show s.cursor.toNat + 1 < 8192 by omega)
    have hcur' : (mainNext s).cursor.toNat < 7200 := by omega
    rw [← hnext] at hidx' hcam' hcrk' hshow'
    exact (generating_main_iff hphase).2 ⟨hsame', hvalid', hdone', hcur', htdc', hidx', hcam', hcrk', hshow'⟩

/-- TDC_K after a TDC step: three bits hold it, since no cylinder count is above 6. -/
theorem tdcNext_tdcK_toNat (hk : s.tdcK.toNat < s.cylCount) (hn : s.cylCount ≤ 6) : (tdcNext s).tdcK.toNat = s.tdcK.toNat + 1 := by
  unfold tdcNext
  rw [advanceTdc_tdcK, setElem_tdcK]
  exact BitVec.toNat_add_of_lt (show s.tdcK.toNat + 1 < 8 by omega)

/-- A TDC step extends the pattern by the marker of cylinder TDC_K. -/
theorem tdcNext_showsPattern (hs : s.SameConfig g) (hp : s.ShowsPattern g elementCount s.tdcK.toNat) :
    (tdcNext s).ShowsPattern g elementCount (s.tdcK.toNat + 1) := by
  intro a b ha hb
  rw [tdcNext_frame] at hb
  rw [tdcNext_bit s a b s.tdcK.isLt, patternBit_succ_marker, sameConfig_tdcPos hs, hp a b ha hb]

/-- A TDC step leaves a state of the generation: of the TDC pass, or after the last cylinder its end (`43_tdc.md` R186, R187). -/
theorem tdcNext_generating (hn : s.cylCount ≤ 6) (hp : s.phase = .tdc) (hg : g.Generating s) : g.Generating (tdcNext s) := by
  obtain ⟨hsame, hvalid, hdone, hcur, hidx, hk, hshow⟩ := (generating_tdc_iff hp).1 hg
  have hcyl := sameConfig_cyl hsame
  have hsame' : (tdcNext s).SameConfig g := by rw [tdcNext_frame]; exact hsame
  have hvalid' : (tdcNext s).cfgValid = true := by rw [tdcNext_frame]; exact hvalid
  have hcur' : (tdcNext s).cursor.toNat = 7199 := by rw [tdcNext_frame]; exact hcur
  have hidx' : (tdcNext s).camIdx.toNat = g.usedEdges := by rw [tdcNext_frame]; exact hidx
  have hk' := tdcNext_tdcK_toNat (hcyl ▸ hk) hn
  have hshow' := tdcNext_showsPattern hsame hshow
  by_cases hlast : s.tdcK.toNat + 1 = s.cylCount
  · have hphase : (tdcNext s).phase = .idle := by rw [tdcNext_last hlast]
    have hdone' : (tdcNext s).done = true := by rw [tdcNext_last hlast]
    rw [hlast, hcyl] at hk' hshow'
    exact (generating_idle_iff hphase).2 ⟨hsame', hvalid', hdone', hcur', hidx', hk', hshow'⟩
  · have hphase : (tdcNext s).phase = .tdc := by rw [tdcNext_more hlast]; exact hp
    have hdone' : (tdcNext s).done = false := by rw [tdcNext_more hlast]; exact hdone
    rw [← hk'] at hshow'
    exact (generating_tdc_iff hphase).2 ⟨hsame', hvalid', hdone', hcur', hidx', by omega, hshow'⟩

end

/-! ### What HOST and STREAM do while BUSY -/

/-- While BUSY = 1, HOST and STREAM change nothing but the error record, DATA and the outputs (`44_generate.md` R206, `20_memory.md`
R77). -/
theorem HostStep.busy_frame {s t : State} {i : Instr} (h : HostStep s i t) (hb : s.busy = true) :
    t = { s with err := t.err, errMulti := t.errMulti, data := t.data, hostRead := t.hostRead, streamOut := t.streamOut } := by
  have idle_absurd : s.busy = false → False := fun hi => Bool.false_ne_true (hi.symm.trans hb)
  cases h with
  | setBit _ _ _ idle | wrWord _ idle | result _ idle | validate idle | generate idle | writeCrkCfg _ idle | writeCamCfg _ idle
  | writeTdcCfg _ idle | writeCamEdge _ _ idle => exact (idle_absurd idle).elim
  | _ => rfl

/-- Every instruction taken while a generation is in progress leaves a state of it. -/
theorem exec_generating {g s t : State} {i : Instr} (hl : g.ConfigLegal) (hn : 1 ≤ g.cylCount) (hb : s.busy = true)
    (hg : g.Generating s) (h : exec i s = .next t) : g.Generating t := by
  by_cases hi : notEngine i = true
  · rw [(exec_host_step hi h).busy_frame hb]
    exact hg
  · rcases engine_of_not_host hi with rfl | rfl
    · obtain ⟨hp, -, -, rfl⟩ := execMainStep_inv h
      exact mainNext_generating hl hn hp hg
    · obtain ⟨hp, -, hmax, rfl⟩ := execTdcStep_inv h
      exact tdcNext_generating hmax hp hg

/-- Settles O48: an accepted GENERATE is `generateAccept`; a step that is no reset passes, or is an instruction taken with the same block
state. -/
theorem generationProgressesUnderAnySchedule : Obligations.GenerationProgressesUnderAnySchedule := by
  refine ⟨fun s t _ hb hv h => ?_, fun g s t hinv hl hb hg hr h => ?_⟩
  · rw [exec_generate_accepted hb hv] at h
    cases h
    exact generateAccept_generating hv
  · have hn := (cylCount_range hinv.1 hl.1).1
    obtain ⟨u, rest, rfl, ⟨r, ha, -⟩ | ⟨-, hs⟩ | ⟨i, -, -, hs⟩⟩ := step_cases s
    · exact absurd ha (hr r)
    · rw [hs] at h
      cases h
      exact hg
    · rw [hs] at h
      exact exec_generating (s := { s with agenda := rest }) hl hn hb hg h

/-! ### The writers of PMEM -/

/-- Of HOST and STREAM, only SET_CAM, SET_CRK, SET_TDC and WR_WORD write PMEM (`20_memory.md` R68, R70). -/
theorem HostStep.pmem_writer {s t : State} {i : Instr} (h : HostStep s i t) (hp : t.pmem ≠ s.pmem) :
    ((∃ a l, i = .setCam a l) ∨ (∃ a l, i = .setCrk a l) ∨ ∃ a c l, i = .setTdc a c l) ∨ ∃ a, i = .wrWord a := by
  cases h with
  | setBit _ _ _ _ _ _ hi => exact .inl hi
  | wrWord a => exact .inr ⟨a, rfl⟩
  | _ => exact absurd rfl hp

/-- Settles O53: an instruction that issues none of PMEM's writers leaves the list, and with it every bit. -/
theorem pmemHasItsWriters : Obligations.PmemHasItsWriters := by
  intro i s t h hn hcam hcrk htdc hwr
  have hp : t.pmem = s.pmem := by
    by_contra hne
    rcases (exec_host_step hn h).pmem_writer hne with (⟨a, l, hi⟩ | ⟨a, l, hi⟩ | ⟨a, c, l, hi⟩) | ⟨a, hi⟩
    · exact hcam a l hi
    · exact hcrk a l hi
    · exact htdc a c l hi
    · exact hwr a hi
  exact ⟨hp, bit_congr hp⟩

/-! ### Where an instruction stops -/

/-- The faults the spec gives a model: a read of an undefined bit (`20_memory.md` R64), a stream read past the last element
(`45_config_control.md` R246). -/
def ReadFault (s : State) (f : Fault) : Prop :=
  (∃ i b, f = .undefinedRead i b ∧ s.bit i b = none) ∨ ∃ i, f = .streamIndexOutOfContract i ∧ 7200 ≤ i

/-- The answer is a next state, or stops at one of the spec's faults. -/
inductive StopsAtReads (s : State) : Result → Prop where
  | next (t : State) : StopsAtReads s (.next t)
  | fault {f : Fault} (hf : ReadFault s f) : StopsAtReads s (.fault f)

section
variable {s : State} {k : Result}

theorem StopsAtReads.fault_inv {f : Fault} (h : StopsAtReads s (.fault f)) : ReadFault s f := by cases h; assumption

theorem StopsAtReads.not_refused {r : Refusal} (h : StopsAtReads s (.refused r)) : False := nomatch h

/-- Which reads fault is a matter of PMEM alone. -/
theorem StopsAtReads.of_bit_eq {u : State} (h : StopsAtReads u k) (hb : ∀ i b, s.bit i b = u.bit i b) : StopsAtReads s k := by
  cases h with
  | next t => exact .next t
  | fault hf =>
    rcases hf with ⟨i, b, rfl, hu⟩ | hi
    · exact .fault (.inl ⟨i, b, rfl, (hb i b).trans hu⟩)
    · exact .fault (.inr hi)

theorem whenIdle_stopsAtReads (hk : StopsAtReads s k) : StopsAtReads s (whenIdle s k) := by
  cases hb : s.busy with
  | true => rw [whenIdle_busy k hb]; exact .next _
  | false => rw [whenIdle_idle k hb]; exact hk

theorem withElement_stopsAtReads {addr : BitVec 13} (hk : addr.toNat < elementCount → StopsAtReads s k) :
    StopsAtReads s (withElement addr s k) := by
  rcases withElement_cases addr s k with ⟨e, -, h⟩ | ⟨-, ha, h⟩ <;> rw [h]
  · exact .next _
  · exact hk ha

theorem withCylinder_stopsAtReads {addr : BitVec 13} {cyl : BitVec 3}
    (hk : addr.toNat < elementCount → cyl.toNat < tdcBits → StopsAtReads s k) : StopsAtReads s (withCylinder addr cyl s k) := by
  rcases withCylinder_cases addr cyl s k with ⟨e, -, h⟩ | ⟨-, ha, hc, h⟩ <;> rw [h]
  · exact .next _
  · exact hk ha hc

theorem writeBit_stopsAtReads {i b : Nat} (x : Level) (hi : i < elementCount) (hb : b < 8) :
    StopsAtReads s (finish (s.memWriteBit i b x)) := by
  rw [memWriteBit_ok x hi (Nat.lt_of_lt_of_le hb (width_ge _))]
  exact .next _

theorem getBit_stopsAtReads {i b : Nat} (hi : i < elementCount) (hb : b < 8) : StopsAtReads s (getBit i b s) := by
  rcases getBit_cases hi (Nat.lt_of_lt_of_le hb (width_ge s.params.width)) with ⟨v, h⟩ | ⟨hu, h⟩ <;> rw [h]
  · exact .next _
  · exact .fault (.inl ⟨i, b, rfl, hu⟩)

theorem tdcBit_lt {cyl : BitVec 3} (hc : cyl.toNat < tdcBits) : tdcBit cyl.toNat < 8 := by
  unfold tdcBit
  simp only [tdcBits] at hc
  omega

theorem execRdWord_stopsAtReads (addr : BitVec 13) : StopsAtReads s (execRdWord addr s) := by
  refine withElement_stopsAtReads fun ha => ?_
  rcases memRead_cases (s := s) ha with ⟨-, h⟩ | ⟨b, -, hu, h⟩ <;> rw [h]
  · exact .next _
  · exact .fault (.inl ⟨_, b, rfl, hu⟩)

theorem execWrWord_stopsAtReads (addr : BitVec 13) : StopsAtReads s (execWrWord addr s) := by
  refine withElement_stopsAtReads fun ha => ?_
  rw [memWrite_ok s.data ha]
  exact .next _

theorem execValidate_stopsAtReads : StopsAtReads s (execValidate s) := by
  refine whenIdle_stopsAtReads ?_
  cases s.validateError <;> exact .next _

theorem execGenerate_stopsAtReads : StopsAtReads s (execGenerate s) := by
  refine whenIdle_stopsAtReads ?_
  cases s.cfgValid <;> exact .next _

theorem writeConfig_stopsAtReads (mask v : Word) (stored : State) : StopsAtReads s (writeConfig mask v s stored) := by
  rcases writeConfig_cases mask v s stored with ⟨e, -, h⟩ | ⟨-, -, h⟩ <;> rw [h] <;> exact .next _

theorem raiseAccess_stopsAtReads (acc : Access) : StopsAtReads s (raiseAccess acc s) := by
  cases acc <;> exact .next _

theorem execStreamRd_stopsAtReads (n : Nat) : StopsAtReads s (execStreamRd n s) := by
  unfold execStreamRd
  by_cases hn : n ≥ elementCount
  · rw [if_pos hn]
    exact .fault (.inr ⟨n, rfl, hn⟩)
  · rw [if_neg hn]
    rcases memRead_cases (s := s) (i := n) (by omega) with ⟨-, h⟩ | ⟨b, -, hu, h⟩ <;> rw [h]
    · exact .next _
    · exact .fault (.inl ⟨n, b, rfl, hu⟩)

/-- The twelve commands stop at reads of undefined bits only. -/
theorem issue_stopsAtReads (op : Opcode) (addr : BitVec 13) (cyl : BitVec 3) (lvl : Level) : StopsAtReads s (issue op addr cyl lvl s) := by
  cases op with
  | nop | clrErr => exact .next _
  | setCam | setCrk => exact withElement_stopsAtReads fun ha => writeBit_stopsAtReads lvl ha (by decide)
  | getCam | getCrk => exact withElement_stopsAtReads fun ha => getBit_stopsAtReads ha (by decide)
  | setTdc => exact withCylinder_stopsAtReads fun ha hc => writeBit_stopsAtReads lvl ha (tdcBit_lt hc)
  | getTdc => exact withCylinder_stopsAtReads fun ha hc => getBit_stopsAtReads ha (tdcBit_lt hc)
  | rdWord => exact execRdWord_stopsAtReads addr
  | wrWord => exact execWrWord_stopsAtReads addr
  | validate => exact execValidate_stopsAtReads
  | generate => exact execGenerate_stopsAtReads

theorem execWriteCmd_stopsAtReads (v : Word) : StopsAtReads s (execWriteCmd v s) := by
  unfold execWriteCmd
  cases commandOf v with
  | none => exact .next _
  | some op => exact issue_stopsAtReads op _ _ _

/-- HOST and STREAM stop at the spec's faults only. -/
theorem exec_host_stopsAtReads {i : Instr} (hi : notEngine i = true) : StopsAtReads s (exec i s) := by
  cases i with
  | setCam addr lvl => exact issue_stopsAtReads .setCam addr 0 lvl
  | getCam addr => exact issue_stopsAtReads .getCam addr 0 .low
  | setCrk addr lvl => exact issue_stopsAtReads .setCrk addr 0 lvl
  | getCrk addr => exact issue_stopsAtReads .getCrk addr 0 .low
  | setTdc addr cyl lvl => exact issue_stopsAtReads .setTdc addr cyl lvl
  | getTdc addr cyl => exact issue_stopsAtReads .getTdc addr cyl .low
  | rdWord addr => exact execRdWord_stopsAtReads addr
  | wrWord addr => exact execWrWord_stopsAtReads addr
  | validate => exact execValidate_stopsAtReads
  | generate => exact execGenerate_stopsAtReads
  | writeCmd v => exact execWriteCmd_stopsAtReads v
  | writeCrkCfg | writeCamCfg | writeTdcCfg | writeCamEdge0 | writeCamEdge16 => exact writeConfig_stopsAtReads _ _ _
  | writeCamEdge20 | writeCamEdge24 => exact whenIdle_stopsAtReads (.next _)
  | unmapped20 acc | unmappedC0 acc | misaligned acc => exact raiseAccess_stopsAtReads acc
  | streamRd n => exact execStreamRd_stopsAtReads n
  | mainStep | tdcStep => simp [notEngine] at hi
  | _ => exact .next _

end

/-! ### The ENGINE completes -/

/-- While BUSY = 1 the configuration is legal (`44_generate.md` R206, `45_config_control.md` R236). -/
theorem configLegal_of_busy {s : State} (h : s.Inv) (hb : s.busy = true) : s.ConfigLegal := by
  obtain ⟨-, -, -, hlegal, hvalid, -⟩ := h
  exact hlegal (hvalid hb)

theorem execMainStep_completes {s : State} (h : s.Inv) (hp : s.phase = .main) : ∃ t, exec .mainStep s = .next t := by
  obtain ⟨-, -, -, hwheel⟩ := configLegal_of_busy h (by rw [busy_eq, hp]; rfl)
  obtain ⟨-, -, -, -, -, hmain, -⟩ := h
  exact ⟨_, execMainStep_next hp hwheel (hmain hp).1⟩

theorem execTdcStep_completes {s : State} (h : s.Inv) (hp : s.phase = .tdc) : ∃ t, exec .tdcStep s = .next t := by
  have hcyl := (configLegal_of_busy h (by rw [busy_eq, hp]; rfl)).1
  obtain ⟨hparams, -, -, -, -, -, htdc⟩ := h
  exact ⟨_, execTdcStep_next hp (htdc hp).2 (cylCount_range hparams hcyl).2⟩

/-- With the invariant, the instruction of a turn stops at the spec's faults only: an ENGINE step comes in its phase alone. -/
theorem exec_turn_stopsAtReads {u : State} {t : Turn} {i : Instr} (h : u.Inv) (ht : turnInstr t u = some i) :
    StopsAtReads u (exec i u) := by
  by_cases hi : notEngine i = true
  · exact exec_host_stopsAtReads hi
  · obtain ⟨hmain, htdc⟩ := turnInstr_engine ht
    rcases engine_of_not_host hi with rfl | rfl
    · obtain ⟨v, hv⟩ := execMainStep_completes h (hmain rfl)
      rw [hv]; exact .next v
    · obtain ⟨v, hv⟩ := execTdcStep_completes h (htdc rfl)
      rw [hv]; exact .next v

/-- With the invariant, a step stops at the spec's faults only. -/
theorem step_stopsAtReads {s : State} (h : s.Inv) : StopsAtReads s (step s) := by
  obtain ⟨u, rest, rfl, ⟨-, -, hs⟩ | ⟨-, hs⟩ | ⟨i, -, ht, hs⟩⟩ := step_cases s <;> rw [hs]
  · exact .next _
  · exact .next _
  · exact (exec_turn_stopsAtReads (u := { s with agenda := rest }) h ht).of_bit_eq fun _ _ => rfl

/-- Settles O58: a step stops at the spec's faults only, and both ENGINE steps complete in their phase. -/
theorem stopsOnlyAtUndefinedReadsAndStreamOverruns : Obligations.StopsOnlyAtUndefinedReadsAndStreamOverruns := by
  intro s h
  have hstop := step_stopsAtReads h
  exact ⟨fun f hf => (hf ▸ hstop).fault_inv, fun r hr => (hr ▸ hstop).not_refused, execMainStep_completes h, execTdcStep_completes h⟩

/-! ### The instruction of a step -/

/-- A step executes the instruction of the first turn's transaction, in the state with that turn taken off the agenda. -/
theorem step_eq_exec {s : State} {t : Turn} {rest : List Turn} {wire : Wire} {i : Instr} (ha : s.agenda = t :: rest)
    (hw : turnWire t { s with agenda := rest } = some wire) (hd : decode wire = .ok i) : step s = exec i { s with agenda := rest } := by
  have hi : turnInstr t { s with agenda := rest } = some i := by
    unfold turnInstr
    rw [hw]
    simp only [hd]
  unfold step takeTurn
  rw [nextTurn_cons ha]
  cases t with
  | reset => cases hw
  | _ => simp only [hi]

/-- A bus address at an offset of the window presents the access at that offset (`20_memory.md` R71). -/
theorem turnWire_bus_window (acc : Access) (size : Size) (off : BitVec 8) (s : State) :
    turnWire (.bus acc size (s.params.base + off.toNat)) s = some (.reg acc size off) := by
  have hin : inWindow s.params.base (s.params.base + off.toNat) = true := by
    have := off.isLt
    simp only [inWindow, windowBytes, decide_eq_true_eq]
    omega
  simp only [turnWire, hin, if_true, Nat.add_sub_cancel_left, BitVec.ofNat_toNat, BitVec.setWidth_eq]

/-- Settles O7: each of the four turns presents its transaction. -/
theorem stepRunsTheDecodedTurn : Obligations.StepRunsTheDecodedTurn := by
  intro s rest i
  exact ⟨fun w ha hd => step_eq_exec ha rfl hd,
    fun acc size off ha hd => step_eq_exec ha (turnWire_bus_window acc size off { s with agenda := rest }) hd,
    fun n ha hd => step_eq_exec ha rfl hd, fun ha hd => step_eq_exec ha rfl hd⟩

end Sys2Proof.Machine
end

section
/-! SUPPORT. Decode and encode agree (`30_encoding.md` R80 to R98): the command word of an opcode with its operands, the offset of a
register's word number, and the words that spell no command. -/

namespace Sys2Proof

open Machine

/-! ### The command word of an opcode -/

/-- The command word of an opcode: the fields it uses hold the operands, the others are 0 (`30_encoding.md` R81, R84). -/
def Opcode.word (op : Opcode) (addr : BitVec 13) (cyl : BitVec 3) (lvl : Level) : Word :=
  commandWord op.number (if usesLvl op.number = true then lvl else .low) (if usesCyl op.number = true then cyl else 0#3)
    (if usesAddr op.number = true then addr else 0#13)

theorem encode_instr (op : Opcode) (addr : BitVec 13) (cyl : BitVec 3) (lvl : Level) :
    encode (op.instr addr cyl lvl) = .cmd (op.word addr cyl lvl) := by cases op <;> rfl

theorem instr_wellFormed (op : Opcode) (addr : BitVec 13) (cyl : BitVec 3) (lvl : Level) :
    (op.instr addr cyl lvl).wellFormed = true := by cases op <;> rfl

/-- An instruction has no operand in a field that its opcode does not use. -/
theorem instr_of_used (op : Opcode) (addr : BitVec 13) (cyl : BitVec 3) (lvl : Level) :
    op.instr (if usesAddr op.number = true then addr else 0#13) (if usesCyl op.number = true then cyl else 0#3)
      (if usesLvl op.number = true then lvl else .low) = op.instr addr cyl lvl := by cases op <;> rfl

theorem commandOf_word (op : Opcode) (addr : BitVec 13) (cyl : BitVec 3) (lvl : Level) :
    commandOf (op.word addr cyl lvl) = some op := by
  apply commandOf_commandWord
  · rw [and_lvlMask]; split_ifs with h; exacts [.inl h, .inr rfl]
  · rw [and_cylMask]; split_ifs with h; exacts [.inl h, .inr rfl]
  · rw [and_addrMask]; split_ifs with h; exacts [.inl h, .inr rfl]

theorem decodeCommand_of_some {w : Word} {op : Opcode} (h : commandOf w = some op) :
    decodeCommand w = op.instr (addrField w) (cylField w) (lvlField w) := by unfold decodeCommand; rw [h]

theorem decodeCommand_of_none {w : Word} (h : commandOf w = none) : decodeCommand w = .reservedOpc w := by
  unfold decodeCommand; rw [h]

/-- Decoding the word of an opcode gives the opcode's instruction back. -/
theorem decodeCommand_word (op : Opcode) (addr : BitVec 13) (cyl : BitVec 3) (lvl : Level) :
    decodeCommand (op.word addr cyl lvl) = op.instr addr cyl lvl := by
  rw [decodeCommand_of_some (commandOf_word op addr cyl lvl)]
  unfold Opcode.word
  rw [commandWord_addr, commandWord_cyl, commandWord_lvl, instr_of_used]

/-- A word that spells an opcode is the opcode's word with the operands in its fields. -/
theorem word_of_commandOf {w : Word} {op : Opcode} (h : commandOf w = some op) :
    op.word (addrField w) (cylField w) (lvlField w) = w := by
  obtain ⟨hopc, hrsv, hlvl, hcyl, haddr⟩ := (commandOf_iff w op).1 h
  have hl : (if usesLvl op.number = true then lvlField w else .low) = lvlField w := by
    refine ite_eq_left_iff.2 fun hn => ?_
    have hz := ((and_lvlMask op _).1 hlvl).resolve_left hn
    unfold lvlField
    rw [bit16_of_field, hz]; rfl
  have hc : (if usesCyl op.number = true then cylField w else 0#3) = cylField w :=
    ite_eq_left_iff.2 fun hn => (((and_cylMask op _).1 hcyl).resolve_left hn).symm
  have ha : (if usesAddr op.number = true then addrField w else 0#13) = addrField w :=
    ite_eq_left_iff.2 fun hn => (((and_addrMask op _).1 haddr).resolve_left hn).symm
  unfold Opcode.word
  rw [hl, hc, ha, ← hopc, commandWord_of_fields w hrsv]

/-- A command decoded from its encoding is itself. -/
theorem decode_encode_instr (op : Opcode) (addr : BitVec 13) (cyl : BitVec 3) (lvl : Level) :
    decode (encode (op.instr addr cyl lvl)) = .ok (op.instr addr cyl lvl) := by
  rw [encode_instr, ← decodeCommand_word op addr cyl lvl]
  rfl

/-! ### Register accesses -/

/-! The registers of a range are its word numbers in a row (`10_state.md` R32, `45_config_control.md` R220). -/

theorem decodeRegister_camEdge0 (k : BitVec 4) : decodeRegister .read (16 + k.toNat) = .readCamEdge0 k ∧
    ∀ v, decodeRegister (.write v) (16 + k.toNat) = .writeCamEdge0 k v := by
  obtain ⟨k⟩ := k
  fin_cases k <;> exact ⟨rfl, fun _ => rfl⟩

theorem decodeRegister_camEdge16 (k : BitVec 2) : decodeRegister .read (32 + k.toNat) = .readCamEdge16 k ∧
    ∀ v, decodeRegister (.write v) (32 + k.toNat) = .writeCamEdge16 k v := by
  obtain ⟨k⟩ := k
  fin_cases k <;> exact ⟨rfl, fun _ => rfl⟩

theorem decodeRegister_camEdge20 (k : BitVec 2) : decodeRegister .read (36 + k.toNat) = .readCamEdge20 k ∧
    ∀ v, decodeRegister (.write v) (36 + k.toNat) = .writeCamEdge20 k v := by
  obtain ⟨k⟩ := k
  fin_cases k <;> exact ⟨rfl, fun _ => rfl⟩

theorem decodeRegister_camEdge24 (k : BitVec 3) : decodeRegister .read (40 + k.toNat) = .readCamEdge24 k ∧
    ∀ v, decodeRegister (.write v) (40 + k.toNat) = .writeCamEdge24 k v := by
  obtain ⟨k⟩ := k
  fin_cases k <;> exact ⟨rfl, fun _ => rfl⟩

theorem decodeRegister_unmapped20 (acc : Access) (k : BitVec 3) : decodeRegister acc (8 + k.toNat) = .unmapped20 acc k := by
  obtain ⟨k⟩ := k
  fin_cases k <;> cases acc <;> rfl

theorem decodeRegister_unmappedC0 (acc : Access) (k : BitVec 4) : decodeRegister acc (48 + k.toNat) = .unmappedC0 acc k := by
  obtain ⟨k⟩ := k
  fin_cases k <;> cases acc <;> rfl

/-- A word read is encoded at its offset, four times its word number: the eight fixed registers, then the six ranges. -/
theorem encode_decodeRead {n : Nat} (hn : n < 64) : encode (decodeRead n) = registerAt .read (4 * n) := by
  unfold decodeRead
  split
  iterate 8 rfl
  have hge : 8 ≤ n := by grind
  split_ifs <;> exact congrArg (registerAt .read) (by rw [BitVec.toNat_ofNat]; omega)

theorem encode_decodeWrite (v : Word) {n : Nat} (hn : n < 64) : encode (decodeWrite v n) = registerAt (.write v) (4 * n) := by
  unfold decodeWrite
  split
  iterate 8 rfl
  have hge : 8 ≤ n := by grind
  split_ifs <;> exact congrArg (registerAt (.write v)) (by rw [BitVec.toNat_ofNat]; omega)

theorem encode_decodeRegister (acc : Access) {n : Nat} (hn : n < 64) : encode (decodeRegister acc n) = registerAt acc (4 * n) :=
  match acc with
  | .read => encode_decodeRead hn
  | .write v => encode_decodeWrite v hn

/-- The register access at a word number, decoded from its encoding, is itself. -/
theorem decode_encode_register (acc : Access) (n : Nat) {i : Instr} (hn : n < 64) (h : decodeRegister acc n = i) :
    decode (encode i) = .ok i := by
  rw [← h, encode_decodeRegister acc hn]
  exact decode_wordAccess acc hn rfl

theorem decodeRegister_wellFormed (acc : Access) (n : Nat) : (decodeRegister acc n).wellFormed = true := by
  cases acc with
  | read =>
    unfold decodeRegister decodeRead
    dsimp only
    split
    iterate 8 rfl
    split_ifs <;> rfl
  | write v =>
    unfold decodeRegister decodeWrite
    dsimp only
    split
    iterate 8 rfl
    split_ifs <;> rfl

theorem misalignedAccess_iff (size : Size) (off : BitVec 8) :
    misalignedAccess size off = true ↔ size ≠ .word ∨ off.toNat % 4 ≠ 0 := by
  unfold misalignedAccess
  rw [Bool.or_eq_true, bne_iff_ne, bne_iff_ne, Ne, Ne, Ne, aligned_iff]
  rfl

theorem decode_misaligned (acc : Access) {size : Size} {off : BitVec 8} (h : misalignedAccess size off = true) :
    decode (.reg acc size off) = .ok (.misaligned acc size off) := if_pos ((misalignedAccess_iff size off).1 h)

/-- An aligned word access is an access at four times its word number. -/
theorem registerAt_of_aligned (acc : Access) {size : Size} {off : BitVec 8} (h : ¬misalignedAccess size off = true) :
    registerAt acc (4 * (off.toNat / 4)) = .reg acc size off ∧
      decode (.reg acc size off) = .ok (decodeRegister acc (off.toNat / 4)) := by
  have hn := mt (misalignedAccess_iff size off).2 h
  obtain ⟨hsize, hoff⟩ := not_or.1 hn
  refine ⟨?_, if_neg hn⟩
  unfold registerAt
  rw [Nat.mul_div_cancel' (Nat.dvd_of_mod_eq_zero (not_not.1 hoff)), BitVec.ofNat_toNat, BitVec.setWidth_eq, not_not.1 hsize]

/-! ### Both directions -/

/-- Settles O1: a command by the word of its opcode, a register access by its word number. -/
theorem decodeOfEncodeIsTheInstruction : Obligations.DecodeOfEncodeIsTheInstruction := by
  intro i hi
  cases i with
  | nop => exact decode_encode_instr .nop 0#13 0#3 .low
  | setCam addr lvl => exact decode_encode_instr .setCam addr 0#3 lvl
  | getCam addr => exact decode_encode_instr .getCam addr 0#3 .low
  | setCrk addr lvl => exact decode_encode_instr .setCrk addr 0#3 lvl
  | getCrk addr => exact decode_encode_instr .getCrk addr 0#3 .low
  | setTdc addr cyl lvl => exact decode_encode_instr .setTdc addr cyl lvl
  | getTdc addr cyl => exact decode_encode_instr .getTdc addr cyl .low
  | rdWord addr => exact decode_encode_instr .rdWord addr 0#3 .low
  | wrWord addr => exact decode_encode_instr .wrWord addr 0#3 .low
  | validate => exact decode_encode_instr .validate 0#13 0#3 .low
  | generate => exact decode_encode_instr .generate 0#13 0#3 .low
  | clrErr => exact decode_encode_instr .clrErr 0#13 0#3 .low
  | reservedOpc w => exact congrArg Except.ok (decodeCommand_of_none ((commandOf_none_iff w).2 hi))
  | readCmd => exact decode_encode_register .read 0 (by decide) rfl
  | writeCmd v => exact decode_encode_register (.write v) 0 (by decide) rfl
  | readData => exact decode_encode_register .read 1 (by decide) rfl
  | writeData v => exact decode_encode_register (.write v) 1 (by decide) rfl
  | readResult => exact decode_encode_register .read 2 (by decide) rfl
  | writeResult v => exact decode_encode_register (.write v) 2 (by decide) rfl
  | readStatus => exact decode_encode_register .read 3 (by decide) rfl
  | writeStatus v => exact decode_encode_register (.write v) 3 (by decide) rfl
  | readCrkCfg => exact decode_encode_register .read 4 (by decide) rfl
  | writeCrkCfg v => exact decode_encode_register (.write v) 4 (by decide) rfl
  | readCamCfg => exact decode_encode_register .read 5 (by decide) rfl
  | writeCamCfg v => exact decode_encode_register (.write v) 5 (by decide) rfl
  | readTdcCfg => exact decode_encode_register .read 6 (by decide) rfl
  | writeTdcCfg v => exact decode_encode_register (.write v) 6 (by decide) rfl
  | readInfo => exact decode_encode_register .read 7 (by decide) rfl
  | writeInfo v => exact decode_encode_register (.write v) 7 (by decide) rfl
  | readCamEdge0 k => exact decode_encode_register .read (16 + k.toNat) (by omega) (decodeRegister_camEdge0 k).1
  | writeCamEdge0 k v => exact decode_encode_register (.write v) (16 + k.toNat) (by omega) ((decodeRegister_camEdge0 k).2 v)
  | readCamEdge16 k => exact decode_encode_register .read (32 + k.toNat) (by omega) (decodeRegister_camEdge16 k).1
  | writeCamEdge16 k v => exact decode_encode_register (.write v) (32 + k.toNat) (by omega) ((decodeRegister_camEdge16 k).2 v)
  | readCamEdge20 k => exact decode_encode_register .read (36 + k.toNat) (by omega) (decodeRegister_camEdge20 k).1
  | writeCamEdge20 k v => exact decode_encode_register (.write v) (36 + k.toNat) (by omega) ((decodeRegister_camEdge20 k).2 v)
  | readCamEdge24 k => exact decode_encode_register .read (40 + k.toNat) (by omega) (decodeRegister_camEdge24 k).1
  | writeCamEdge24 k v => exact decode_encode_register (.write v) (40 + k.toNat) (by omega) ((decodeRegister_camEdge24 k).2 v)
  | unmapped20 acc k => exact decode_encode_register acc (8 + k.toNat) (by omega) (decodeRegister_unmapped20 acc k)
  | unmappedC0 acc k => exact decode_encode_register acc (48 + k.toNat) (by omega) (decodeRegister_unmappedC0 acc k)
  | misaligned acc size off => exact decode_misaligned acc hi
  | streamRd n => rfl
  | mainStep => rfl
  | tdcStep => rfl

theorem encode_decodeCommand (w : Word) : encode (decodeCommand w) = .cmd w ∧ (decodeCommand w).wellFormed = true := by
  cases hc : commandOf w with
  | none =>
    rw [decodeCommand_of_none hc]
    exact ⟨rfl, (commandOf_none_iff w).1 hc⟩
  | some op =>
    rw [decodeCommand_of_some hc, encode_instr, word_of_commandOf hc]
    exact ⟨rfl, instr_wellFormed _ _ _ _⟩

/-- Settles O2: format by format; a stream read is well formed exactly below index 7200. -/
theorem encodeOfDecodeIsTheTransaction : Obligations.EncodeOfDecodeIsTheTransaction := by
  intro w i h
  cases w with
  | cmd w =>
    cases h
    obtain ⟨henc, hwf⟩ := encode_decodeCommand w
    exact ⟨henc, .inl hwf⟩
  | reg acc size off =>
    by_cases hm : misalignedAccess size off = true
    · rw [decode_misaligned acc hm] at h
      cases h
      exact ⟨rfl, .inl hm⟩
    · obtain ⟨hoff, hdec⟩ := registerAt_of_aligned acc hm
      rw [hdec] at h
      cases h
      exact ⟨(encode_decodeRegister acc (by omega)).trans hoff, .inl (decodeRegister_wellFormed acc _)⟩
  | port n =>
    cases h
    exact ⟨rfl, (lt_or_ge n 7200).imp decide_eq_true fun hn => ⟨n, rfl, hn⟩⟩
  | engine p =>
    cases p with
    | idle => cases h
    | main => cases h; exact ⟨rfl, .inl rfl⟩
    | tdc => cases h; exact ⟨rfl, .inl rfl⟩

/-! ### Words that spell no command -/

/-- A word that spells no command decodes to the instruction that says so, and raises E_ILLEGAL_COMMAND as that instruction and as a write
to CMD (`30_encoding.md` R84, R85). -/
theorem spellsNoCommand_raises {w : Word} (h : spellsNoCommand w = true) (s : State) :
    decode (.cmd w) = .ok (.reservedOpc w) ∧ exec (.reservedOpc w) s = .next (s.recordError .illegalCommand) ∧
      exec (.writeCmd w) s = .next (s.recordError .illegalCommand) := by
  have hd := decodeCommand_of_none ((commandOf_none_iff w).2 h)
  refine ⟨congrArg Except.ok hd, rfl, ?_⟩
  rw [exec_writeCmd, hd]
  rfl

/-- Settles O5: each stray field is one of the checks of `spellsNoCommand`. -/
theorem wordsWithAStrayFieldRaiseIllegalCommand : Obligations.WordsWithAStrayFieldRaiseIllegalCommand := by
  intro w s h
  refine spellsNoCommand_raises ((spellsNoCommand_iff w).2 (.inr ?_)) s
  rcases h with hrsv | ⟨hlvl, hopc⟩ | ⟨hcyl, hopc⟩ | ⟨haddr, hopc⟩
  · exact .inl hrsv
  · refine .inr (.inr (.inr ⟨?_, hlvl⟩))
    simpa [usesLvl] using hopc
  · refine .inr (.inr (.inl ⟨?_, hcyl⟩))
    simpa [usesCyl] using hopc
  · refine .inr (.inl ⟨?_, haddr⟩)
    simp only [List.mem_cons, List.not_mem_nil] at hopc
    exact decide_eq_false (by omega)

/-- Settles O3: the five commands in both directions, and `GET_CAM` with LVL set, a field it does not use. -/
theorem workedCommandWords : Obligations.WorkedCommandWords := by
  refine ⟨rfl, rfl, rfl, rfl, rfl, rfl, rfl, rfl, rfl, rfl, rfl, fun s => ?_⟩
  obtain ⟨-, -, hwrite⟩ := spellsNoCommand_raises (w := 0x20010122#32) (by decide) s
  exact hwrite

/-- Settles O6: a reserved opcode spells no command. -/
theorem reservedOpcodesRaiseIllegalCommand : Obligations.ReservedOpcodesRaiseIllegalCommand :=
  fun w s h => spellsNoCommand_raises ((spellsNoCommand_iff w).2 (.inl h)) s

end Sys2Proof
end

section
/-! SUPPORT. The element commands of `40_bitfield.md`: the words they are encoded as, the errors of SET_TDC and GET_TDC in order (R110, R111),
what the accepted ones answer, and read after write (R129). -/

namespace Sys2Proof

open Machine

/-! ### The word of a command -/

/-- The word of an opcode matches the opcode's row (`30_encoding.md` R83). -/
theorem word_and_mask (op : Opcode) (addr : BitVec 13) (cyl : BitVec 3) (lvl : Level) :
    op.word addr cyl lvl &&& op.maskWord = op.matchWord :=
  (and_mask_iff op _).2 ((commandOf_iff _ op).1 (commandOf_word op addr cyl lvl))

theorem word_addr {op : Opcode} (h : usesAddr op.number = true) (addr : BitVec 13) (cyl : BitVec 3) (lvl : Level) :
    (op.word addr cyl lvl).extractLsb' 0 13 = addr :=
  (commandWord_addr _ _ _ _).trans (if_pos h)

theorem word_cyl {op : Opcode} (h : usesCyl op.number = true) (addr : BitVec 13) (cyl : BitVec 3) (lvl : Level) :
    (op.word addr cyl lvl).extractLsb' 13 3 = cyl :=
  (commandWord_cyl _ _ _ _).trans (if_pos h)

theorem word_lvl {op : Opcode} (h : usesLvl op.number = true) (addr : BitVec 13) (cyl : BitVec 3) (lvl : Level) :
    (op.word addr cyl lvl).getLsbD 16 = lvl.toBool :=
  (toBool_ofBool _).symm.trans (congrArg Level.toBool ((commandWord_lvl _ _ _ _).trans (if_pos h)))

end Sys2Proof

namespace Sys2Proof.Machine

/-! ### The checks of SET_TDC and GET_TDC, in order (R110, R111) -/

section
variable {s : State} {addr : BitVec 13} {cyl : BitVec 3} (k : Result)

theorem withCylinder_busy (h : s.busy = true) : withCylinder addr cyl s k = .next (s.recordError .busy) :=
  withElement_busy addr _ h

theorem withCylinder_out (h : s.busy = false) (ha : elementCount ≤ addr.toNat) :
    withCylinder addr cyl s k = .next (s.recordError .addressOutOfRange) :=
  withElement_out _ h ha

theorem withCylinder_index (h : s.busy = false) (ha : addr.toNat < elementCount) (hc : tdcBits ≤ cyl.toNat) :
    withCylinder addr cyl s k = .next (s.recordError .invalidCylinderIndex) :=
  (withElement_ok _ h ha).trans (if_pos hc)

theorem withCylinder_ok (h : s.busy = false) (ha : addr.toNat < elementCount) (hc : cyl.toNat < tdcBits) :
    withCylinder addr cyl s k = k :=
  (withElement_ok _ h ha).trans (if_neg (Nat.not_le_of_lt hc))

end

/-! ### What the accepted commands answer -/

section
variable {s : State} {i b : Nat}

/-- Every width has the bits 0 to 7 (`00_scope.md` R8). -/
theorem lt_width_of_lt_eight (s : State) (hb : b < 8) : b < s.params.width.bits := Nat.lt_of_lt_of_le hb (width_ge _)

/-- An accepted SET writes its one bit (R112, R116, R120). -/
theorem finish_memWriteBit (x : Level) (hi : i < elementCount) (hb : b < 8) :
    ∃ t, finish (s.memWriteBit i b x) = .next t ∧ s.OnlyBitWritten t i b x := by
  rw [memWriteBit_ok x hi (lt_width_of_lt_eight s hb)]
  exact ⟨_, rfl, onlyBitWritten_setElem s i x (by omega)⟩

/-- An accepted GET of a defined bit writes RESULT with 1 for High and 0 for Low (R114, R118, R122). -/
theorem getBit_defined {x : Level} (hi : i < elementCount) (hb : b < 8) (h : s.bit i b = some x) :
    getBit i b s = .next { s with result := if x = .high then 1#32 else 0#32 } := by
  rw [getBit_some hi (lt_width_of_lt_eight s hb) h, levelWord_eq]
  rfl

/-- An accepted GET of an undefined bit faults (`20_memory.md` R64). -/
theorem getBit_undefined (hi : i < elementCount) (hb : b < 8) (h : s.bit i b = none) :
    getBit i b s = .fault (.undefinedRead i b) :=
  getBit_none hi (lt_width_of_lt_eight s hb) h

theorem exec_rdWord_ok {addr : BitVec 13} {v : Word} (h : s.busy = false) (ha : addr.toNat < elementCount)
    (hr : s.memRead addr.toNat = .ok v) : exec (.rdWord addr) s = .next { s with result := v } := by
  refine (withElement_ok _ h ha).trans ?_
  rw [hr]
  rfl

theorem exec_rdWord_error {addr : BitVec 13} {f : Fault} (h : s.busy = false) (ha : addr.toNat < elementCount)
    (hr : s.memRead addr.toNat = .error f) : exec (.rdWord addr) s = .fault f := by
  refine (withElement_ok _ h ha).trans ?_
  rw [hr]

/-- What a bit reads as depends on the parameters and on that bit alone. -/
theorem memReadBit_congr {t : State} (hp : t.params = s.params) (hb : t.bit i b = s.bit i b) :
    t.memReadBit i b = s.memReadBit i b := by
  unfold State.memReadBit
  rw [hp, hb]

end

/-! ### The commands -/

/-- What SET_CAM and SET_CRK answer in every case (R110, R112, R116): the two errors in order, else the one bit written. -/
theorem setElementBit_answers (addr : BitVec 13) (x : Level) (s : State) {b : Nat} (hb : b < 8) :
    (s.busy = true → withElement addr s (finish (s.memWriteBit addr.toNat b x)) = .next (s.recordError .busy)) ∧
    (s.busy = false → elementCount ≤ addr.toNat →
      withElement addr s (finish (s.memWriteBit addr.toNat b x)) = .next (s.recordError .addressOutOfRange)) ∧
    (s.busy = false → addr.toNat < elementCount →
      ∃ t, withElement addr s (finish (s.memWriteBit addr.toNat b x)) = .next t ∧ s.OnlyBitWritten t addr.toNat b x) := by
  refine ⟨withElement_busy addr _, withElement_out _, fun h ha => ?_⟩
  obtain ⟨t, ht, hbit⟩ := finish_memWriteBit x ha hb
  exact ⟨t, (withElement_ok _ h ha).trans ht, hbit⟩

/-- What GET_CAM and GET_CRK answer in every case (R110, R114, R118): the two errors in order, else RESULT, or the fault. -/
theorem getElementBit_answers (addr : BitVec 13) (s : State) {b : Nat} (hb : b < 8) :
    (s.busy = true → withElement addr s (getBit addr.toNat b s) = .next (s.recordError .busy)) ∧
    (s.busy = false → elementCount ≤ addr.toNat →
      withElement addr s (getBit addr.toNat b s) = .next (s.recordError .addressOutOfRange)) ∧
    (s.busy = false → addr.toNat < elementCount → ∀ x, s.bit addr.toNat b = some x →
      withElement addr s (getBit addr.toNat b s) = .next { s with result := if x = .high then 1#32 else 0#32 }) ∧
    (s.busy = false → addr.toNat < elementCount → s.bit addr.toNat b = none →
      withElement addr s (getBit addr.toNat b s) = .fault (.undefinedRead addr.toNat b)) :=
  ⟨withElement_busy addr _, withElement_out _, fun h ha _ hx => (withElement_ok _ h ha).trans (getBit_defined ha hb hx),
    fun h ha hx => (withElement_ok _ h ha).trans (getBit_undefined ha hb hx)⟩

/-- Settles O19: SET_CAM is an element command that writes bit 0. -/
theorem setCamWritesBitZero : Obligations.SetCamWritesBitZero := fun addr lvl s =>
  ⟨⟨Opcode.setCam.word addr 0#3 lvl, rfl, word_and_mask .setCam _ _ _, word_addr rfl _ _ _, word_lvl rfl _ _ _⟩,
    setElementBit_answers addr lvl s (b := camBit) (by decide)⟩

/-- Settles O20: GET_CAM is an element command that reads bit 0. -/
theorem getCamReadsBitZero : Obligations.GetCamReadsBitZero := fun addr s =>
  ⟨⟨Opcode.getCam.word addr 0#3 .low, rfl, word_and_mask .getCam _ _ _, word_addr rfl _ _ _⟩,
    getElementBit_answers addr s (b := camBit) (by decide)⟩

/-- Settles O21: SET_CRK is an element command that writes bit 1. -/
theorem setCrkWritesBitOne : Obligations.SetCrkWritesBitOne := fun addr lvl s =>
  ⟨⟨Opcode.setCrk.word addr 0#3 lvl, rfl, word_and_mask .setCrk _ _ _, word_addr rfl _ _ _, word_lvl rfl _ _ _⟩,
    setElementBit_answers addr lvl s (b := crkBit) (by decide)⟩

/-- Settles O22: GET_CRK is an element command that reads bit 1. -/
theorem getCrkReadsBitOne : Obligations.GetCrkReadsBitOne := fun addr s =>
  ⟨⟨Opcode.getCrk.word addr 0#3 .low, rfl, word_and_mask .getCrk _ _ _, word_addr rfl _ _ _⟩,
    getElementBit_answers addr s (b := crkBit) (by decide)⟩

/-- Settles O23: SET_TDC is a cylinder command that writes bit 2 + CYL, which is below 8. -/
theorem setTdcWritesBitTwoPlusCylinder : Obligations.SetTdcWritesBitTwoPlusCylinder := by
  intro addr cyl lvl s
  refine ⟨⟨Opcode.setTdc.word addr cyl lvl, rfl, word_and_mask .setTdc _ _ _, word_addr rfl _ _ _, word_cyl rfl _ _ _,
    word_lvl rfl _ _ _⟩, withCylinder_busy _, withCylinder_out _, withCylinder_index _, fun h ha hc => ?_⟩
  obtain ⟨t, ht, hbit⟩ := finish_memWriteBit (s := s) lvl ha (tdcBit_lt hc)
  exact ⟨t, (withCylinder_ok _ h ha hc).trans ht, hbit⟩

/-- Settles O24: GET_TDC is a cylinder command that reads bit 2 + CYL, which is below 8. -/
theorem getTdcReadsBitTwoPlusCylinder : Obligations.GetTdcReadsBitTwoPlusCylinder := fun addr cyl _ =>
  ⟨⟨Opcode.getTdc.word addr cyl .low, rfl, word_and_mask .getTdc _ _ _, word_addr rfl _ _ _, word_cyl rfl _ _ _⟩,
    withCylinder_busy _, withCylinder_out _, withCylinder_index _,
    fun h ha hc _ hx => (withCylinder_ok _ h ha hc).trans (getBit_defined ha (tdcBit_lt hc) hx),
    fun h ha hc hx => (withCylinder_ok _ h ha hc).trans (getBit_undefined ha (tdcBit_lt hc) hx)⟩

/-- Settles O25: the read answers exactly where every bit of the element is defined, and else names an undefined one. -/
theorem rdWordReadsTheElement : Obligations.RdWordReadsTheElement := by
  intro addr s
  refine ⟨⟨Opcode.rdWord.word addr 0#3 .low, rfl, word_and_mask .rdWord _ _ _, word_addr rfl _ _ _⟩,
    withElement_busy addr _, withElement_out _, fun h ha hdef => ?_, fun h ha hundef => ?_⟩
  · obtain ⟨-, hread⟩ := (memRead_cases ha).resolve_right fun ⟨b, hb, hnone, _⟩ => hdef b hb hnone
    exact ⟨_, exec_rdWord_ok h ha hread, fun b hb => readValue_bit hb (hdef b hb), readValue_high s _⟩
  · obtain ⟨b, hb, hnone⟩ := hundef
    obtain ⟨c, hc, hcnone, hread⟩ := (memRead_cases ha).resolve_left fun ⟨hall, _⟩ => hall b hb hnone
    exact ⟨c, hc, hcnone, exec_rdWord_error h ha hread⟩

/-- Settles O26: WR_WORD puts the element of DATA in place, all of whose W bits are defined. -/
theorem wrWordWritesTheElement : Obligations.WrWordWritesTheElement := by
  intro addr s
  refine ⟨⟨Opcode.wrWord.word addr 0#3 .low, rfl, word_and_mask .wrWord _ _ _, word_addr rfl _ _ _⟩,
    withElement_busy addr _, withElement_out _,
    fun h ha => ⟨_, exec_wrWord_accepted h ha, rfl, fun b hb => ?_, fun j b hj => ?_⟩⟩ <;> rw [setElem_ofWord_bit]
  · rw [if_pos rfl, if_pos hb]
  · rw [if_neg hj]

/-- Settles O27: the write puts the element with the bit set in place, and only that bit reads differently. -/
theorem bitWriteThenReadReturnsTheLevel : Obligations.BitWriteThenReadReturnsTheLevel := by
  intro s i b x hi hb8
  have hb := lt_width_of_lt_eight s hb8
  obtain ⟨-, hwritten, hother⟩ := onlyBitWritten_setElem s i (b := b) x (by omega)
  have helem : (s.setElem i ((s.elem i).setBit b x)).elem i = (s.elem i).setBit b x := (setElem_elem _ _ _ _).trans (if_pos rfl)
  refine ⟨_, memWriteBit_ok x hi hb, memReadBit_some hi hb hwritten,
    fun c hc => memReadBit_congr rfl (hother i c fun hic => hc hic.2), fun hhigh => ?_, fun hlow => ?_⟩
  · rw [helem, hhigh]; rfl
  · rw [helem, hlow]; rfl

end Sys2Proof.Machine
end

section
/-! SUPPORT. The crank signal of `41_crank.md`: where the closed form holds the gap level, and that it is the same in both revolutions. -/

namespace Sys2Proof.Machine

/-- In a legal wheel the gap window has the last angle of a revolution and not the first. -/
theorem gapStart_bounds {s : State} (h : s.wheelLegal = true) : 0 < s.gapStart ∧ s.gapStart ≤ 3599 := by
  obtain ⟨hf, g, -, -, hstart, hrow⟩ := wheel_cases h
  rw [hstart]
  omega

/-- In a legal wheel the angle before one in the gap window is in the window too, or in the second half of the last tooth before it. -/
theorem gapWindow_pred {s : State} (h : s.wheelLegal = true) {b : Nat} (hgap : (b + 1) % 3600 ≥ s.gapStart) :
    b % 3600 ≥ s.gapStart ∨ b % 3600 / s.halfTooth % 2 = 1 := by
  obtain ⟨hf, g, hhalf, -, hstart, hrow⟩ := wheel_cases h
  rw [hstart] at hgap ⊢
  rw [hhalf]
  rcases hrow with ⟨rfl, rfl | rfl⟩ | ⟨rfl, rfl | rfl⟩ | ⟨rfl, rfl | rfl⟩ <;> omega

/-- The element after an angle of the gap window holds the gap level, also where a new revolution begins (`41_crank.md` R145). -/
theorem crankAt_after_gap {s : State} {b : Nat} (hgap : b % 3600 ≥ s.gapStart) : s.crankAt (b + 1) = s.gapLevel := by
  rw [crankAt_after]
  exact if_pos hgap

/-- The gap window holds the gap level: its first angle as the second half of a tooth, the others as set in the window
(`41_crank.md` R148). -/
theorem crankAt_gap {s : State} (h : s.wheelLegal = true) {a : Nat} (hgap : a % 3600 ≥ s.gapStart) : s.crankAt a = s.gapLevel := by
  cases a with
  | zero => exact absurd hgap (Nat.not_le_of_lt (gapStart_bounds h).1)
  | succ b =>
    rcases gapWindow_pred h hgap with hprev | hodd
    · exact crankAt_after_gap hprev
    · rw [crankAt_after, if_pos hodd, ite_self]
      rfl

/-- From its second element on, a revolution holds what the one before it holds (`41_crank.md` R145). -/
theorem crankAt_next_revolution (s : State) (b : Nat) : s.crankAt (3600 + b + 1) = s.crankAt (b + 1) := by
  have hmod : (3600 + b) % revolution = b % revolution := Nat.add_mod_left revolution b
  rw [crankAt_after, crankAt_after, hmod]

/-! ### The obligations of `41_crank.md` -/

/-- Settles O42: the recurrence of the closed form is the transition rule. -/
theorem crankClosedFormFollowsTheTransitions : Obligations.CrankClosedFormFollowsTheTransitions :=
  fun _ h => ⟨rfl, fun a _ => crankAt_succ h a⟩

/-- Settles O43: element 3600 follows the gap's last angle, the window and the second revolution by their lemmas, and a transition
outside the window toggles. -/
theorem crankRevolutionsAgreeButAtTheStart : Obligations.CrankRevolutionsAgreeButAtTheStart := by
  intro s h
  refine ⟨rfl, crankAt_after_gap (b := 3599) (gapStart_bounds h).2, fun r hr _ => ?_, fun a _ => crankAt_gap h,
    fun a _ h0 hm hout => ?_⟩
  · obtain ⟨b, rfl⟩ := Nat.exists_eq_add_of_le' hr
    exact crankAt_next_revolution s b
  · rw [crankAt_succ h, crankNext_transition s h0 hm]
    exact if_neg (Nat.not_le_of_lt hout)

end Sys2Proof.Machine
end

section
/-! SUPPORT. The cam signal of `42_cam.md`: what a used edge at an angle, or none there, makes of the closed form at the next angle. -/

namespace Sys2Proof.Machine

/-- After a used edge the closed form holds the opposite level (`42_cam.md` R163, R166). -/
theorem camAt_after_edge {s : State} (h : ∀ k, k < s.usedEdges → s.EdgeLegal k) {a : Nat} (ha : a < 7200)
    (hedge : ∃ k, k < s.usedEdges ∧ s.edge k = a) : s.camAt (a + 1) = (s.camAt a).not := by
  rw [camAt_succ h ha, if_pos ((edge_hit h a ha).1 hedge)]

/-- After an angle without a used edge the closed form holds the level it held (`42_cam.md` R163, R166). -/
theorem camAt_after_no_edge {s : State} (h : ∀ k, k < s.usedEdges → s.EdgeLegal k) {a : Nat} (ha : a < 7200)
    (hnone : ∀ k, k < s.usedEdges → s.edge k ≠ a) : s.camAt (a + 1) = s.camAt a := by
  have hmiss : s.edge (s.edgesBelow a) ≠ a := fun he => by
    obtain ⟨k, hk, hat⟩ := (edge_hit h a ha).2 he
    exact hnone k hk hat
  rw [camAt_succ h ha, if_neg hmiss]

/-! ### The obligation of `42_cam.md` -/

/-- Settles O44: no edge is below angle 0, and the used edges of a legal configuration rise, so at most the next one is at an angle. -/
theorem camClosedFormTogglesAfterEachEdge : Obligations.CamClosedFormTogglesAfterEachEdge := by
  intro s hlegal
  obtain ⟨-, -, hedges, -⟩ := hlegal
  exact ⟨camAt_zero s, fun a ha => ⟨camAt_after_edge hedges ha, camAt_after_no_edge hedges ha⟩⟩

end Sys2Proof.Machine
end

section
/-! SUPPORT. The TDC pass of `43_tdc.md`: where the markers stand, and what one step does. -/

namespace Sys2Proof.Machine

/-! ### The positions -/

/-- Two cylinders below n are less than a cycle apart, so their positions differ (`43_tdc.md` R181, R184). -/
theorem tdcPos_injective {s : State} (hn : s.cylCount ≤ 6) {j k : Nat} (hj : j < s.cylCount) (hk : k < s.cylCount)
    (h : s.tdcPos j = s.tdcPos k) : j = k := by
  have hpos : 0 < s.interval := Nat.div_pos (show s.cylCount ≤ 7200 by omega) (by omega)
  have offset_lt : ∀ {i : Nat}, i < s.cylCount → i * s.interval < elementCount := fun {i} hi =>
    calc i * s.interval < s.cylCount * s.interval := Nat.mul_lt_mul_of_pos_right hi hpos
      _ ≤ elementCount := Nat.mul_div_le elementCount s.cylCount
  have hmod : j * s.interval ≡ k * s.interval [MOD elementCount] := Nat.ModEq.add_left_cancel' s.refToTdc0 h
  exact Nat.eq_of_mul_eq_mul_right hpos (hmod.eq_of_lt_of_lt (offset_lt hj) (offset_lt hk))

/-- Settles O41: the position is a remainder by 7200, and no two cylinders share one. -/
theorem tdcPositionsAreDistinct : Obligations.TdcPositionsAreDistinct :=
  fun s _ hn => ⟨tdcPos_lt s, fun _ _ hj hk hne h => hne (tdcPos_injective hn hj hk h)⟩

/-! ### One step of the TDC pass -/

/-- Settles O40: the step's bit, its counter, and its two endings are those of `tdcNext`. -/
theorem tdcStepMarksOneCylinder : Obligations.TdcStepMarksOneCylinder := by
  intro s cyl ref k pos hp hk hn
  have hbit : ∀ j c, (tdcNext s).bit j c = if j = pos ∧ c = 2 + k then some .high else s.bit j c :=
    fun j c => tdcNext_bit s j c s.tdcK.isLt
  refine ⟨tdcNext s, execTdcStep_next hp hk hn, (hbit pos (2 + k)).trans (if_pos ⟨rfl, rfl⟩),
    fun j c hjc => (hbit j c).trans (if_neg hjc), tdcNext_tdcK_toNat hk hn, fun hlast => ?_, fun hmore => ?_, tdcNext_frame s⟩
  · rw [tdcNext_last hlast]
    exact ⟨rfl, rfl, rfl⟩
  · rw [tdcNext_more hmore]
    exact ⟨hp, rfl⟩

end Sys2Proof.Machine
end

section
/-! SUPPORT. A generation on an empty agenda (`44_generate.md` R206, log entry 7): each step is the ENGINE's and writes ENGINE state only, and
7200 + n of them end it (`43_tdc.md` R187). -/

namespace Sys2Proof.Machine

/-! ### The ENGINE's turn on an empty agenda -/

/-- On an empty agenda a step is the ENGINE's instruction of the phase (log entry 7). -/
theorem step_of_empty_agenda {s : State} {i : Instr} (ha : s.agenda = []) (hd : decode (.engine s.phase) = .ok i) :
    step s = exec i s := by
  have hn : nextTurn s = (.engine, s) := by unfold nextTurn; rw [ha]
  have hi : turnInstr .engine s = some i := by
    unfold turnInstr turnWire
    simp only [hd]
  unfold step takeTurn
  rw [hn]
  simp only [hi]

/-- What the ENGINE's steps write: PMEM, the ENGINE registers, PHASE and DONE. Every other field of `t` is that of `s`. -/
def State.OnlyEngineWrites (s t : State) : Prop :=
  t = { s with
    pmem := t.pmem
    camLvl := t.camLvl
    camIdx := t.camIdx
    crkLvl := t.crkLvl
    cursor := t.cursor
    tdcK := t.tdcK
    phase := t.phase
    done := t.done }

section
variable {s t u : State}

theorem onlyEngineWrites_refl (s : State) : s.OnlyEngineWrites s := rfl

theorem State.OnlyEngineWrites.trans (h : s.OnlyEngineWrites t) (h' : t.OnlyEngineWrites u) : s.OnlyEngineWrites u := by
  unfold State.OnlyEngineWrites at h h' ⊢
  exact h'.trans (by rw [h])

theorem State.OnlyEngineWrites.agenda_eq (h : s.OnlyEngineWrites t) : t.agenda = s.agenda := by rw [h]

end

/-! ### How far a generation is -/

/-- The number of ENGINE steps that a generation has taken: one for each element before CURSOR, and after the main pass one for each cylinder
before TDC_K. -/
def State.engineSteps (s : State) : Nat :=
  match s.phase with
  | .main => s.cursor.toNat
  | .tdc | .idle => elementCount + s.tdcK.toNat

section
variable {g s : State}

theorem engineSteps_main (hp : s.phase = .main) : s.engineSteps = s.cursor.toNat := by
  unfold State.engineSteps
  rw [hp]

theorem engineSteps_after_main (hp : s.phase ≠ .main) : s.engineSteps = elementCount + s.tdcK.toNat := by
  unfold State.engineSteps
  cases h : s.phase with
  | main => exact absurd h hp
  | tdc | idle => rfl

/-- A generation is in progress exactly until its 7200 + n steps are taken. -/
theorem generating_busy_iff (hg : g.Generating s) : s.busy = true ↔ s.engineSteps < 7200 + g.cylCount := by
  rw [busy_eq]
  cases hp : s.phase with
  | main =>
    obtain ⟨-, -, -, hcur, -⟩ := (generating_main_iff hp).1 hg
    rw [engineSteps_main hp]
    exact iff_of_true rfl (Nat.lt_add_right _ hcur)
  | tdc =>
    obtain ⟨-, -, -, -, -, hk, -⟩ := (generating_tdc_iff hp).1 hg
    rw [engineSteps_after_main (by rw [hp]; decide)]
    exact iff_of_true rfl (Nat.add_lt_add_left hk _)
  | idle =>
    obtain ⟨-, -, -, -, -, hk, -⟩ := (generating_idle_iff hp).1 hg
    rw [engineSteps_after_main (by rw [hp]; decide), hk]
    exact iff_of_false nofun (Nat.lt_irrefl _)

/-- A main step is one more step of the generation, also where the main pass ends. -/
theorem mainNext_engineSteps (hp : s.phase = .main) (hcur : s.cursor.toNat < 7200) (hk : s.tdcK = 0#3) :
    (mainNext s).engineSteps = s.engineSteps + 1 := by
  have hphase := mainNext_phase s hp
  rw [engineSteps_main hp]
  by_cases hlast : s.cursor.toNat = 7199
  · rw [if_pos hlast] at hphase
    have hk' : (mainNext s).tdcK = 0#3 := by rw [mainNext_frame]; exact hk
    rw [engineSteps_after_main (by rw [hphase]; decide), hk', hlast]
    rfl
  · rw [if_neg hlast] at hphase
    rw [engineSteps_main hphase, mainNext_cursor, if_neg hlast]
    exact BitVec.toNat_add_of_lt (show s.cursor.toNat + 1 < 8192 by omega)

/-- A TDC step is one more step of the generation, also where it ends. -/
theorem tdcNext_engineSteps (hp : s.phase = .tdc) (hk : s.tdcK.toNat < s.cylCount) (hn : s.cylCount ≤ 6) :
    (tdcNext s).engineSteps = s.engineSteps + 1 := by
  have hphase : (tdcNext s).phase ≠ .main := by
    rcases tdcNext_phase_done s with ⟨h, -⟩ | ⟨h, -⟩ <;> rw [h]
    · decide
    · rw [hp]; decide
  rw [engineSteps_after_main hphase, tdcNext_tdcK_toNat hk hn, engineSteps_after_main (by rw [hp]; decide)]
  rfl

theorem sameConfig_wheelLegal (h : s.SameConfig g) : s.wheelLegal = g.wheelLegal := by
  obtain ⟨-, hcrk, -⟩ := h
  unfold State.wheelLegal State.toothCount State.missingCount
  rw [hcrk]

/-! ### The run -/

/-- On an empty agenda a generation in progress takes one more ENGINE step. -/
theorem generating_step (hl : g.ConfigLegal) (hn : 1 ≤ g.cylCount ∧ g.cylCount ≤ 6) (hg : g.Generating s) (hb : s.busy = true)
    (ha : s.agenda = []) :
    ∃ t, step s = .next t ∧ g.Generating t ∧ t.engineSteps = s.engineSteps + 1 ∧ s.OnlyEngineWrites t := by
  cases hp : s.phase with
  | idle => exact absurd ((busy_false_iff s).2 hp) (by rw [hb]; decide)
  | main =>
    obtain ⟨hsame, -, -, hcur, hk, -⟩ := (generating_main_iff hp).1 hg
    have ⟨_, _, _, hwheel⟩ := hl
    have hexec := execMainStep_next hp ((sameConfig_wheelLegal hsame).trans hwheel) hcur
    exact ⟨mainNext s, (step_of_empty_agenda ha (by rw [hp]; rfl)).trans hexec, mainNext_generating hl hn.1 hp hg,
      mainNext_engineSteps hp hcur hk, exec_engine_frame (by decide) hexec⟩
  | tdc =>
    obtain ⟨hsame, -, -, -, -, hk, -⟩ := (generating_tdc_iff hp).1 hg
    rw [← sameConfig_cyl hsame] at hk hn
    have hexec := execTdcStep_next hp hk hn.2
    exact ⟨tdcNext s, (step_of_empty_agenda ha (by rw [hp]; rfl)).trans hexec, tdcNext_generating hn.2 hp hg,
      tdcNext_engineSteps hp hk hn.2, exec_engine_frame (by decide) hexec⟩

/-- On an empty agenda, `k` steps take a generation `k` ENGINE steps on, as long as it has them left. -/
theorem runFor_generating (hl : g.ConfigLegal) (hn : 1 ≤ g.cylCount ∧ g.cylCount ≤ 6) (hg : g.Generating s) (ha : s.agenda = [])
    {k : Nat} (hk : s.engineSteps + k ≤ 7200 + g.cylCount) :
    ∃ t, runFor k s = .next t ∧ g.Generating t ∧ t.engineSteps = s.engineSteps + k ∧ s.OnlyEngineWrites t := by
  induction k with
  | zero => exact ⟨s, rfl, hg, rfl, onlyEngineWrites_refl s⟩
  | succ k ih =>
    obtain ⟨t, hrun, hgt, hsteps, hframe⟩ := ih (by omega)
    have hbusy := (generating_busy_iff hgt).2 (by omega)
    obtain ⟨u, hstep, hgu, hnext, hframe'⟩ := generating_step hl hn hgt hbusy (hframe.agenda_eq.trans ha)
    exact ⟨u, (runFor_succ hrun).trans hstep, hgu, by omega, hframe.trans hframe'⟩

/-- An accepted GENERATE on an empty agenda: after `k` of the 7200 + n steps the state is one of the generation, in progress before the last
step and ended by it. -/
theorem runFor_generateAccept (hinv : g.Inv) (hv : g.cfgValid = true) (ha : g.agenda = []) {k : Nat} (hk : k ≤ 7200 + g.cylCount) :
    ∃ t, runFor k g.generateAccept = .next t ∧ g.Generating t ∧ (t.busy = true ↔ k < 7200 + g.cylCount) ∧
      g.generateAccept.OnlyEngineWrites t := by
  obtain ⟨hparams, -, -, hvalid, -⟩ := hinv
  have hl := hvalid hv
  have hzero : g.generateAccept.engineSteps + k = k := Nat.zero_add k
  obtain ⟨t, hrun, hgt, hsteps, hframe⟩ :=
    runFor_generating hl (cylCount_range hparams hl.1) (generateAccept_generating hv) ha (hzero.trans_le hk)
  refine ⟨t, hrun, hgt, ?_, hframe⟩
  rw [generating_busy_iff hgt, hsteps, hzero]

end

end Sys2Proof.Machine
end

section
/-! SUPPORT. The markers a generation leaves (`43_tdc.md` R189): their bits, and that they are n, counted cylinder by cylinder. -/

namespace Sys2Proof.Machine

/-! ### Counting the entries of a table -/

theorem countP_range_eq_sum (q : Nat → Bool) (n : Nat) :
    (List.range n).countP q = ∑ k ∈ Finset.range n, if q k = true then 1 else 0 := by
  have h := Nat.count_eq_card_filter_range (fun k => q k = true) n
  rw [Finset.card_filter] at h
  simpa [Nat.count] using h

/-- The entries of a table, listed by rows, can be counted by columns. -/
theorem countP_table {α : Type} (p : α → Bool) (f : Nat → Nat → α) (m n : Nat) :
    ((List.range m).flatMap fun a => (List.range n).map fun k => f a k).countP p =
      ∑ k ∈ Finset.range n, (List.range m).countP fun a => p (f a k) := by
  rw [List.countP_flatMap]
  calc ((List.range m).map (List.countP p ∘ fun a => (List.range n).map fun k => f a k)).sum
      = ∑ a ∈ Finset.range m, ((List.range n).map fun k => f a k).countP p := rfl
    _ = ∑ a ∈ Finset.range m, ∑ k ∈ Finset.range n, if p (f a k) = true then 1 else 0 :=
        Finset.sum_congr rfl fun a _ => by rw [List.countP_map, countP_range_eq_sum]; rfl
    _ = ∑ k ∈ Finset.range n, ∑ a ∈ Finset.range m, if p (f a k) = true then 1 else 0 := Finset.sum_comm
    _ = ∑ k ∈ Finset.range n, (List.range m).countP fun a => p (f a k) :=
        Finset.sum_congr rfl fun k _ => (countP_range_eq_sum _ m).symm

/-! ### The markers -/

/-- The TDC bits of `s` are the markers of `g`: High at the position of each cylinder below n, Low elsewhere. -/
def State.ShowsMarkers (s g : State) : Prop :=
  ∀ a k, a < 7200 → k < 6 → s.bit a (2 + k) = if k < g.cylCount ∧ a = g.tdcPos k then some .high else some .low

/-- A marker bit of the partial pattern is High at a position reached, and otherwise what it was in `g`. -/
theorem patternBit_marker (g : State) (c n a k : Nat) :
    g.patternBit c n a (2 + k) = if k < n ∧ a = g.tdcPos k then some .high else g.bit a (2 + k) := by
  have hcam : ¬(2 + k = camBit ∧ a < c) := fun h => absurd h.1 (by unfold camBit; omega)
  have hcrk : ¬(2 + k = crkBit ∧ a < c) := fun h => absurd h.1 (by unfold crkBit; omega)
  have hmark : 2 ≤ 2 + k ∧ k < n ∧ a = g.tdcPos k ↔ k < n ∧ a = g.tdcPos k := and_iff_right (Nat.le_add_right 2 k)
  unfold State.patternBit
  rw [if_neg hcam, if_neg hcrk, Nat.add_sub_cancel_left]
  exact if_congr hmark rfl rfl

section
variable {g s : State}

/-- Cylinder `k`'s bit is High in one element when `k` is below n, and in none otherwise. -/
theorem countP_markers_of_cylinder (h : s.ShowsMarkers g) {k : Nat} (hk : k < 6) :
    ((List.range 7200).countP fun a => s.bit a (2 + k) == some .high) = if k < g.cylCount then 1 else 0 := by
  by_cases hcyl : k < g.cylCount
  · rw [if_pos hcyl, ← List.count_eq_one_of_mem List.nodup_range (List.mem_range.2 (tdcPos_lt g k))]
    refine List.countP_congr fun a ha => ?_
    rw [h a k (List.mem_range.1 ha) hk]
    by_cases hpos : a = g.tdcPos k <;> simp [hcyl, hpos]
  · rw [if_neg hcyl, List.countP_eq_zero]
    intro a ha
    rw [h a k (List.mem_range.1 ha) hk, if_neg fun hc => hcyl hc.1]
    decide

/-- The markers are n High bits: one in the column of each of the n cylinders. -/
theorem countP_markers (hn : g.cylCount ≤ 6) (h : s.ShowsMarkers g) :
    (((List.range 7200).flatMap fun a => (List.range 6).map fun k => s.bit a (2 + k)).countP (· == some .high)) = g.cylCount := by
  have hbelow : (Finset.range 6).filter (· < g.cylCount) = Finset.range g.cylCount := by
    ext k
    simp only [Finset.mem_filter, Finset.mem_range]
    omega
  rw [countP_table]
  calc (∑ k ∈ Finset.range 6, (List.range 7200).countP fun a => s.bit a (2 + k) == some .high)
      = ∑ k ∈ Finset.range 6, if k < g.cylCount then 1 else 0 :=
        Finset.sum_congr rfl fun k hk => countP_markers_of_cylinder h (Finset.mem_range.1 hk)
    _ = g.cylCount := by
        rw [Finset.sum_boole, Nat.cast_id, hbelow, Finset.card_range]

/-- A generation on Low TDC bits ends with its markers alone. -/
theorem generating_showsMarkers (hlow : ∀ a k, a < 7200 → k < 6 → g.bit a (2 + k) = some .low) (hg : g.Generating s)
    (hp : s.phase = .idle) : s.ShowsMarkers g := by
  intro a k ha hk
  obtain ⟨-, -, -, -, -, -, hshow⟩ := (generating_idle_iff hp).1 hg
  rw [hshow a (2 + k) ha (lt_width_of_lt_eight s (by omega)), patternBit_marker, hlow a k ha hk]

/-- Settles O46: the pattern of an ended generation shows the markers, and they are n; the run on an empty agenda ends one. -/
theorem generationLeavesExactlyNMarkers : Obligations.GenerationLeavesExactlyNMarkers := by
  intro g hinv hv hlow
  have ⟨hparams, _, _, hlegal, _⟩ := hinv
  obtain ⟨-, hn⟩ := cylCount_range hparams (hlegal hv).1
  have hmarkers : ∀ s, g.Generating s → s.phase = .idle → s.ShowsMarkers g := fun s => generating_showsMarkers hlow
  refine ⟨fun s hg hp => ⟨hmarkers s hg hp, countP_markers hn (hmarkers s hg hp)⟩, fun hp ha => ?_⟩
  obtain ⟨t, hrun, hgt, hbusy, -⟩ := runFor_generateAccept hinv hv ha (Nat.le_refl _)
  have hidle : t.phase = .idle := (busy_false_iff t).1 (Bool.eq_false_iff.2 fun h => Nat.lt_irrefl _ (hbusy.1 h))
  obtain ⟨-, -, hdone, -⟩ := (generating_idle_iff hidle).1 hgt
  exact ⟨_, t, exec_generate_accepted ((busy_false_iff g).2 hp) hv, hrun, hdone, hidle, hmarkers t hgt hidle,
    countP_markers hn (hmarkers t hgt hidle)⟩

end

end Sys2Proof.Machine
end

section
/-! SUPPORT. Who moves when no transaction is due, and who is kept out while the ENGINE works (`44_generate.md` R206): a turn with no step in
the block passes (log entries 3 and 8), and BUSY = 1 freezes what the ENGINE uses. -/

namespace Sys2Proof.Machine

/-- A turn whose agent has no step in the block passes (log entry 8). -/
theorem step_of_no_instr {s u : State} {t : Turn} (hn : nextTurn s = (t, u)) (hr : t ≠ .reset) (hi : turnInstr t u = none) :
    step s = .next u := by
  unfold step takeTurn
  rw [hn]
  cases t with
  | reset => exact absurd rfl hr
  | _ => simp only [hi]

/-- In PHASE = IDLE the ENGINE has no step (`60_exceptions.md` R279). -/
theorem turnInstr_engine_idle {s : State} (hp : s.phase = .idle) : turnInstr .engine s = none := by
  unfold turnInstr turnWire
  rw [hp]
  rfl

/-- A bus address outside the window is no access to the block (`20_memory.md` R71). -/
theorem turnInstr_bus_outside {s : State} (acc : Access) (size : Size) {addr : Nat}
    (h : addr < s.params.base ∨ s.params.base + 256 ≤ addr) : turnInstr (.bus acc size addr) s = none := by
  have hout : ¬inWindow s.params.base addr = true := by
    simp only [inWindow, windowBytes, decide_eq_true_eq]
    omega
  have hwire : turnWire (.bus acc size addr) s = none := if_neg hout
  unfold turnInstr
  rw [hwire]

/-- Settles O8: the ENGINE's instruction on an empty agenda, and the turns with no step in the block. -/
theorem stepsWithNoTransaction : Obligations.StepsWithNoTransaction := by
  intro s rest
  refine ⟨fun ha hp => step_of_empty_agenda ha (by rw [hp]; rfl), fun ha hp => step_of_empty_agenda ha (by rw [hp]; rfl),
    fun ha hp => ?_, fun ha hp => ?_, fun acc size addr ha hout => ?_⟩
  · have hn : nextTurn s = (.engine, s) := by unfold nextTurn; rw [ha]
    exact step_of_no_instr hn nofun (turnInstr_engine_idle hp)
  · exact step_of_no_instr (nextTurn_cons ha) nofun (turnInstr_engine_idle (s := { s with agenda := rest }) hp)
  · exact step_of_no_instr (nextTurn_cons ha) nofun (turnInstr_bus_outside (s := { s with agenda := rest }) acc size hout)

/-- Settles O55: of HOST's and STREAM's effects, those beyond the error record, DATA and the outputs need IDLE. -/
theorem busyFreezesWhatTheEngineUses : Obligations.BusyFreezesWhatTheEngineUses :=
  fun _ _ _ hb hi h => (exec_host_step hi h).busy_frame hb

end Sys2Proof.Machine
end

section
/-! SUPPORT. GENERATE and MAIN_STEP (`44_generate.md` R200 to R205): the one word that spells a command without operands, and a main step by
the registers it writes. -/

namespace Sys2Proof

/-- A command that uses no field has one word; any other word of its opcode spells no command (`30_encoding.md` R84). -/
theorem commandOf_none_of_ne_matchWord {w : Word} {op : Opcode} (hmask : op.maskWord = 0xFFFFFFFF#32)
    (ho : w.extractLsb' 28 4 = op.number) (hne : w ≠ op.matchWord) : commandOf w = none := by
  have hall : w &&& op.maskWord = w := hmask ▸ BitVec.and_allOnes
  rw [commandOf_of_opcode ((opcodeOfNumber_iff _ op).2 ho), hall, if_neg hne]

end Sys2Proof

namespace Sys2Proof.Machine

/-- GENERATE while a generation is in progress (`44_generate.md` R200). -/
theorem exec_generate_busy {s : State} (hb : s.busy = true) : exec .generate s = .next (s.recordError .busy) := whenIdle_busy _ hb

/-- GENERATE on a configuration that is not validated (`44_generate.md` R200). -/
theorem exec_generate_not_validated {s : State} (hb : s.busy = false) (hv : s.cfgValid = false) :
    exec .generate s = .next (s.recordError .configNotValidated) := by
  refine (whenIdle_idle _ hb).trans ?_
  rw [hv]
  rfl

/-- Settles O38: the word by R84's checks, then the three answers of GENERATE. -/
theorem generateStartsTheMainPass : Obligations.GenerateStartsTheMainPass := by
  refine ⟨rfl, fun w s ho hne => ?_, fun s => ⟨exec_generate_busy, exec_generate_not_validated, exec_generate_accepted⟩⟩
  have hnone := commandOf_none_of_ne_matchWord (op := .generate) rfl ho hne
  obtain ⟨-, -, hwrite⟩ := spellsNoCommand_raises ((commandOf_none_iff w).1 hnone) s
  exact hwrite

section
variable {s : State}

/-- The gap level spelled from GAP_INV (`10_state.md` R48). -/
theorem gapLevel_eq (s : State) : s.gapLevel = if s.crkCfg.getLsbD 16 = true then .high else .low := by
  unfold State.gapLevel State.crkFirst State.gapInv
  cases s.crkCfg.getLsbD 16 <;> rfl

/-- What a main step writes in PMEM: bits 0 and 1 of the element at CURSOR (`44_generate.md` R202). -/
theorem mainNext_bits (s : State) :
    (mainNext s).bit s.cursor.toNat 0 = some s.camLvl ∧ (mainNext s).bit s.cursor.toNat 1 = some s.crkLvl ∧
      ∀ j c, ¬(j = s.cursor.toNat ∧ c ≤ 1) → (mainNext s).bit j c = s.bit j c := by
  refine ⟨?_, ?_, fun j c hjc => ?_⟩ <;> rw [mainNext_bit]
  · rw [if_neg (by omega), if_pos ⟨rfl, rfl⟩]
  · rw [if_pos ⟨rfl, rfl⟩]
  · rw [if_neg (by omega), if_neg (by omega)]

/-- At an edge the cam tracker toggles and takes the next slot (`42_cam.md` R161). -/
theorem mainNext_cam_edge (h : s.camIdx.toNat < 20 ∧ s.edge s.camIdx.toNat = s.cursor.toNat) :
    (mainNext s).camLvl = s.camLvl.not ∧ (mainNext s).camIdx.toNat = s.camIdx.toNat + 1 := by
  rw [mainNext_camLvl, mainNext_camIdx, if_pos h, if_pos h]
  exact ⟨rfl, BitVec.toNat_add_of_lt (show s.camIdx.toNat + 1 < 32 by omega)⟩

/-- Where no edge is due the cam tracker stays (`42_cam.md` R161). -/
theorem mainNext_cam_no_edge (h : ¬(s.camIdx.toNat < 20 ∧ s.edge s.camIdx.toNat = s.cursor.toNat)) :
    (mainNext s).camLvl = s.camLvl ∧ (mainNext s).camIdx = s.camIdx := by
  rw [mainNext_camLvl, mainNext_camIdx, if_neg h, if_neg h]
  exact ⟨rfl, rfl⟩

/-- After angle 7199 the TDC pass begins with CURSOR left where it is (`44_generate.md` R205). -/
theorem mainNext_at_end (hp : s.phase = .main) (h : s.cursor.toNat = 7199) :
    (mainNext s).phase = .tdc ∧ (mainNext s).cursor = s.cursor ∧ (mainNext s).busy = true := by
  have hphase : (mainNext s).phase = .tdc := (mainNext_phase s hp).trans (if_pos h)
  refine ⟨hphase, (mainNext_cursor s).trans (if_pos h), ?_⟩
  rw [busy_eq, hphase]
  rfl

/-- Before angle 7199 the main pass goes on at the next angle (`44_generate.md` R202). -/
theorem mainNext_before_end (hp : s.phase = .main) (h : s.cursor.toNat ≠ 7199) (ha : s.cursor.toNat < 7200) :
    (mainNext s).phase = .main ∧ (mainNext s).cursor.toNat = s.cursor.toNat + 1 := by
  rw [mainNext_phase s hp, mainNext_cursor, if_neg h, if_neg h]
  exact ⟨rfl, BitVec.toNat_add_of_lt (show s.cursor.toNat + 1 < 8192 by omega)⟩

end

/-- Settles O39: the step is `mainNext`, register by register. -/
theorem mainStepWritesThenAdvances : Obligations.MainStepWritesThenAdvances := by
  intro s teeth missing halfTooth gapSpan gapLevel edge a hp hteeth hmissing ha
  obtain ⟨hcam, hcrk, hother⟩ := mainNext_bits s
  have hlvl : (mainNext s).crkLvl = crankNext a halfTooth gapSpan s.crkFirst s.crkLvl := mainNext_crkLvl s
  refine ⟨mainNext s, execMainStep_next hp ((wheelLegal_iff s).2 ⟨hteeth, hmissing⟩) ha, hcam, hcrk, hother, mainNext_cam_edge,
    mainNext_cam_no_edge, fun hmove => ?_, fun hstay => hlvl.trans (crankNext_stay s hstay s.crkLvl), mainNext_at_end hp,
    fun h => mainNext_before_end hp h ha, mainNext_frame s⟩
  rw [hlvl, show gapLevel = s.crkFirst.not from (gapLevel_eq s).symm]
  exact crankNext_transition s hmove.1 hmove.2 s.crkLvl

end Sys2Proof.Machine
end

section
/-! SUPPORT. What an ended generation leaves in PMEM (`44_generate.md` R208, R210): the pattern bit by bit, that it is a matter of the
configuration and of the old bits 2 and up alone, that it is its own pattern, and the whole run on an empty agenda. -/

namespace Sys2Proof.Machine

/-! ### The pattern, bit by bit -/

section
variable {g g' s : State} {c k a b : Nat}

theorem patternBit_cam (g : State) (k : Nat) (ha : a < c) : g.patternBit c k a 0 = some (g.camAt a) := if_pos ⟨rfl, ha⟩

theorem patternBit_crk (g : State) (k : Nat) (ha : a < c) : g.patternBit c k a 1 = some (g.crankAt a) :=
  (if_neg fun h => absurd h.1 (by decide)).trans (if_pos ⟨rfl, ha⟩)

/-- No marker stands above the TDC bits (`44_generate.md` R208). -/
theorem patternBit_above_tdc (g : State) (c a : Nat) (hk : k ≤ 6) (hb : 8 ≤ b) : g.patternBit c k a b = g.bit a b := by
  obtain ⟨j, rfl⟩ := Nat.exists_eq_add_of_le (show 2 ≤ b by omega)
  rw [patternBit_marker, if_neg (by omega)]

/-! ### Equal configurations have equal patterns -/

/-- A state with `g`'s configuration is itself with `g`'s configuration put in. -/
theorem sameConfig_frame (h : s.SameConfig g) :
    s = { s with params := g.params, crkCfg := g.crkCfg, camCfg := g.camCfg, tdcCfg := g.tdcCfg, camEdge := g.camEdge } := by
  obtain ⟨hparams, hcrk, hcam, htdc, hedge⟩ := h
  rw [← hparams, ← hcrk, ← hcam, ← htdc, ← hedge]

theorem sameConfig_camAt (h : s.SameConfig g) (a : Nat) : s.camAt a = g.camAt a := by rw [sameConfig_frame h]; rfl

theorem sameConfig_crankAt (h : s.SameConfig g) (a : Nat) : s.crankAt a = g.crankAt a := by rw [sameConfig_frame h]; rfl

theorem sameConfig_reservedZero (h : s.SameConfig g) (hz : g.ReservedZero) : s.ReservedZero := by rw [sameConfig_frame h]; exact hz

theorem sameConfig_configLegal (h : s.SameConfig g) (hl : g.ConfigLegal) : s.ConfigLegal := by rw [sameConfig_frame h]; exact hl

/-- In a generated element the pattern depends on the configuration and on the old bits from 2 up (`44_generate.md` R210). -/
theorem patternBit_congr (h : g'.SameConfig g) (k : Nat) (ha : a < c) (hold : 2 ≤ b → g'.bit a b = g.bit a b) :
    g'.patternBit c k a b = g.patternBit c k a b := by
  match b with
  | 0 => rw [patternBit_cam g' k ha, patternBit_cam g k ha, sameConfig_camAt h]
  | 1 => rw [patternBit_crk g' k ha, patternBit_crk g k ha, sameConfig_crankAt h]
  | j + 2 =>
    rw [Nat.add_comm j 2] at hold ⊢
    rw [patternBit_marker, patternBit_marker, sameConfig_tdcPos h, hold (Nat.le_add_right 2 j)]

/-- The pattern over bits that already show it is those bits (`44_generate.md` R210). -/
theorem patternBit_idem (h : s.SameConfig g) (ha : a < c) (hshow : s.bit a b = g.patternBit c k a b) :
    s.patternBit c k a b = s.bit a b := by
  match b with
  | 0 => rw [hshow, patternBit_cam s k ha, patternBit_cam g k ha, sameConfig_camAt h]
  | 1 => rw [hshow, patternBit_crk s k ha, patternBit_crk g k ha, sameConfig_crankAt h]
  | j + 2 =>
    rw [Nat.add_comm j 2] at hshow ⊢
    rw [patternBit_marker, sameConfig_tdcPos h]
    by_cases hmark : j < k ∧ a = g.tdcPos j
    · rw [hshow, patternBit_marker, if_pos hmark, if_pos hmark]
    · rw [if_neg hmark]

end

/-! ### Every step keeps PMEM canonical -/

/-- PMEM is in its canonical form, the part of the invariant that makes equal contents equal lists. -/
abbrev State.Canonical (s : State) : Prop := Memory.wf s.params.width s.pmem = true

section
variable {s t : State} {i : Instr}

theorem HostStep.canonical (h : HostStep s i t) (hm : s.Canonical) : t.Canonical := by
  cases h with
  | setBit a b x idle ha hb => exact setElem_setBit_wf hm x ha hb
  | wrWord addr idle ha => exact put_wf ha (.inr (ofWord_wf _ _)) hm
  | _ => exact hm

theorem mainNext_canonical (hm : s.Canonical) (hc : s.cursor.toNat < elementCount) : (mainNext s).Canonical := by
  have hpmem : (mainNext s).pmem = (signalsWritten s s.cursor.toNat).pmem := by simp [mainNext]
  have hparams : (mainNext s).params = s.params := (congrArg State.params (mainNext_frame s) :)
  unfold State.Canonical
  rw [hpmem, hparams]
  exact signalsWritten_wf hm hc

theorem tdcNext_canonical (hm : s.Canonical) (hk : s.tdcK.toNat < 6) : (tdcNext s).Canonical := by
  unfold State.Canonical tdcNext
  rw [advanceTdc_params, advanceTdc_pmem]
  exact setElem_setBit_wf hm .high (tdcPos_lt s _) (by omega)

theorem exec_canonical (h : exec i s = .next t) (hm : s.Canonical) : t.Canonical := by
  by_cases hi : notEngine i = true
  · exact (exec_host_step hi h).canonical hm
  · rcases engine_of_not_host hi with rfl | rfl
    · obtain ⟨-, -, hc, rfl⟩ := execMainStep_inv h
      exact mainNext_canonical hm hc
    · obtain ⟨-, hk, hn, rfl⟩ := execTdcStep_inv h
      exact tdcNext_canonical hm (Nat.lt_of_lt_of_le hk hn)

theorem step_canonical (h : step s = .next t) (hm : s.Canonical) : t.Canonical := by
  obtain ⟨u, rest, rfl, ⟨-, -, hs⟩ | ⟨-, hs⟩ | ⟨i, -, -, hs⟩⟩ := step_cases s <;> rw [hs] at h
  · cases h; rfl
  · cases h; exact hm
  · exact exec_canonical (s := { s with agenda := rest }) h hm

end

/-- A run of `k + 1` steps is a step and a run of `k` steps. -/
theorem runFor_succ_inv {k : Nat} {s t : State} (h : runFor (k + 1) s = .next t) : ∃ u, step s = .next u ∧ runFor k u = .next t := by
  unfold runFor at h
  cases hs : step s with
  | next u => rw [hs] at h; exact ⟨u, rfl, h⟩
  | fault f => rw [hs] at h; cases h
  | refused r => rw [hs] at h; cases h

theorem runFor_canonical {k : Nat} {s t : State} (h : runFor k s = .next t) (hm : s.Canonical) : t.Canonical := by
  induction k generalizing s with
  | zero => cases h; exact hm
  | succ k ih =>
    obtain ⟨u, hs, hrun⟩ := runFor_succ_inv h
    exact ih hrun (step_canonical hs hm)

/-! ### What ended generations leave, under every schedule -/

section
variable {g g' s s' : State}

theorem generating_sameConfig (hg : g.Generating s) : s.SameConfig g := hg.1

/-- While a generation is in progress DONE is 0 (`10_state.md` R53). -/
theorem generating_done (hg : g.Generating s) (hb : s.busy = true) : s.done = false := by
  cases hp : s.phase with
  | idle => exact absurd ((busy_false_iff s).2 hp) (by rw [hb]; decide)
  | main => obtain ⟨-, -, hdone, -⟩ := (generating_main_iff hp).1 hg; exact hdone
  | tdc => obtain ⟨-, -, hdone, -⟩ := (generating_tdc_iff hp).1 hg; exact hdone

/-- An ended generation shows the whole pattern (`44_generate.md` R208). -/
theorem generating_ended_shows (hg : g.Generating s) (hp : s.phase = .idle) : s.ShowsPattern g elementCount g.cylCount := by
  obtain ⟨-, -, -, -, -, -, hshow⟩ := (generating_idle_iff hp).1 hg
  exact hshow

/-- The state that ends a generation has the invariant: the configuration is the one validated before. -/
theorem generating_ended_inv (hinv : g.Inv) (hv : g.cfgValid = true) (hg : g.Generating s) (hp : s.phase = .idle) (hm : s.Canonical) :
    s.Inv := by
  obtain ⟨hparams, -, hzero, hlegal, -⟩ := hinv
  have hsame := generating_sameConfig hg
  have ⟨hsp, _⟩ := hsame
  have hidle : s.busy = false := (busy_false_iff s).2 hp
  refine ⟨hsp ▸ hparams, hm, sameConfig_reservedZero hsame hzero, fun _ => sameConfig_configLegal hsame (hlegal hv), ?_, ?_, ?_⟩
  · rw [hidle]; nofun
  · rw [hp]; nofun
  · rw [hp]; nofun

/-- Generations of one configuration from PMEMs that agree from bit 2 up end with equal PMEMs (`44_generate.md` R210). -/
theorem generating_ended_pmem_eq (hm : s.Canonical) (hm' : s'.Canonical) (hsame : g'.SameConfig g)
    (hold : ∀ a b, a < 7200 → 2 ≤ b → b < g.params.width.bits → g'.bit a b = g.bit a b) (hg : g.Generating s) (hp : s.phase = .idle)
    (hg' : g'.Generating s') (hp' : s'.phase = .idle) : s'.pmem = s.pmem := by
  have ⟨hsp, _⟩ := generating_sameConfig hg
  have ⟨hsp', _⟩ := generating_sameConfig hg'
  have ⟨hgp, _⟩ := hsame
  have hparams : s'.params = s.params := hsp'.trans (hgp.trans hsp.symm)
  refine pmem_ext hparams hm' hm fun a b ha hb => ?_
  have hb' : b < s.params.width.bits := hparams ▸ hb
  calc s'.bit a b = g'.patternBit elementCount g'.cylCount a b := generating_ended_shows hg' hp' a b ha hb
    _ = g.patternBit elementCount g.cylCount a b := by
      rw [sameConfig_cyl hsame, patternBit_congr hsame _ ha fun h2 => hold a b ha h2 (hsp ▸ hb')]
    _ = s.bit a b := (generating_ended_shows hg hp a b ha hb').symm

/-- A generation started where one of the same configuration ended ends with that PMEM (`44_generate.md` R210). -/
theorem generating_again_pmem_eq (hm : s.Canonical) (hm' : s'.Canonical) (hg : g.Generating s) (hp : s.phase = .idle)
    (hg' : s.Generating s') (hp' : s'.phase = .idle) : s'.pmem = s.pmem := by
  have hsame := generating_sameConfig hg
  have ⟨hparams, _⟩ := generating_sameConfig hg'
  refine pmem_ext hparams hm' hm fun a b ha hb => ?_
  have hshow := generating_ended_shows hg hp a b ha (hparams ▸ hb)
  rw [← sameConfig_cyl hsame] at hshow
  exact (generating_ended_shows hg' hp' a b ha hb).trans (patternBit_idem hsame ha hshow)

end

/-! ### The whole run on an empty agenda -/

/-- From an accepted GENERATE on an empty agenda, 7200 + n steps end the generation, in a state with the invariant. -/
theorem generation_ends {g : State} (hinv : g.Inv) (hp : g.phase = .idle) (hv : g.cfgValid = true) (ha : g.agenda = []) :
    ∃ t, exec .generate g = .next g.generateAccept ∧ runFor (7200 + g.cylCount) g.generateAccept = .next t ∧ g.Generating t ∧
      t.phase = .idle ∧ t.Inv ∧ g.generateAccept.OnlyEngineWrites t := by
  have ⟨_, hm, _⟩ := hinv
  obtain ⟨t, hrun, hgt, hbusy, hframe⟩ := runFor_generateAccept hinv hv ha (Nat.le_refl _)
  have hidle : t.phase = .idle := (busy_false_iff t).1 (Bool.eq_false_iff.2 fun h => Nat.lt_irrefl _ (hbusy.1 h))
  exact ⟨t, exec_generate_accepted ((busy_false_iff g).2 hp) hv, hrun, hgt, hidle,
    generating_ended_inv hinv hv hgt hidle (runFor_canonical (s := g.generateAccept) hrun hm), hframe⟩

/-- Before the last step of that run BUSY is 1 and DONE is 0. -/
theorem generation_in_progress {g : State} (hinv : g.Inv) (hv : g.cfgValid = true) (ha : g.agenda = []) {k : Nat}
    (hk : k < 7200 + g.cylCount) : ∃ u, runFor k g.generateAccept = .next u ∧ u.busy = true ∧ u.done = false := by
  obtain ⟨u, hrun, hgu, hbusy, -⟩ := runFor_generateAccept hinv hv ha (Nat.le_of_lt hk)
  exact ⟨u, hrun, hbusy.2 hk, generating_done hgu (hbusy.2 hk)⟩

/-- The pattern that an ended generation shows, in the words of `44_generate.md` R208. -/
theorem generating_ended_bits {g t : State} (hn : g.cylCount ≤ 6) (hg : g.Generating t) (hp : t.phase = .idle) {a : Nat} (ha : a < 7200) :
    t.bit a 0 = some (g.camAt a) ∧ t.bit a 1 = some (g.crankAt a) ∧
      (∀ k, k < 6 → t.bit a (2 + k) = if k < g.cylCount ∧ a = g.tdcPos k then some .high else g.bit a (2 + k)) ∧
      ∀ b, 8 ≤ b → b < g.params.width.bits → t.bit a b = g.bit a b := by
  have hshow := generating_ended_shows hg hp
  have ⟨hparams, _⟩ := generating_sameConfig hg
  exact ⟨(hshow a 0 ha (lt_width_of_lt_eight t (by decide))).trans (patternBit_cam g _ ha),
    (hshow a 1 ha (lt_width_of_lt_eight t (by decide))).trans (patternBit_crk g _ ha),
    fun k hk => (hshow a (2 + k) ha (lt_width_of_lt_eight t (by omega))).trans (patternBit_marker g _ _ a k),
    fun b hb hw => (hshow a b ha (hparams ▸ hw)).trans (patternBit_above_tdc g _ a hn hb)⟩

/-- Settles O45: the run ends the generation, whose pattern is R208's, and the ENGINE writes nothing else. -/
theorem generationWritesThePattern : Obligations.GenerationWritesThePattern := by
  intro s hinv hp hv ha
  have ⟨hparams, _, _, hlegal, _⟩ := hinv
  obtain ⟨-, hn⟩ := cylCount_range hparams (hlegal hv).1
  obtain ⟨t, hexec, hrun, hgt, hidle, -, hframe⟩ := generation_ends hinv hp hv ha
  obtain ⟨-, -, hdone, -, hidx, -⟩ := (generating_idle_iff hidle).1 hgt
  refine ⟨_, t, hexec, hrun, fun k hk => generation_in_progress hinv hv ha hk, hidle, hdone, hidx,
    fun a ha => generating_ended_bits hn hgt hidle ha, Eq.trans hframe ?_⟩
  rw [hidle, hdone, ← hp]
  rfl

/-- Settles O47: the two laws of ended generations, and the runs on an empty agenda that end one each. -/
theorem generationIsIdempotent : Obligations.GenerationIsIdempotent := by
  refine ⟨fun g g' s s' _ _ ⟨_, hm, _⟩ ⟨_, hm', _⟩ hsame hold hg hp hg' hp' =>
      generating_ended_pmem_eq hm hm' hsame hold hg hp hg' hp',
    fun g s s' _ _ ⟨_, hm, _⟩ ⟨_, hm', _⟩ hg hp hg' hp' => generating_again_pmem_eq hm hm' hg hp hg' hp',
    fun s s' hinv hinv' hp hp' hv hv' ha ha' hsame hold => ?_, fun s hinv hp hv ha => ?_⟩
  · obtain ⟨t, hexec, hrun, hgt, hidle, ⟨_, hm, _⟩, -⟩ := generation_ends hinv hp hv ha
    obtain ⟨t', hexec', hrun', hgt', hidle', ⟨_, hm', _⟩, -⟩ := generation_ends hinv' hp' hv' ha'
    obtain ⟨-, -, hdone, -⟩ := (generating_idle_iff hidle).1 hgt
    obtain ⟨-, -, hdone', -⟩ := (generating_idle_iff hidle').1 hgt'
    rw [sameConfig_cyl hsame] at hrun'
    exact ⟨_, t, _, t', hexec, hrun, hexec', hrun', hdone, hdone', generating_ended_pmem_eq hm hm' hsame hold hgt hidle hgt' hidle'⟩
  · obtain ⟨t, hexec, hrun, hgt, hidle, hinvt, hframe⟩ := generation_ends hinv hp hv ha
    obtain ⟨hsame, hvt, -⟩ := (generating_idle_iff hidle).1 hgt
    obtain ⟨t', hexec', hrun', hgt', hidle', ⟨_, hm', _⟩, -⟩ := generation_ends hinvt hidle hvt (hframe.agenda_eq.trans ha)
    obtain ⟨-, -, hdone', -⟩ := (generating_idle_iff hidle').1 hgt'
    have ⟨_, hm, _⟩ := hinvt
    rw [sameConfig_cyl hsame] at hrun'
    exact ⟨_, t, _, t', hexec, hrun, hexec', hrun', hdone', generating_again_pmem_eq hm hm' hgt hidle hgt' hidle'⟩

end Sys2Proof.Machine
end

section
/-! SUPPORT. Every step keeps the invariant of the block: the effects of HOST and STREAM one by one, the two ENGINE steps by what they do to
the ENGINE registers (`10_state.md` R37 to R46, `43_tdc.md` R185, `45_config_control.md` R226, R228, R236). -/

namespace Sys2Proof.Machine

/-! ### States in which no generation is in progress -/

section
variable {s t : State} {i : Instr}

/-- In PHASE = IDLE the invariant asks nothing of BUSY and the ENGINE registers. -/
theorem inv_of_idle (hidle : s.busy = false) (hparams : s.params.wf = true) (hmem : s.Canonical) (hzero : s.ReservedZero)
    (hlegal : s.cfgValid = true → s.ConfigLegal) : s.Inv := by
  have hphase := (busy_false_iff s).1 hidle
  refine ⟨hparams, hmem, hzero, hlegal, ?_, ?_, ?_⟩
  · rw [hidle]; nofun
  · rw [hphase]; nofun
  · rw [hphase]; nofun

/-- An accepted configuration write leaves nothing validated, so the invariant asks only for its reserved bits (`45_config_control.md`
R226, R228). -/
theorem inv_invalidate (hidle : s.busy = false) (hparams : s.params.wf = true) (hmem : s.Canonical) (hzero : s.ReservedZero) :
    s.invalidate.Inv :=
  inv_of_idle (s := s.invalidate) hidle hparams hmem hzero nofun

/-- A slot written within its mask keeps the reserved bits of every slot zero (`10_state.md` R40). -/
theorem setSlot_reservedZero {k : Nat} {v : Word} (hk : k < 20) (hv : v &&& ~~~camEdgeMask = 0#32) (hzero : s.ReservedZero) :
    State.ReservedZero { s with camEdge := s.camEdge.setIfInBounds k v } := by
  obtain ⟨hcrk, hcam, htdc, hslots⟩ := hzero
  refine ⟨hcrk, hcam, htdc, fun j hj => ?_⟩
  rw [camSlot_set s k j v hk]
  split
  · exact hv
  · exact hslots j hj

/-! ### HOST and STREAM -/

/-- What HOST and STREAM do keeps the invariant: VALIDATE sets CFG_VALID on a legal configuration only, GENERATE starts with CURSOR,
CAM_IDX and TDC_K at 0, a configuration write clears CFG_VALID, and the rest touches PMEM by its own operations or nothing of it. -/
theorem HostStep.inv (h : HostStep s i t) (hinv : s.Inv) : t.Inv := by
  obtain ⟨hparams, hmem, hzero, hlegal, hvalid, hengine⟩ := hinv
  have hmem' := h.canonical hmem
  have ⟨hcrk, hcam, htdc, hslots⟩ := hzero
  cases h with
  | validate idle hok => exact ⟨hparams, hmem, hzero, fun _ => (validateError_none_iff s).1 hok, fun _ => rfl, hengine⟩
  | generate idle hv =>
    exact ⟨hparams, hmem, hzero, hlegal, fun _ => hv, fun _ => ⟨show (0#13).toNat < elementCount by decide, Nat.zero_le _, rfl⟩, nofun⟩
  | writeCrkCfg v idle hv => exact inv_invalidate idle hparams hmem ⟨hv, hcam, htdc, hslots⟩
  | writeCamCfg v idle hv => exact inv_invalidate idle hparams hmem ⟨hcrk, hv, htdc, hslots⟩
  | writeTdcCfg v idle hv => exact inv_invalidate idle hparams hmem ⟨hcrk, hcam, hv, hslots⟩
  | writeCamEdge k v idle hk hv => exact inv_invalidate idle hparams hmem (setSlot_reservedZero hk hv hzero)
  | _ => exact ⟨hparams, hmem', hzero, hlegal, hvalid, hengine⟩

/-! ### The ENGINE -/

/-- An ENGINE step of a generation in progress leaves the parameters and the configuration, so it keeps the invariant as soon as PMEM stays
canonical and the ENGINE registers stay in range. -/
theorem inv_of_engineWrites (hinv : s.Inv) (hbusy : s.busy = true) (hframe : s.OnlyEngineWrites t) (hmem : t.Canonical)
    (hengine : t.EngineInv) : t.Inv := by
  obtain ⟨hparams, -, hzero, hlegal, hvalid, -⟩ := hinv
  have hvalid' : t.cfgValid = true := (congrArg State.cfgValid hframe).trans (hvalid hbusy)
  refine ⟨?_, hmem, ?_, fun _ => ?_, fun _ => hvalid', hengine⟩ <;> rw [hframe]
  · exact hparams
  · exact hzero
  · exact hlegal (hvalid hbusy)

/-- No angle is the sentinel, so CAM_IDX goes past used edges only (`10_state.md` R44, R51). -/
theorem mainNext_camIdx_le (hcur : s.cursor.toNat < elementCount) (hidx : s.camIdx.toNat ≤ s.usedEdges) :
    (mainNext s).camIdx.toNat ≤ s.usedEdges := by
  by_cases hedge : s.camIdx.toNat < 20 ∧ s.edge s.camIdx.toNat = s.cursor.toNat
  · obtain ⟨-, hnext⟩ := mainNext_cam_edge hedge
    have hused : s.camIdx.toNat ≠ s.usedEdges := fun heq => by
      have hat : camSentinel = s.cursor.toNat := by rw [← unused_edge s, ← heq]; exact hedge.2
      exact absurd (hat ▸ hcur) (by decide)
    omega
  · obtain ⟨-, hstay⟩ := mainNext_cam_no_edge hedge
    rw [hstay]
    exact hidx

/-- A main step keeps the ENGINE registers in range, for the main pass or for the TDC pass that it begins (`44_generate.md` R202, R205). -/
theorem mainNext_engineInv (hp : s.phase = .main) (hn : 1 ≤ s.cylCount) (hengine : s.EngineInv) : (mainNext s).EngineInv := by
  obtain ⟨hmain, -⟩ := hengine
  obtain ⟨hcur, hidx, hk⟩ := hmain hp
  have hangle : s.cursor.toNat < 7200 := hcur
  have hk' : (mainNext s).tdcK = 0#3 := by rw [mainNext_frame]; exact hk
  have hcyl : (mainNext s).cylCount = s.cylCount := by rw [mainNext_frame]; rfl
  have hused : (mainNext s).usedEdges = s.usedEdges := by rw [mainNext_frame]; rfl
  by_cases hlast : s.cursor.toNat = 7199
  · obtain ⟨hphase, hcursor, -⟩ := mainNext_at_end hp hlast
    refine ⟨fun h => absurd (hphase.symm.trans h) (by decide), fun _ => ⟨by rw [hcursor, hlast], ?_⟩⟩
    rw [hk', hcyl]
    exact hn
  · obtain ⟨hphase, hcursor⟩ := mainNext_before_end hp hlast hcur
    have hcur' : (mainNext s).cursor.toNat < 7200 := by omega
    exact ⟨fun _ => ⟨hcur', hused ▸ mainNext_camIdx_le hcur hidx, hk'⟩, fun h => absurd (hphase.symm.trans h) (by decide)⟩

/-- A TDC step goes to the next cylinder below n, or ends the generation (`43_tdc.md` R185 to R187). -/
theorem tdcNext_engineInv (hp : s.phase = .tdc) (hn : s.cylCount ≤ 6) (hengine : s.EngineInv) : (tdcNext s).EngineInv := by
  obtain ⟨-, htdc⟩ := hengine
  obtain ⟨hcur, hk⟩ := htdc hp
  have hk' := tdcNext_tdcK_toNat hk hn
  by_cases hlast : s.tdcK.toNat + 1 = s.cylCount
  · have hphase : (tdcNext s).phase = .idle := by rw [tdcNext_last hlast]
    refine ⟨?_, ?_⟩ <;> rw [hphase] <;> nofun
  · have hphase : (tdcNext s).phase = .tdc := by rw [tdcNext_more hlast]; exact hp
    have hcyl : (tdcNext s).cylCount = s.cylCount := by rw [tdcNext_frame]; rfl
    have hcur' : (tdcNext s).cursor.toNat = 7199 := by rw [tdcNext_frame]; exact hcur
    exact ⟨fun h => absurd (hphase.symm.trans h) (by decide), fun _ => ⟨hcur', by omega⟩⟩

/-! ### Every step -/

theorem exec_engine_inv (hi : ¬notEngine i = true) (h : exec i s = .next t) (hinv : s.Inv) : t.Inv := by
  have ⟨hparams, hmem, _, _, _, hengine⟩ := hinv
  have hmem' := exec_canonical h hmem
  have hframe : s.OnlyEngineWrites t := exec_engine_frame hi h
  rcases engine_of_not_host hi with rfl | rfl
  · obtain ⟨hp, -, -, rfl⟩ := execMainStep_inv h
    have hbusy : s.busy = true := by rw [busy_eq, hp]; rfl
    have hn := (cylCount_range hparams (configLegal_of_busy hinv hbusy).1).1
    exact inv_of_engineWrites hinv hbusy hframe hmem' (mainNext_engineInv hp hn hengine)
  · obtain ⟨hp, -, hn, rfl⟩ := execTdcStep_inv h
    have hbusy : s.busy = true := by rw [busy_eq, hp]; rfl
    exact inv_of_engineWrites hinv hbusy hframe hmem' (tdcNext_engineInv hp hn hengine)

theorem exec_inv (h : exec i s = .next t) (hinv : s.Inv) : t.Inv := by
  by_cases hi : notEngine i = true
  · exact (exec_host_step hi h).inv hinv
  · exact exec_engine_inv hi h hinv

end

/-- Settles O56: a step is a reset, passes, or is an instruction, taken with the block state of `s`. -/
theorem everyStepKeepsTheInvariant : Obligations.EveryStepKeepsTheInvariant := by
  intro s t hinv h
  obtain ⟨u, rest, rfl, ⟨-, -, hs⟩ | ⟨-, hs⟩ | ⟨i, -, -, hs⟩⟩ := step_cases s <;> rw [hs] at h
  · cases h
    obtain ⟨hparams, -⟩ := hinv
    exact resetOf_inv hparams
  · cases h
    exact hinv
  · exact exec_inv (s := { s with agenda := rest }) h hinv

end Sys2Proof.Machine
end

section
/-! SUPPORT. The register accesses of `45_config_control.md` §1 and §2: which accesses are of no register (R220), and what a configuration
write answers (R223 to R228). -/

namespace Sys2Proof

open Machine

/-! ### Accesses to no register (R220) -/

/-- The instructions of the accesses that are of no register. -/
def IsIllegalAccess (acc : Access) (size : Size) (off : BitVec 8) (i : Instr) : Prop :=
  i = .misaligned acc size off ∨ (∃ k, i = .unmapped20 acc k) ∨ ∃ k, i = .unmappedC0 acc k

theorem exec_illegalAccess {acc : Access} {size : Size} {off : BitVec 8} {i : Instr} (h : IsIllegalAccess acc size off i) (s : State) :
    exec i s = raiseAccess acc s := by
  obtain rfl | ⟨k, rfl⟩ | ⟨k, rfl⟩ := h <;> rfl

/-- A misaligned or narrow access, and an access to an unmapped offset, is of no register. -/
theorem decode_illegalAccess (acc : Access) {size : Size} {off : BitVec 8}
    (h : size ≠ .word ∨ off.toNat % 4 ≠ 0 ∨ (0x20 ≤ off.toNat ∧ off.toNat < 0x40) ∨ 0xC0 ≤ off.toNat) :
    ∃ i, decode (.reg acc size off) = .ok i ∧ IsIllegalAccess acc size off i := by
  by_cases hm : misalignedAccess size off = true
  · exact ⟨_, decode_misaligned acc hm, .inl rfl⟩
  · obtain ⟨-, hdec⟩ := registerAt_of_aligned acc hm
    obtain ⟨hsize, hoff⟩ := not_or.1 (mt (misalignedAccess_iff size off).2 hm)
    rcases (h.resolve_left hsize).resolve_left hoff with hlow | hhigh
    · have hk : off.toNat / 4 = 8 + (BitVec.ofNat 3 (off.toNat / 4 - 8)).toNat := by rw [BitVec.toNat_ofNat]; omega
      rw [hk, decodeRegister_unmapped20] at hdec
      exact ⟨_, hdec, .inr (.inl ⟨_, rfl⟩)⟩
    · have hk : off.toNat / 4 = 48 + (BitVec.ofNat 4 (off.toNat / 4 - 48)).toNat := by rw [BitVec.toNat_ofNat]; omega
      rw [hk, decodeRegister_unmappedC0] at hdec
      exact ⟨_, hdec, .inr (.inr ⟨_, rfl⟩)⟩

/-- The offset of a word access is the one its instruction is encoded at. -/
theorem offset_of_registerAt {acc : Access} {off : BitVec 8} {n : Nat} (hn : n < 256) (h : registerAt acc n = .reg acc .word off) :
    off.toNat = n := by
  unfold registerAt at h
  obtain ⟨-, -, rfl⟩ := h
  exact (BitVec.toNat_ofNat n 8).trans (Nat.mod_eq_of_lt hn)

/-- A word access that is of no register is misaligned or at an unmapped offset: its instruction encodes to no other. -/
theorem offset_of_illegalAccess {acc : Access} {off : BitVec 8} {i : Instr} (hd : decode (.reg acc .word off) = .ok i)
    (h : IsIllegalAccess acc .word off i) :
    off.toNat % 4 ≠ 0 ∨ (0x20 ≤ off.toNat ∧ off.toNat < 0x40) ∨ 0xC0 ≤ off.toNat := by
  obtain ⟨henc, hwf⟩ := encodeOfDecodeIsTheTransaction _ _ hd
  obtain rfl | ⟨k, rfl⟩ | ⟨k, rfl⟩ := h
  · have hm := hwf.resolve_right nofun
    exact .inl (((misalignedAccess_iff _ _).1 hm).resolve_left fun hne => hne rfl)
  · have hoff := offset_of_registerAt (by omega) henc
    exact .inr (.inl (by omega))
  · have hoff := offset_of_registerAt (by omega) henc
    exact .inr (.inr (by omega))

/-- Settles O30: the accesses of no register raise as `raiseAccess` says, and they are exactly those that R220 names. -/
theorem unmappedMisalignedOrNarrowAccessRaises : Obligations.UnmappedMisalignedOrNarrowAccessRaises := by
  refine ⟨fun acc size off s h => ?_, fun v s => ⟨fun _ => rfl, fun _ => rfl, fun _ => rfl, fun _ => rfl, fun _ _ => rfl, fun _ _ => rfl⟩,
    fun acc off haligned hmapped => ?_⟩
  · obtain ⟨i, hdec, hi⟩ := decode_illegalAccess acc h
    refine ⟨i, hdec, hi, ?_, ?_⟩
    · rintro rfl
      exact exec_illegalAccess hi s
    · rintro v rfl
      exact exec_illegalAccess hi s
  · have hlegal : ∀ i, decode (.reg acc .word off) = .ok i → ¬IsIllegalAccess acc .word off i := fun i hdec hi => by
      have := offset_of_illegalAccess hdec hi
      omega
    have hm : ¬misalignedAccess .word off = true := fun h => by
      simpa [haligned] using (misalignedAccess_iff _ _).1 h
    obtain ⟨-, hdec⟩ := registerAt_of_aligned acc hm
    have hno := hlegal _ hdec
    exact ⟨_, hdec, fun h => hno (.inl h), fun k h => hno (.inr (.inl ⟨k, h⟩)), fun k h => hno (.inr (.inr ⟨k, h⟩))⟩

end Sys2Proof

namespace Sys2Proof.Machine

/-! ### Reads (R222) -/

/-- Settles O28: each read returns its register; a present slot reads as its element of the vector. -/
theorem readsReturnTheRegisters : Obligations.ReadsReturnTheRegisters := by
  intro s
  refine ⟨rfl, rfl, rfl, rfl, rfl, rfl, rfl, rfl, fun k => ?_, fun k => ?_, fun _ => rfl, fun _ => rfl, fun _ => rfl, fun _ => rfl⟩
  · exact congrArg (fun v => Host.Outcome.next (s.returnToHost v)) (camSlot_eq s k.val (by omega))
  · exact congrArg (fun v => Host.Outcome.next (s.returnToHost v)) (camSlot_eq s (16 + k.val) (by omega))

/-! ### Configuration writes (R223) -/

section
variable {s : State} {v : Word} (mask : Word) (stored : State)

/-- E_BUSY comes first (R225). -/
theorem writeConfig_busy (h : s.busy = true) : writeConfig mask v s stored = .next (s.recordError .busy) := whenIdle_busy _ h

/-- A bit outside the write mask (R228). -/
theorem writeConfig_reserved (h : s.busy = false) (hv : v &&& ~~~mask ≠ 0#32) :
    writeConfig mask v s stored = .next (s.recordError .illegalAccess) := (whenIdle_idle _ h).trans (if_pos hv)

/-- An accepted write stores and invalidates (R226). -/
theorem writeConfig_accepted (h : s.busy = false) (hv : v &&& ~~~mask = 0#32) : writeConfig mask v s stored = .next stored.invalidate :=
  (whenIdle_idle _ h).trans (if_neg fun hne => hne hv)

/-- An accepted write to a present slot stores in that slot alone (R226). -/
theorem writeCamSlot_accepted {k : Nat} (hk : k < 20) (h : s.busy = false) (hv : v &&& ~~~camEdgeMask = 0#32) :
    ∃ t, writeCamSlot k v s = .next t ∧ t = { s with camEdge := t.camEdge, cfgValid := false } ∧ t.camSlot k = v ∧
      ∀ j, j ≠ k → t.camSlot j = s.camSlot j := by
  have hslot := fun j => camSlot_set s k j v hk
  exact ⟨_, writeConfig_accepted camEdgeMask _ h hv, rfl, (hslot k).trans (if_pos rfl), fun j hj => (hslot j).trans (if_neg hj)⟩

end

/-- Settles O31: the three answers of `writeConfig` for each of the five ranges; an absent slot answers E_BUSY like the others. -/
theorem configurationWritesStoreAndInvalidate : Obligations.ConfigurationWritesStoreAndInvalidate := by
  intro v s
  exact ⟨fun h => ⟨writeConfig_busy crkCfgMask _ h, writeConfig_busy camCfgMask _ h, writeConfig_busy tdcCfgMask _ h,
      fun _ => writeConfig_busy camEdgeMask _ h, fun _ => writeConfig_busy camEdgeMask _ h, fun _ => whenIdle_busy _ h,
      fun _ => whenIdle_busy _ h⟩,
    fun h => ⟨writeConfig_reserved crkCfgMask _ h, writeConfig_accepted crkCfgMask _ h, writeConfig_reserved camCfgMask _ h,
      writeConfig_accepted camCfgMask _ h, writeConfig_reserved tdcCfgMask _ h, writeConfig_accepted tdcCfgMask _ h,
      fun _ => writeConfig_reserved camEdgeMask _ h, fun _ => writeConfig_reserved camEdgeMask _ h,
      fun k => writeCamSlot_accepted (show k.toNat < 20 by omega) h,
      fun k => writeCamSlot_accepted (show 16 + k.toNat < 20 by omega) h⟩⟩

/-- Settles O32: the read-only registers raise, an absent slot does while IDLE, DATA stores. -/
theorem otherRegisterWrites : Obligations.OtherRegisterWrites :=
  fun _ _ => ⟨⟨rfl, rfl, rfl⟩, fun h => ⟨fun _ => whenIdle_idle _ h, fun _ => whenIdle_idle _ h⟩, rfl⟩

end Sys2Proof.Machine
end

section
/-! SUPPORT. VALIDATE (`45_config_control.md` R230 to R237): its three answers, and the used slots and their checks spelled from the registers'
bits. -/

namespace Sys2Proof.Machine

/-! ### The answers of VALIDATE -/

section
variable {s : State}

theorem exec_validate_busy (h : s.busy = true) : exec .validate s = .next (s.recordError .busy) := whenIdle_busy _ h

/-- The first check that fails decides (R235). -/
theorem exec_validate_error {e : Err} (h : s.busy = false) (he : s.validateError = some e) : exec .validate s = .next (s.recordError e) := by
  refine (whenIdle_idle _ h).trans ?_
  rw [he]
  rfl

/-- A legal configuration is validated (R236). -/
theorem exec_validate_legal (h : s.busy = false) (hl : s.ConfigLegal) : exec .validate s = .next { s with cfgValid := true } := by
  refine (whenIdle_idle _ h).trans ?_
  rw [(validateError_none_iff s).2 hl]

/-! ### The first failure -/

/-- Where the cylinder count and the reference are legal, the first cam entry that is not decides (R233). -/
theorem validateError_of_camListError {e : Err} (hc : s.CylLegal) (hr : s.refToTdc0 < elementCount)
    (he : camListError none s.edges = some e) : s.validateError = some e := by
  obtain ⟨-, -, hcam⟩ := validateError_eq s
  rw [hcam hc hr, he]

/-- The wheel decides last (R234). -/
theorem validateError_of_wheel (hc : s.CylLegal) (hr : s.refToTdc0 < elementCount) (hedges : ∀ k, k < s.usedEdges → s.EdgeLegal k)
    (hw : s.wheelLegal = false) : s.validateError = some .invalidCrankWheel := by
  obtain ⟨-, -, hwheel⟩ := validateError_eq s
  have hnone : camListError none s.edges = none :=
    (camListError_none_iff none s.edges).2 fun k hk => (edgeLegal_iff s k).1 (hedges k hk)
  rw [hwheel hc hr, hnone, hw]
  rfl

/-- The first used slot that is not legal: no angle, or not above the slot before it (R233). -/
theorem camListError_at {k : Nat} (hk : k < s.usedEdges) (hbefore : ∀ j, j < k → s.EdgeLegal j) :
    (elementCount ≤ s.edge k → camListError none s.edges = some .invalidCamEdge) ∧
      (s.edge k < elementCount → 0 < k → s.edge k ≤ s.edge (k - 1) → camListError none s.edges = some .nonMonotonicCamEdges) := by
  obtain ⟨hout, horder⟩ := camListError_first none s.edges k hk fun j hj => (edgeLegal_iff s j).1 (hbefore j hj)
  rw [← edge_eq_getD] at hout horder
  have hprev : 0 < k → entryBefore none s.edges k = some (s.edge (k - 1)) := fun h0 => by
    unfold entryBefore
    rw [if_neg (Nat.ne_of_gt h0), ← edge_eq_getD]
  exact ⟨hout, fun hlt h0 hle => horder hlt ⟨_, hprev h0, hle⟩⟩

end

/-- Settles O36: `used` is being below `usedEdges`, and each clause is the check of R230 that fails first. -/
theorem validateRaisesTheFirstFailure : Obligations.ValidateRaisesTheFirstFailure := by
  intro s cyl ref teeth missing edge used edgeOk cylOk
  obtain ⟨hcount, href, -⟩ := validateError_eq s
  have hused : ∀ k, used k ↔ k < s.usedEdges := fun k => (lt_usedEdges_iff s k).symm
  refine ⟨exec_validate_busy, fun h hc => exec_validate_error h (hcount hc), fun h hc hr => exec_validate_error h (href hc hr),
    fun k h hc hr hk hbefore hout => ?_, fun k h hc hr hk hbefore hlt h0 hle => ?_, fun h hc hr hedges hw => ?_⟩
  · obtain ⟨hrange, -⟩ := camListError_at ((hused k).1 hk) hbefore
    exact exec_validate_error h (validateError_of_camListError hc hr (hrange hout))
  · obtain ⟨-, horder⟩ := camListError_at ((hused k).1 hk) hbefore
    exact exec_validate_error h (validateError_of_camListError hc hr (horder hlt h0 hle))
  · have hwheel : s.wheelLegal = false := Bool.eq_false_iff.2 (mt (wheelLegal_iff s).1 hw)
    exact exec_validate_error h (validateError_of_wheel hc hr (fun k hk => hedges k ((hused k).2 hk)) hwheel)

/-- Settles O37: with the invariant CFG_VALID = 1 says that the configuration is legal. -/
theorem revalidationChangesNothing : Obligations.RevalidationChangesNothing := by
  intro s hinv
  obtain ⟨-, -, -, hlegal, -⟩ := hinv
  refine ⟨fun h hv => ?_, fun h hl => ?_, exec_validate_busy⟩
  · rw [exec_validate_legal h (hlegal hv), ← hv]
  · have hv : s.cfgValid = false := Bool.eq_false_iff.2 (mt hlegal hl)
    obtain ⟨e, he⟩ := Option.ne_none_iff_exists'.1 (mt (validateError_none_iff s).1 hl)
    exact ⟨_, exec_validate_error h he, hv, hv⟩

/-- Settles O35: VALIDATE on a legal configuration. -/
theorem validateAcceptsLegalConfigurations : Obligations.ValidateAcceptsLegalConfigurations :=
  ⟨rfl, fun _ h hl => exec_validate_legal h hl⟩

end Sys2Proof.Machine
end

section
/-! SUPPORT. NOP and CLR_ERR (`45_config_control.md` R240, R241), each the one word of its opcode, and the stream port (R245, R246). -/

namespace Sys2Proof.Machine

/-- A command that uses no field has one word; a write of any other word of its opcode raises E_ILLEGAL_COMMAND (`30_encoding.md` R84). -/
theorem exec_writeCmd_of_ne_matchWord {w : Word} {op : Opcode} (hmask : op.maskWord = 0xFFFFFFFF#32)
    (ho : w.extractLsb' 28 4 = op.number) (hne : w ≠ op.matchWord) (s : State) :
    exec (.writeCmd w) s = .next (s.recordError .illegalCommand) := by
  have hnone := commandOf_none_of_ne_matchWord hmask ho hne
  obtain ⟨-, -, hwrite⟩ := spellsNoCommand_raises ((commandOf_none_iff w).1 hnone) s
  exact hwrite

/-- Settles O17: NOP's word decodes to NOP, and any other word of its opcode to no command. -/
theorem nopHasNoEffect : Obligations.NopHasNoEffect :=
  ⟨rfl, fun s => ⟨rfl, exec_writeCmd _ s⟩, fun _ s ho hne => exec_writeCmd_of_ne_matchWord (op := .nop) rfl ho hne s⟩

/-- Settles O18: CLR_ERR's word decodes to CLR_ERR, and any other word of its opcode to no command. -/
theorem clrErrClearsTheRecord : Obligations.ClrErrClearsTheRecord :=
  ⟨rfl, fun s => ⟨rfl, exec_writeCmd _ s⟩, fun _ s ho hne => exec_writeCmd_of_ne_matchWord (op := .clrErr) rfl ho hne s⟩

/-! ### The stream port -/

section
variable {s : State} {i : Nat}

theorem exec_streamRd_ok {v : Word} (hi : i < elementCount) (hr : s.memRead i = .ok v) :
    exec (.streamRd i) s = .next (s.driveStream v) := by
  refine (if_neg (Nat.not_le_of_lt hi)).trans ?_
  rw [hr]

theorem exec_streamRd_error {f : Fault} (hi : i < elementCount) (hr : s.memRead i = .error f) : exec (.streamRd i) s = .fault f := by
  refine (if_neg (Nat.not_le_of_lt hi)).trans ?_
  rw [hr]

end

/-- Settles O49: the read answers exactly where every bit of the element is defined, and else names an undefined one. -/
theorem streamReadReturnsTheElement : Obligations.StreamReadReturnsTheElement := by
  intro i s
  refine ⟨fun hi hdef => ?_, fun hi hundef => ?_, fun hi => if_pos hi⟩
  · obtain ⟨-, hread⟩ := (memRead_cases hi).resolve_right fun ⟨b, hb, hnone, _⟩ => hdef b hb hnone
    exact ⟨_, exec_streamRd_ok hi hread, fun b hb => readValue_bit hb (hdef b hb), readValue_high s _⟩
  · obtain ⟨b, hb, hnone⟩ := hundef
    obtain ⟨c, hc, hcnone, hread⟩ := (memRead_cases hi).resolve_left fun ⟨hall, _⟩ => hall b hb hnone
    exact ⟨c, hc, hcnone, exec_streamRd_error hi hread⟩

end Sys2Proof.Machine
end

section
/-! SUPPORT. The error record of `60_exceptions.md`: what a transaction can do to it (R262, R267), that what is raised does not depend on it
(R263), that only the HOST raises (R261), and what BUSY = 1 refuses (R266). -/

namespace Sys2Proof.Machine

/-- `t` has the error record of `s`. -/
abbrev State.SameRecord (s t : State) : Prop := t.err = s.err ∧ t.errMulti = s.errMulti

/-! ### Recording an error (R262) -/

section
variable {s : State} (e : Err)

/-- The first error is kept. -/
theorem recordError_first (h : s.err = .eNone) : (s.recordError e).err = e ∧ (s.recordError e).errMulti = s.errMulti :=
  ⟨if_pos h, if_pos h⟩

/-- A later error only sets ERR_MULTI. -/
theorem recordError_later (h : s.err ≠ .eNone) : (s.recordError e).err = s.err ∧ (s.recordError e).errMulti = true :=
  ⟨if_neg h, if_neg h⟩

/-- No error clears ERR_MULTI (R267). -/
theorem recordError_errMulti_of_set (h : s.errMulti = true) : (s.recordError e).errMulti = true := by
  by_cases he : s.err = .eNone
  · exact (recordError_first e he).2.trans h
  · exact (recordError_later e he).2

end

/-- Settles O12: `recordError` keeps the first error, and the raising read records E_ILLEGAL_ACCESS. -/
theorem raiseRecordsTheFirstError : Obligations.RaiseRecordsTheFirstError := fun e _ _ =>
  ⟨⟨_, rfl, rfl, recordError_first e, recordError_later e⟩,
    ⟨_, rfl, rfl, recordError_first .illegalAccess, recordError_later .illegalAccess⟩⟩

/-! ### Who leaves the record (R261) -/

theorem exec_engine_sameRecord {i : Instr} {s t : State} (hi : ¬notEngine i = true) (h : exec i s = .next t) : s.SameRecord t := by
  rw [exec_engine_frame hi h]
  exact ⟨rfl, rfl⟩

/-- A stream read that answers drives the output lines and does nothing else (`45_config_control.md` R245). -/
theorem exec_streamRd_next {n : Nat} {s t : State} (h : exec (.streamRd n) s = .next t) : ∃ v, t = s.driveStream v := by
  by_cases hn : n < elementCount
  · rcases memRead_cases (s := s) hn with ⟨-, hr⟩ | ⟨b, -, -, hr⟩
    · rw [exec_streamRd_ok hn hr] at h
      cases h
      exact ⟨_, rfl⟩
    · rw [exec_streamRd_error hn hr] at h
      cases h
  · obtain ⟨-, -, hout⟩ := streamReadReturnsTheElement n s
    rw [hout (Nat.le_of_not_lt hn)] at h
    cases h

/-- The ENGINE's steps and stream reads leave the error record. -/
theorem exec_sameRecord {i : Instr} {s t : State} (hi : i = .mainStep ∨ i = .tdcStep ∨ ∃ n, i = .streamRd n) (h : exec i s = .next t) :
    s.SameRecord t := by
  obtain rfl | rfl | ⟨n, rfl⟩ := hi
  · exact exec_engine_sameRecord (by decide) h
  · exact exec_engine_sameRecord (by decide) h
  · obtain ⟨v, rfl⟩ := exec_streamRd_next h
    exact ⟨rfl, rfl⟩

/-- A turn that is neither HOST's nor a reset is the ENGINE's or STREAM's. -/
theorem nextTurn_engine_or_stream {s : State} (hcmd : ∀ w rest, s.agenda ≠ .cmd w :: rest)
    (hbus : ∀ acc size addr rest, s.agenda ≠ .bus acc size addr :: rest) (hreset : ∀ rest, s.agenda ≠ .reset :: rest) :
    (nextTurn s).1 = .engine ∨ ∃ n, (nextTurn s).1 = .stream n := by
  unfold nextTurn
  cases ha : s.agenda with
  | nil => exact .inl rfl
  | cons t rest =>
    cases t with
    | cmd w => exact absurd ha (hcmd w rest)
    | bus acc size addr => exact absurd ha (hbus acc size addr rest)
    | stream n => exact .inr ⟨n, rfl⟩
    | engine => exact .inl rfl
    | reset => exact absurd ha (hreset rest)

/-- The instruction of an ENGINE turn is one of the ENGINE's two steps. -/
theorem turnInstr_engine_turn {s : State} {i : Instr} (h : turnInstr .engine s = some i) : i = .mainStep ∨ i = .tdcStep := by
  unfold turnInstr turnWire at h
  cases hp : s.phase with
  | idle => rw [hp] at h; cases h
  | main => rw [hp] at h; cases h; exact .inl rfl
  | tdc => rw [hp] at h; cases h; exact .inr rfl

/-- Settles O16: the turns left are the ENGINE's and STREAM's, whose instructions leave the record. -/
theorem onlyHostTransactionsRaiseErrors : Obligations.OnlyHostTransactionsRaiseErrors := by
  refine ⟨fun i s t => exec_sameRecord, fun s t hcmd hbus hreset h => ?_⟩
  obtain ⟨u, rest, rfl, ⟨r, ha, -⟩ | ⟨-, hs⟩ | ⟨i, -, hi, hs⟩⟩ := step_cases s
  · exact absurd ha (hreset r)
  · rw [hs] at h
    cases h
    exact ⟨rfl, rfl⟩
  · rw [hs] at h
    refine exec_sameRecord (s := { s with agenda := rest }) ?_ h
    rcases nextTurn_engine_or_stream hcmd hbus hreset with hturn | ⟨n, hturn⟩ <;> rw [hturn] at hi
    · exact (turnInstr_engine_turn hi).imp_right .inl
    · cases hi
      exact .inr (.inr ⟨n, rfl⟩)

/-! ### What an instruction does to the record (R263, R267) -/

/-- Every instruction but CLR_ERR leaves the record, or records an error with no other effect but a read's 0. -/
theorem exec_record_cases {s t : State} {i : Instr} (hi : issued i ≠ .clrErr) (h : exec i s = .next t) :
    s.SameRecord t ∨ (∃ e, e ≠ .eNone ∧ t = s.recordError e) ∨
      ∃ e, e ≠ .eNone ∧ t = { s.recordError e with hostRead := some 0x00000000#32 } := by
  by_cases hn : notEngine i = true
  · have hs := exec_host_step hn h
    generalize issued i = j at hi hs
    cases hs with
    | raised e he => exact .inr (.inl ⟨e, he, rfl⟩)
    | raisedRead => exact .inr (.inr ⟨.illegalAccess, by decide, rfl⟩)
    | clrErr => exact absurd rfl hi
    | _ => exact .inl ⟨rfl, rfl⟩
  · exact .inl (exec_engine_sameRecord hn h)

/-- Settles O15: an error recorded keeps a code and ERR_MULTI. -/
theorem onlyClrErrClearsTheRecord : Obligations.OnlyClrErrClearsTheRecord := by
  intro i s t hi h
  rcases exec_record_cases hi h with ⟨herr, hmulti⟩ | ⟨e, -, rfl⟩ | ⟨e, -, rfl⟩
  · exact ⟨fun _ => herr, hmulti.trans⟩
  · exact ⟨fun he => (recordError_later e he).1, recordError_errMulti_of_set e⟩
  · exact ⟨fun he => (recordError_later e he).1, recordError_errMulti_of_set e⟩

/-! ### What is raised does not depend on the record (R263) -/

/-- Of two answers, in `s` with the record cleared and in `s`: the first raises nothing, or both raise the same error. -/
inductive RaisesAlike (s : State) : Result → Result → Prop where
  | quiet {r r' : Result} (h : ∀ u, r = .next u → u.err = .eNone) : RaisesAlike s r r'
  | raised (e : Err) : RaisesAlike s (raise e s.clearError) (raise e s)

section
variable {s : State} {k k' : Result}

/-- An error raised with the record cleared is the one recorded in `s`. -/
theorem RaisesAlike.recorded {u : State} (h : RaisesAlike s k k') (hu : k = .next u) (he : u.err ≠ .eNone) :
    k' = .next (s.recordError u.err) := by
  cases h with
  | quiet hquiet => exact absurd (hquiet u hu) he
  | raised e => cases hu; rfl

theorem RaisesAlike.next {u : State} (h : u.err = .eNone) : RaisesAlike s (.next u) k' := .quiet fun _ hu => by cases hu; exact h

theorem whenIdle_raisesAlike (hk : RaisesAlike s k k') : RaisesAlike s (whenIdle s.clearError k) (whenIdle s k') := by
  cases hb : s.busy with
  | true => rw [whenIdle_busy k' hb, whenIdle_busy (s := s.clearError) k hb]; exact .raised .busy
  | false => rw [whenIdle_idle k' hb, whenIdle_idle (s := s.clearError) k hb]; exact hk

/-- A check that raises where `p` holds. -/
theorem check_raisesAlike {p : Prop} [Decidable p] (e : Err) (hk : ¬p → RaisesAlike s k k') :
    RaisesAlike s (if p then raise e s.clearError else k) (if p then raise e s else k') := by
  by_cases h : p
  · rw [if_pos h, if_pos h]; exact .raised e
  · rw [if_neg h, if_neg h]; exact hk h

theorem withElement_raisesAlike {addr : BitVec 13} (hk : addr.toNat < elementCount → RaisesAlike s k k') :
    RaisesAlike s (withElement addr s.clearError k) (withElement addr s k') :=
  whenIdle_raisesAlike (check_raisesAlike .addressOutOfRange fun ha => hk (Nat.lt_of_not_le ha))

theorem withCylinder_raisesAlike {addr : BitVec 13} {cyl : BitVec 3} (hk : RaisesAlike s k k') :
    RaisesAlike s (withCylinder addr cyl s.clearError k) (withCylinder addr cyl s k') :=
  withElement_raisesAlike fun _ => check_raisesAlike .invalidCylinderIndex fun _ => hk

theorem writeConfig_raisesAlike (mask v : Word) {stored stored' : State} (h : stored.err = .eNone) :
    RaisesAlike s (writeConfig mask v s.clearError stored) (writeConfig mask v s stored') :=
  whenIdle_raisesAlike (check_raisesAlike .illegalAccess fun _ => .next h)

theorem execRdWord_raisesAlike (addr : BitVec 13) : RaisesAlike s (execRdWord addr s.clearError) (execRdWord addr s) := by
  refine withElement_raisesAlike fun _ => .quiet fun u h => ?_
  cases hr : s.clearError.memRead addr.toNat with
  | ok v => rw [hr] at h; cases h; rfl
  | error f => rw [hr] at h; cases h

theorem execWrWord_raisesAlike (addr : BitVec 13) : RaisesAlike s (execWrWord addr s.clearError) (execWrWord addr s) := by
  refine withElement_raisesAlike fun ha => ?_
  rw [memWrite_ok s.clearError.data ha]
  exact .next rfl

theorem execValidate_raisesAlike : RaisesAlike s (execValidate s.clearError) (execValidate s) := by
  refine whenIdle_raisesAlike ?_
  have hv : s.clearError.validateError = s.validateError := rfl
  rw [hv]
  cases s.validateError with
  | none => exact .next rfl
  | some e => exact .raised e

theorem execGenerate_raisesAlike : RaisesAlike s (execGenerate s.clearError) (execGenerate s) := by
  refine whenIdle_raisesAlike ?_
  rw [clearError_cfgValid]
  cases s.cfgValid with
  | true => exact .next rfl
  | false => exact .raised .configNotValidated

/-- What the twelve commands raise does not depend on the record. -/
theorem issue_raisesAlike (op : Opcode) (addr : BitVec 13) (cyl : BitVec 3) (lvl : Level) :
    RaisesAlike s (issue op addr cyl lvl s.clearError) (issue op addr cyl lvl s) := by
  cases op with
  | nop | clrErr => exact .next rfl
  | setCam | setCrk => exact withElement_raisesAlike fun _ => .quiet fun _ => memWriteBit_err
  | getCam | getCrk => exact withElement_raisesAlike fun _ => .quiet fun _ => getBit_err
  | setTdc => exact withCylinder_raisesAlike (.quiet fun _ => memWriteBit_err)
  | getTdc => exact withCylinder_raisesAlike (.quiet fun _ => getBit_err)
  | rdWord => exact execRdWord_raisesAlike addr
  | wrWord => exact execWrWord_raisesAlike addr
  | validate => exact execValidate_raisesAlike
  | generate => exact execGenerate_raisesAlike

theorem execWriteCmd_raisesAlike (v : Word) : RaisesAlike s (execWriteCmd v s.clearError) (execWriteCmd v s) := by
  unfold execWriteCmd
  cases commandOf v with
  | none => exact .raised .illegalCommand
  | some op => exact issue_raisesAlike op _ _ _

/-- What an instruction raises does not depend on the record; a raising read, which returns 0 besides, is left out. -/
theorem exec_raisesAlike {i : Instr} (h20 : ∀ k, i ≠ .unmapped20 .read k) (hC0 : ∀ k, i ≠ .unmappedC0 .read k)
    (hmis : ∀ size off, i ≠ .misaligned .read size off) : RaisesAlike s (exec i s.clearError) (exec i s) := by
  cases i with
  | setCam addr lvl => exact issue_raisesAlike .setCam addr 0 lvl
  | getCam addr => exact issue_raisesAlike .getCam addr 0 .low
  | setCrk addr lvl => exact issue_raisesAlike .setCrk addr 0 lvl
  | getCrk addr => exact issue_raisesAlike .getCrk addr 0 .low
  | setTdc addr cyl lvl => exact issue_raisesAlike .setTdc addr cyl lvl
  | getTdc addr cyl => exact issue_raisesAlike .getTdc addr cyl .low
  | rdWord addr => exact execRdWord_raisesAlike addr
  | wrWord addr => exact execWrWord_raisesAlike addr
  | validate => exact execValidate_raisesAlike
  | generate => exact execGenerate_raisesAlike
  | reservedOpc => exact .raised .illegalCommand
  | writeCmd v => exact execWriteCmd_raisesAlike v
  | writeResult | writeStatus | writeInfo => exact .raised .illegalAccess
  | writeCrkCfg | writeCamCfg | writeTdcCfg | writeCamEdge0 | writeCamEdge16 => exact writeConfig_raisesAlike _ _ rfl
  | writeCamEdge20 | writeCamEdge24 => exact whenIdle_raisesAlike (.raised .unsupportedCamEdgeCount)
  | unmapped20 acc k =>
    cases acc with
    | read => exact absurd rfl (h20 k)
    | write => exact .raised .illegalAccess
  | unmappedC0 acc k =>
    cases acc with
    | read => exact absurd rfl (hC0 k)
    | write => exact .raised .illegalAccess
  | misaligned acc size off =>
    cases acc with
    | read => exact absurd rfl (hmis size off)
    | write => exact .raised .illegalAccess
  | streamRd n => exact .quiet fun u h => (exec_sameRecord (.inr (.inr ⟨n, rfl⟩)) h).1
  | mainStep => exact .quiet fun u h => (exec_sameRecord (.inl rfl) h).1
  | tdcStep => exact .quiet fun u h => (exec_sameRecord (.inr (.inl rfl)) h).1
  | _ => exact .next rfl

end

/-- Settles O14: a record that changes is an error recorded; what is raised with the record cleared is raised with any record. -/
theorem errorsArePrecise : Obligations.ErrorsArePrecise := by
  refine ⟨fun i s t hi h hne => ?_, fun i s u h he => ⟨?_, fun h20 hC0 hmis => ?_⟩⟩
  · exact (exec_record_cases hi h).resolve_left fun ⟨herr, hmulti⟩ => hne.elim (· herr) (· hmulti)
  · rintro (⟨k, rfl⟩ | ⟨k, rfl⟩ | ⟨size, off, rfl⟩) <;> cases h <;> rfl
  · exact (exec_raisesAlike h20 hC0 hmis).recorded h he

/-! ### While BUSY = 1 (R266) -/

/-- What is issued by a write to CMD does what it does as itself (`10_state.md` R42). -/
theorem exec_of_issued {i j : Instr} (h : issued i = j) (s : State) : exec i s = exec j s := h ▸ exec_issued i s

/-- Settles O54: what is refused is a `whenIdle` of something, whether issued as itself or by a write to CMD; what is accepted answers in
every phase. -/
theorem busyRefusesAllButTheListed : Obligations.BusyRefusesAllButTheListed := by
  intro i s hb
  refine ⟨?_, ?_, fun h => ⟨_, exec_of_issued h s, rfl, rfl⟩, fun w h => exec_of_issued h s, ?_, ?_⟩
  · rintro (⟨a, l, h⟩ | ⟨a, h⟩ | ⟨a, l, h⟩ | ⟨a, h⟩ | ⟨a, c, l, h⟩ | ⟨a, c, h⟩ | ⟨a, h⟩ | ⟨a, h⟩ | h | h |
      ⟨v, rfl⟩ | ⟨v, rfl⟩ | ⟨v, rfl⟩ | ⟨k, v, rfl⟩ | ⟨k, v, rfl⟩ | ⟨k, v, rfl⟩ | ⟨k, v, rfl⟩)
    iterate 10
      · exact (exec_of_issued h s).trans (whenIdle_busy _ hb)
    all_goals exact whenIdle_busy _ hb
  · rintro (rfl | rfl | rfl | rfl | rfl | rfl | rfl | rfl | ⟨k, rfl⟩ | ⟨k, rfl⟩ | ⟨k, rfl⟩ | ⟨k, rfl⟩ | ⟨v, rfl⟩ | h)
    iterate 13
      · exact ⟨_, rfl, rfl, rfl⟩
    · exact ⟨s, exec_of_issued h s, rfl, rfl⟩
  · rintro n rfl hn hdef
    obtain ⟨hok, -, -⟩ := streamReadReturnsTheElement n s
    obtain ⟨v, hv, hbits, -⟩ := hok hn hdef
    exact ⟨v, hv, hbits⟩
  · rintro n t rfl h
    obtain ⟨v, rfl⟩ := exec_streamRd_next h
    rfl

end Sys2Proof.Machine
end

section
/-! SUPPORT. Reset and the duties of the environment (`70_reset_and_hazards.md`): the states with nothing loaded (R292), what starts a
generation, where a stream read overruns, and the past of a dutiful environment step by step (R303, R306). -/

namespace Sys2Proof.Machine

/-- Settles O10: the step is `applyReset`, which is `resetOf` but for the agenda. -/
theorem resetStepSetsEveryValue : Obligations.ResetStepSetsEveryValue := by
  intro s rest ha
  have hstep : step s = .next (State.applyReset { s with agenda := rest }) := by
    unfold step
    rw [nextTurn_cons ha]
    rfl
  exact ⟨_, hstep, rfl, rfl, info_congr rfl, rfl, rfl, rfl, rfl, rfl, rfl, rfl, rfl, resetOf_status s.params, rfl, rfl, rfl,
    fun k _ => resetOf_camSlot s.params k, resetOf_bit s.params⟩

/-! ### Who moves BUSY -/

section
variable {s t : State} {i : Instr}

/-- Of HOST and STREAM, only GENERATE changes BUSY (`44_generate.md` R201). -/
theorem HostStep.busy_writer (h : HostStep s i t) (hb : t.busy ≠ s.busy) : i = .generate := by
  cases h with
  | generate => rfl
  | _ => exact absurd rfl hb

/-- The ENGINE steps only while BUSY = 1 (`44_generate.md` R202, `43_tdc.md` R186). -/
theorem exec_engine_busy (hi : ¬notEngine i = true) (h : exec i s = .next t) : s.busy = true := by
  rcases engine_of_not_host hi with rfl | rfl
  · obtain ⟨hp, -⟩ := execMainStep_inv h
    rw [busy_eq, hp]; rfl
  · obtain ⟨hp, -⟩ := execTdcStep_inv h
    rw [busy_eq, hp]; rfl

/-- Only GENERATE starts a generation. -/
theorem exec_starts_generation (h : exec i s = .next t) (hs : s.busy = false) (ht : t.busy = true) : issued i = .generate := by
  have hne : t.busy ≠ s.busy := by rw [hs, ht]; decide
  by_cases hn : notEngine i = true
  · exact (exec_host_step hn h).busy_writer hne
  · exact absurd (hs.symm.trans (exec_engine_busy hn h)) Bool.false_ne_true

end

/-! ### Nothing loaded (R292) -/

/-- IDLE with TDC_CFG at its reset value and nothing validated: reset's state, and what it stays while TDC_CFG is not written. -/
abbrev State.Unloaded (s : State) : Prop := s.busy = false ∧ s.tdcCfg = 0x00000000#32 ∧ s.cfgValid = false

section
variable {s t : State} {i : Instr}

/-- A cylinder count of 0 divides nothing, whatever SUPPORTED_CYL holds (`45_config_control.md` R231). -/
theorem not_cylLegal_of_tdcCfg_zero (h : s.tdcCfg = 0x00000000#32) : ¬s.CylLegal := by
  have hcount : s.cylCount = 0 := by unfold State.cylCount; rw [h]; rfl
  rintro ⟨-, hdiv⟩
  rw [hcount] at hdiv
  cases hdiv

/-- Nothing can be validated or generated (R292). -/
theorem unloaded_refuses (h : s.Unloaded) :
    ¬s.ConfigLegal ∧ exec .generate s = .next (s.recordError .configNotValidated) ∧
      exec .validate s = .next (s.recordError .invalidCylinderCount) := by
  obtain ⟨hidle, htdc, hvalid⟩ := h
  have hcyl := not_cylLegal_of_tdcCfg_zero htdc
  obtain ⟨hcount, -⟩ := validateError_eq s
  exact ⟨fun ⟨hlegal, _⟩ => hcyl hlegal, exec_generate_not_validated hidle hvalid, exec_validate_error hidle (hcount hcyl)⟩

/-- VALIDATE and GENERATE are refused, so only a write to TDC_CFG leaves such a state. -/
theorem HostStep.unloaded (h : HostStep s i t) (hi : ∀ v, i ≠ .writeTdcCfg v) (hs : s.Unloaded) : t.Unloaded := by
  have ⟨hidle, htdc, hvalid⟩ := hs
  have ⟨hillegal, _⟩ := unloaded_refuses hs
  cases h with
  | validate idle hok => exact absurd ((validateError_none_iff s).1 hok) hillegal
  | generate idle hv => exact absurd (hvalid.symm.trans hv) Bool.false_ne_true
  | writeTdcCfg v => exact absurd rfl (hi v)
  | writeCrkCfg | writeCamCfg | writeCamEdge => exact ⟨hidle, htdc, rfl⟩
  | _ => exact hs

/-- No instruction but a write to TDC_CFG loads anything; the ENGINE has no step in IDLE. -/
theorem exec_unloaded (hi : ∀ v, i ≠ .writeTdcCfg v) (h : exec i s = .next t) (hs : s.Unloaded) : t.Unloaded := by
  have ⟨hidle, _⟩ := hs
  by_cases hn : notEngine i = true
  · exact (exec_host_step hn h).unloaded (fun v hv => hi v (eq_of_issued_eq hv rfl)) hs
  · exact absurd (hidle.symm.trans (exec_engine_busy hn h)) Bool.false_ne_true

end

theorem resetOf_counts (p : Params) :
    (State.resetOf p).cylCount = 0 ∧ (State.resetOf p).toothCount = 0 ∧ (State.resetOf p).missingCount = 0 := by
  unfold State.cylCount State.toothCount State.missingCount
  simp [State.resetOf]

/-- Settles O11: reset's state is unloaded, an unloaded state refuses, and it stays unloaded. -/
theorem afterResetNothingIsValidated : Obligations.AfterResetNothingIsValidated := by
  refine ⟨fun p => ?_, fun s hidle htdc hvalid => ?_⟩
  · obtain ⟨hcyl, htooth, hmissing⟩ := resetOf_counts p
    exact ⟨hcyl, htooth, hmissing, rfl, rfl, rfl, unloaded_refuses ⟨rfl, rfl, rfl⟩⟩
  · have hs : s.Unloaded := ⟨hidle, htdc, hvalid⟩
    obtain ⟨hillegal, hgenerate, hvalidate⟩ := unloaded_refuses hs
    exact ⟨hillegal, hgenerate, hvalidate, fun i t hi h => exec_unloaded hi h hs⟩

/-! ### Where a stream read overruns (`45_config_control.md` R246) -/

section
variable {s : State} {k : Result} {f : Fault} {i : Instr}

theorem whenIdle_fault (h : whenIdle s k = .fault f) : k = .fault f := by
  cases hb : s.busy with
  | true => rw [whenIdle_busy k hb] at h; cases h
  | false => rwa [whenIdle_idle k hb] at h

theorem withElement_fault {addr : BitVec 13} (h : withElement addr s k = .fault f) : addr.toNat < elementCount ∧ k = .fault f := by
  rcases withElement_cases addr s k with ⟨e, -, he⟩ | ⟨-, ha, he⟩ <;> rw [he] at h
  · cases h
  · exact ⟨ha, h⟩

theorem withCylinder_fault {addr : BitVec 13} {cyl : BitVec 3} (h : withCylinder addr cyl s k = .fault f) :
    addr.toNat < elementCount ∧ cyl.toNat < tdcBits ∧ k = .fault f := by
  rcases withCylinder_cases addr cyl s k with ⟨e, -, he⟩ | ⟨-, ha, hc, he⟩ <;> rw [he] at h
  · cases h
  · exact ⟨ha, hc, h⟩

theorem writeBit_no_fault {a b : Nat} {x : Level} (ha : a < elementCount) (hb : b < 8) : finish (s.memWriteBit a b x) ≠ .fault f := by
  rw [memWriteBit_ok x ha (Nat.lt_of_lt_of_le hb (width_ge _))]
  nofun

theorem getBit_fault {a b : Nat} (ha : a < elementCount) (hb : b < 8) (h : getBit a b s = .fault f) : f = .undefinedRead a b := by
  rcases getBit_cases ha (Nat.lt_of_lt_of_le hb (width_ge s.params.width)) with ⟨v, hg⟩ | ⟨-, hg⟩ <;> rw [hg] at h <;> cases h
  rfl

theorem memRead_fault {a : Nat} (ha : a < elementCount) (h : s.memRead a = .error f) : ∃ b, f = .undefinedRead a b := by
  rcases memRead_cases (s := s) ha with ⟨-, hr⟩ | ⟨b, -, -, hr⟩ <;> rw [hr] at h <;> cases h
  exact ⟨b, rfl⟩

/-- The twelve commands stop at reads of undefined bits only (`20_memory.md` R64). -/
theorem issue_fault {op : Opcode} {addr : BitVec 13} {cyl : BitVec 3} {lvl : Level} (h : issue op addr cyl lvl s = .fault f) :
    ∃ a b, f = .undefinedRead a b := by
  cases op with
  | nop | clrErr => cases h
  | setCam | setCrk =>
    obtain ⟨ha, h⟩ := withElement_fault h
    exact absurd h (writeBit_no_fault ha (by decide))
  | getCam | getCrk =>
    obtain ⟨ha, h⟩ := withElement_fault h
    exact ⟨_, _, getBit_fault ha (by decide) h⟩
  | setTdc =>
    obtain ⟨ha, hc, h⟩ := withCylinder_fault h
    exact absurd h (writeBit_no_fault ha (tdcBit_lt hc))
  | getTdc =>
    obtain ⟨ha, hc, h⟩ := withCylinder_fault h
    exact ⟨_, _, getBit_fault ha (tdcBit_lt hc) h⟩
  | rdWord =>
    obtain ⟨ha, h⟩ := withElement_fault h
    cases hr : s.memRead addr.toNat with
    | ok v => rw [hr] at h; cases h
    | error g => rw [hr] at h; cases h; exact ⟨_, memRead_fault ha hr⟩
  | wrWord =>
    obtain ⟨ha, h⟩ := withElement_fault h
    rw [memWrite_ok s.data ha] at h
    cases h
  | validate =>
    replace h := whenIdle_fault h
    cases hv : s.validateError <;> rw [hv] at h <;> cases h
  | generate =>
    replace h := whenIdle_fault h
    cases hv : s.cfgValid <;> rw [hv] at h <;> cases h

theorem issue_no_overrun (op : Opcode) (addr : BitVec 13) (cyl : BitVec 3) (lvl : Level) (n : Nat) :
    issue op addr cyl lvl s ≠ .fault (.streamIndexOutOfContract n) := fun h => by
  obtain ⟨a, b, hf⟩ := issue_fault h
  cases hf

theorem execWriteCmd_no_overrun (v : Word) (n : Nat) : execWriteCmd v s ≠ .fault (.streamIndexOutOfContract n) := by
  unfold execWriteCmd
  cases commandOf v with
  | none => nofun
  | some op => exact issue_no_overrun op _ _ _ n

theorem writeConfig_no_fault {mask v : Word} {stored : State} : writeConfig mask v s stored ≠ .fault f := by
  rcases writeConfig_cases mask v s stored with ⟨e, -, h⟩ | ⟨-, -, h⟩ <;> rw [h] <;> nofun

theorem raiseAccess_no_fault {acc : Access} : raiseAccess acc s ≠ .fault f := by
  cases acc <;> nofun

/-- A main step stops for want of its phase, of a legal wheel, or of an element. -/
theorem execMainStep_no_overrun (n : Nat) : execMainStep s ≠ .fault (.streamIndexOutOfContract n) := by
  unfold execMainStep
  split
  · nofun
  · split
    · nofun
    · by_cases hc : s.cursor.toNat < elementCount
      · rw [writeSignals_ok hc]; nofun
      · have hw : writeSignals s.cursor.toNat s = .error (.noSuchElement s.cursor.toNat) := by
          unfold writeSignals State.memWriteBit
          rw [if_pos (Nat.le_of_not_lt hc)]
        rw [hw]; nofun

/-- A TDC step stops for want of its phase or of a cylinder. -/
theorem execTdcStep_no_overrun (n : Nat) : execTdcStep s ≠ .fault (.streamIndexOutOfContract n) := by
  by_cases hp : s.phase = .tdc
  · by_cases hk : s.tdcK.toNat < s.cylCount ∧ s.cylCount ≤ tdcBits
    · obtain ⟨hlt, hle⟩ := hk
      have hnext : execTdcStep s = .next (tdcNext s) := execTdcStep_next hp hlt hle
      rw [hnext]; nofun
    · unfold execTdcStep
      rw [if_neg (not_not_intro hp), if_pos (by rw [decide_eq_false hk]; rfl)]
      nofun
  · unfold execTdcStep
    rw [if_pos hp]
    nofun

/-- Only a stream read past the last element overruns. -/
theorem exec_overrun {n : Nat} (h : exec i s = .fault (.streamIndexOutOfContract n)) : i = .streamRd n ∧ elementCount ≤ n := by
  cases i with
  | streamRd m =>
    by_cases hm : m < elementCount
    · cases hr : s.memRead m with
      | ok v => rw [exec_streamRd_ok hm hr] at h; cases h
      | error g =>
        obtain ⟨b, rfl⟩ := memRead_fault hm hr
        rw [exec_streamRd_error hm hr] at h
        cases h
    · obtain ⟨-, -, hout⟩ := streamReadReturnsTheElement m s
      rw [hout (Nat.le_of_not_lt hm)] at h
      cases h
      exact ⟨rfl, Nat.le_of_not_lt hm⟩
  | setCam addr lvl => exact absurd h (issue_no_overrun .setCam addr 0 lvl n)
  | getCam addr => exact absurd h (issue_no_overrun .getCam addr 0 .low n)
  | setCrk addr lvl => exact absurd h (issue_no_overrun .setCrk addr 0 lvl n)
  | getCrk addr => exact absurd h (issue_no_overrun .getCrk addr 0 .low n)
  | setTdc addr cyl lvl => exact absurd h (issue_no_overrun .setTdc addr cyl lvl n)
  | getTdc addr cyl => exact absurd h (issue_no_overrun .getTdc addr cyl .low n)
  | rdWord addr => exact absurd h (issue_no_overrun .rdWord addr 0 .low n)
  | wrWord addr => exact absurd h (issue_no_overrun .wrWord addr 0 .low n)
  | validate => exact absurd h (issue_no_overrun .validate 0 0 .low n)
  | generate => exact absurd h (issue_no_overrun .generate 0 0 .low n)
  | writeCmd v => exact absurd h (execWriteCmd_no_overrun v n)
  | writeCrkCfg | writeCamCfg | writeTdcCfg | writeCamEdge0 | writeCamEdge16 => exact absurd h writeConfig_no_fault
  | writeCamEdge20 | writeCamEdge24 => cases whenIdle_fault h
  | unmapped20 acc | unmappedC0 acc | misaligned acc => exact absurd h raiseAccess_no_fault
  | mainStep => exact absurd h (execMainStep_no_overrun n)
  | tdcStep => exact absurd h (execTdcStep_no_overrun n)
  | _ => cases h

end

/-! ### The past of the environment, step by step (R303, R306) -/

/-- Taking `i` in `s` after the past `v` keeps every duty. -/
abbrev EnvView.Dutiful (v : EnvView) (s : State) (i : Instr) : Prop := ∀ d : Duty, d.keptBy v s i = true

section
variable {v : EnvView} {s t : State} {i : Instr} {n : Nat}

/-- The streamer reads the element it is due (R303). -/
theorem EnvView.Dutiful.stream_eq (h : v.Dutiful s (.streamRd n)) : n = v.streamNext.getD 0 := by
  simpa [Duty.keptBy] using h .streamInOrder

/-- The streamer stays in range. -/
theorem EnvView.Dutiful.stream_lt (h : v.Dutiful s (.streamRd n)) (hv : v.Tracks s) : n < elementCount := by
  obtain ⟨-, hnext⟩ := hv
  rw [h.stream_eq]
  cases hs : v.streamNext with
  | none => exact (by decide : 0 < elementCount)
  | some m => exact hnext m hs

/-- The first read is of element 0 of a complete PMEM (R299, R303). -/
theorem EnvView.Dutiful.stream_starts (h : v.Dutiful s (.streamRd n)) (hs : v.streamNext = none) : n = 0 ∧ s.Complete := by
  have hstart := h .streamStartsWhenComplete
  simp only [Duty.keptBy, hs, Option.isSome_none, Bool.false_or, decide_eq_true_eq] at hstart
  exact ⟨by rw [h.stream_eq, hs]; rfl, hstart⟩

/-- HOST has seen BUSY = 0 before it sends what BUSY = 1 refuses (R299, R306). -/
theorem EnvView.Dutiful.idle (h : v.Dutiful s i) (hv : v.Tracks s) (hi : needsIdle i = true) : s.busy = false := by
  obtain ⟨hopen, -⟩ := hv
  have hclosed : v.generateOpen = false := by simpa [Duty.keptBy, hi] using h .pollUntilIdle
  exact Bool.eq_false_iff.2 fun hb => Bool.false_ne_true (hclosed.symm.trans (hopen hb))

/-- What is taken dutifully is not refused with E_BUSY (`60_exceptions.md` R266). -/
theorem EnvView.Dutiful.not_busy (h : v.Dutiful s i) (hv : v.Tracks s) (hx : exec i s = .next t) (ht : t.err = .busy) :
    s.err = .busy := by
  by_cases hn : notEngine i = true
  · refine (exec_raises_busy hn hx ht).resolve_right fun ⟨hb, hi⟩ => ?_
    exact Bool.false_ne_true ((h.idle hv hi).symm.trans hb)
  · obtain ⟨herr, -⟩ := exec_engine_sameRecord hn hx
    exact herr.symm.trans ht

/-- A generation is open from its GENERATE until HOST reads BUSY = 0, and an index modulo 7200 is in range. -/
theorem EnvView.Tracks.after (hv : v.Tracks s) (hx : exec i s = .next t) : (v.after s i).Tracks t := by
  obtain ⟨hopen, hnext⟩ := hv
  refine ⟨fun ht => ?_, ?_⟩
  · unfold EnvView.after
    cases hs : s.busy with
    | true => simp [hopen hs]
    | false => simp [exec_starts_generation hx hs ht]
  · unfold EnvView.after
    cases i with
    | streamRd m => rintro n ⟨⟩; exact Nat.mod_lt _ (by decide)
    | _ => exact hnext

/-- A step with its effect on the past: a reset, a turn that passes, or the instruction of the turn. -/
theorem step_afterStep_cases (v : EnvView) (s : State) :
    (step s = .next (nextTurn s).2.applyReset ∧ v.afterStep s = .initial) ∨
      (step s = .next (nextTurn s).2 ∧ v.afterStep s = v) ∨
      ∃ i, turnInstr (nextTurn s).1 (nextTurn s).2 = some i ∧ step s = exec i (nextTurn s).2 ∧
        v.afterStep s = v.after (nextTurn s).2 i := by
  unfold step takeTurn EnvView.afterStep
  generalize nextTurn s = p
  obtain ⟨turn, u⟩ := p
  cases hi : turnInstr turn u with
  | none =>
    cases turn with
    | reset => exact .inl ⟨rfl, rfl⟩
    | _ => exact .inr (.inl ⟨by simp only [hi], by simp only [hi]⟩)
  | some i =>
    cases turn with
    | reset => cases hi
    | _ => exact .inr (.inr ⟨i, rfl, by simp only [hi], by simp only [hi]⟩)

/-- What the agenda still holds is nothing to the past. -/
theorem tracks_nextTurn (hv : v.Tracks s) : v.Tracks (nextTurn s).2 := by
  obtain ⟨rest, hrest⟩ := nextTurn_state s
  rw [hrest]
  exact hv

theorem nextTurn_err (s : State) : (nextTurn s).2.err = s.err := by
  obtain ⟨rest, hrest⟩ := nextTurn_state s
  rw [hrest]

theorem initial_tracks (hs : s.busy = false) : EnvView.initial.Tracks s := ⟨by rw [hs]; nofun, nofun⟩

/-- A dutiful step keeps the past in agreement with the block, and records no E_BUSY. -/
theorem dutiful_step (hv : v.Tracks s) (hd : s.DutiesKept v) (h : step s = .next t) :
    (v.afterStep s).Tracks t ∧ (t.err = .busy → s.err = .busy) := by
  rw [← nextTurn_err s]
  rcases step_afterStep_cases v s with ⟨hs, ha⟩ | ⟨hs, ha⟩ | ⟨i, hi, hs, ha⟩ <;> rw [hs] at h <;> rw [ha]
  · cases h
    exact ⟨initial_tracks rfl, nofun⟩
  · cases h
    exact ⟨tracks_nextTurn hv, id⟩
  · have hu := tracks_nextTurn hv
    exact ⟨hu.after h, EnvView.Dutiful.not_busy (hd i hi) hu h⟩

/-- A dutiful step is no stream read past element 7199. -/
theorem dutiful_step_no_overrun (hv : v.Tracks s) (hd : s.DutiesKept v) (n : Nat) : step s ≠ .fault (.streamIndexOutOfContract n) := by
  intro h
  rcases step_afterStep_cases v s with ⟨hs, -⟩ | ⟨hs, -⟩ | ⟨i, hi, hs, -⟩ <;> rw [hs] at h
  · cases h
  · cases h
  · obtain ⟨rfl, hout⟩ := exec_overrun h
    exact absurd (EnvView.Dutiful.stream_lt (hd _ hi) (tracks_nextTurn hv)) (Nat.not_lt_of_le hout)

end

/-- Settles O60: the past tracks the block through every step; the streamer's index and start are its two duties, and with the record
cleared E_BUSY is still raised by nothing that is taken dutifully. -/
theorem dutifulEnvironmentIsNeverBusyOrOverrun : Obligations.DutifulEnvironmentIsNeverBusyOrOverrun := by
  refine ⟨fun p => initial_tracks rfl, fun v s hv hd => ⟨fun t => dutiful_step hv hd, dutiful_step_no_overrun hv hd,
    fun n rest ha => ?_, fun i t hi h ht => ?_⟩⟩
  · have hn := nextTurn_cons ha
    have hduty : v.Dutiful { s with agenda := rest } (.streamRd n) := fun d => by
      have := hd (.streamRd n) (by rw [hn]; rfl) d
      rwa [hn] at this
    exact ⟨hduty.stream_lt hv, hduty.stream_starts⟩
  · have hcleared : v.Dutiful (nextTurn s).2.clearError i := hd i hi
    have herr : (nextTurn s).2.clearError.err = .busy := hcleared.not_busy (tracks_nextTurn hv) h ht
    cases herr

end Sys2Proof.Machine
end
